-- ==== Sys2Proof/Word.lean ====
section
/-! DEFINITION. The word types of the machine: the byte of a buffer, the 32-bit register and the
64-bit immediate (00_scope.md R12, R16, 10_state.md R44). -/

namespace Sys2Proof

/-- One byte of an instruction or data buffer. -/
abbrev Byte := BitVec 8

/-- The content of one 32-bit register or uniform. -/
abbrev Word32 := BitVec 32

/-- An immediate: a signed 64-bit integer, read with `BitVec.toInt` (R16). -/
abbrev Imm64 := BitVec 64

/-- A byte buffer: a finite byte sequence, byte 0 first (R12). -/
abbrev Buffer := List Byte

end Sys2Proof
end

