-- ==== Sys2Proof/Config.lean ====
section
/-! DEFINITION. What the caller fixes before any call (70_reset_and_hazards.md R393): the OPEN
parameters of 00_scope.md R9 and R11. Their types and constraints are here; their values are
opaque constants, because no document gives them. -/

namespace Sys2Proof

/-- The eleven named element formats (46_format_converters.md R281). -/
inductive Format where
  | i8 | i16 | i32 | u8norm | s8norm | u16norm | s16norm | rgb10a2 | srgba8 | rg11b10f | rgb9e5
deriving DecidableEq, Repr

/-- Every format, in the order 30_encoding.md R112 lists the names. -/
def Format.all : List Format :=
  [.i8, .i16, .i32, .u8norm, .s8norm, .u16norm, .s16norm, .rgb10a2, .srgba8, .rg11b10f, .rgb9e5]

/-- `INT_LOAD_EXT`: how an integer load extends a narrow element (46 R283, D40). -/
inductive IntExt where
  | sign | zero
deriving DecidableEq, Repr

/-- `FORMAT_CODE`: the 4-bit code of each named format (00 R9, D2). -/
structure FormatCodes where
  i8 : BitVec 4
  i16 : BitVec 4
  i32 : BitVec 4
  u8norm : BitVec 4
  s8norm : BitVec 4
  u16norm : BitVec 4
  s16norm : BitVec 4
  rgb10a2 : BitVec 4
  srgba8 : BitVec 4
  rg11b10f : BitVec 4
  rgb9e5 : BitVec 4
deriving DecidableEq, Repr

/-- The code of one name. -/
def FormatCodes.code (t : FormatCodes) : Format → BitVec 4
  | .i8 => t.i8
  | .i16 => t.i16
  | .i32 => t.i32
  | .u8norm => t.u8norm
  | .s8norm => t.s8norm
  | .u16norm => t.u16norm
  | .s16norm => t.s16norm
  | .rgb10a2 => t.rgb10a2
  | .srgba8 => t.srgba8
  | .rg11b10f => t.rg11b10f
  | .rgb9e5 => t.rgb9e5

/-- The configuration `P` a codec function or a run takes (45_stream_codec.md R260, 70 R393). -/
structure Params where
  /-- `OPC_LOAD`, bits 0–6 of a Load word. -/
  opcLoad : BitVec 7
  /-- `OPC_STORE`, bits 0–6 of a Store word. -/
  opcStore : BitVec 7
  /-- `OPC_RET`, bits 0–6 of a Ret word. -/
  opcRet : BitVec 7
  /-- `WAIT_WORD`, the whole Wait word. -/
  waitWord : BitVec 16
  /-- `FORMAT_CODE`. -/
  formats : FormatCodes
  /-- `INT_LOAD_EXT`. -/
  intLoadExt : IntExt
deriving DecidableEq, Repr

/-- The six dispatch keys of 30_encoding.md R83, Mov's and Stop's among them. -/
def Params.keys (p : Params) : List Nat :=
  [p.opcLoad.toNat, p.opcStore.toNat, 0x62, p.opcRet.toNat, 0x08, p.waitWord.toNat % 128]

/-- The constraints on the OPEN parameters: the six keys are pairwise distinct (30 R84) and
`FORMAT_CODE` is injective (D2). -/
def Params.valid (p : Params) : Bool :=
  decide p.keys.Nodup && decide ((Format.all.map p.formats.code).Nodup)

/-- "A model takes the four values as arguments together with a proof of these constraints" (R84).
The default values only show that such a configuration exists; nothing can compute with them. -/
structure Configured where
  val : Params :=
    ⟨0x01, 0x02, 0x03, 0x0004, ⟨0, 1, 2, 3, 4, 5, 6, 7, 8, 9, 10⟩, .zero⟩
  ok : val.valid = true := by decide
deriving Inhabited

/-- The configuration of the machine. OPEN (D1, D2, D40): no value of it can be proved or computed,
only the constraints of R84. Log 1, 2, 12. -/
opaque Config.params : Configured

/-- `NUNI`, the number of uniforms. OPEN (D29). Log 5. -/
opaque Config.nuni : Nat

/-- `MF_ENC_6`, the store rounding of an 11-bit minifloat channel. OPEN (46 R295, D44). Log 13. -/
opaque Config.mfEnc6 : Word32 → BitVec 11

/-- `MF_ENC_5`, the store rounding of the 10-bit minifloat channel. OPEN (46 R295, D44). Log 13. -/
opaque Config.mfEnc5 : Word32 → BitVec 10

end Sys2Proof
end

