-- ==== Sys2Proof/Machine/Error.lean ====
section
/-! DEFINITION. The error kinds of the codec and the text layer, with the context each records
(60_exceptions.md R360–R366, 45_stream_codec.md R264). -/

namespace Sys2Proof

/-- The field a `FieldConstraintViolation` names (60 R361). -/
inductive Field where
  | format | laneMask
  | memregKind | memregIndex | memregLsb
  | baseKind | baseIndex | baseLsb
  | offsetKind | offsetSignExtend | offsetRegister | offsetRegisterLsb | offsetShift
  | offsetRange | offsetHigh
  | lsFiller26 | lsFiller28_31 | lsFiller44_46 | lsFiller50_51 | lsLong
  | movDestKind | movDestIndex | movDestLsb | movDestFlag | movLongHalf | movSourceKind
  | movImm | movUnused
  | retReg | retReserved | stopWord | waitWord
  | textPair | textMask | textReglist
deriving DecidableEq, Repr

/-- The reasons of an `InternalAssertion` of the codec (60 R366). -/
inductive Assertion where
  /-- An accessor call outside the precondition of 40_bitfield_accessor.md R130. -/
  | accessorRange
  /-- A `set_bits` value that does not fit its field (40 R133). -/
  | valueTooWide
  /-- A packer whose output breaks its layout's filler constants (60 R366). -/
  | packerSelfCheck
deriving DecidableEq, Repr

/-- Where an error was found, as far as the call knows it (45 R264). -/
inductive Place where
  /-- One packer call. -/
  | word
  /-- The instruction at this byte offset of the decoded buffer. -/
  | offset (c : Nat)
  /-- The item with this index in the assembled list. -/
  | item (k : Nat)
  /-- A token of this text line. -/
  | line (n : Nat) (token : List Char)
deriving DecidableEq, Repr

/-- An error of the codec or the text layer: its kind with its context. `ExecutionFault` (kind 8)
and the entry check's `InternalAssertion` are raised by the reference execution alone and stand in
`Machine.Fault`. -/
inductive Err where
  /-- Kind 1: an unparsable token (60 R364). -/
  | malformedOperand (line : Nat) (token : List Char)
  /-- Kind 2: token 0 is no mnemonic (60 R365). -/
  | unknownMnemonic (line : Nat) (token : List Char)
  /-- Kind 3: a format token outside the name table (60 R365). -/
  | unknownFormatName (line : Nat) (token : List Char)
  /-- Kind 4: the key and the byte offset of an unknown word (60 R362). -/
  | unknownOpcode (key offset : Nat)
  /-- Kind 5: the field and the place (60 R361). -/
  | fieldConstraint (field : Field) (place : Place)
  /-- Kind 6: the byte offset, and the length when it is known (60 R363). -/
  | bufferBounds (offset : Nat) (length : Option Nat)
  /-- Kind 7 (60 R366). -/
  | internalAssertion (reason : Assertion)
deriving DecidableEq, Repr

/-- The numeric code of an error kind (60 R360). -/
def Err.code : Err → Nat
  | .malformedOperand _ _ => 1
  | .unknownMnemonic _ _ => 2
  | .unknownFormatName _ _ => 3
  | .unknownOpcode _ _ => 4
  | .fieldConstraint _ _ => 5
  | .bufferBounds _ _ => 6
  | .internalAssertion _ => 7

/-- A field check: `field` unless the condition holds. -/
def check (ok : Bool) (field : Field) : Except Field Unit :=
  if ok then .ok () else .error field

/-- A field error met at a place, as an error of the call. -/
def atPlace {α : Type} (place : Place) : Except Field α → Except Err α
  | .ok a => .ok a
  | .error f => .error (.fieldConstraint f place)

/-- An error of a packer, met while assembling item `k` of a list (45 R264). -/
def Err.atItem (k : Nat) : Err → Err
  | .fieldConstraint f _ => .fieldConstraint f (.item k)
  | e => e

end Sys2Proof
end

