-- ==== Sys2Proof/Syntax/Operand.lean ====
section
/-! DEFINITION. Operand sources: "a tagged description of where a value comes from/goes to"
(00_scope.md R16, R18). -/

namespace Sys2Proof

/-- The six operand kinds (00 R16). -/
inductive OperandKind where
  /-- `Immediate(v)`, `v` a signed 64-bit integer. -/
  | imm (v : Imm64)
  /-- `Reg16Low(n)`, bits 15:0 of register `n`. -/
  | r16l (n : Nat)
  /-- `Reg16High(n)`, bits 31:16 of register `n`. -/
  | r16h (n : Nat)
  /-- `Reg32(n)`. -/
  | r32 (n : Nat)
  /-- `Reg64Pair(n)`, registers `n` and `n+1`; the second index is not stored (10_state.md R38). -/
  | r64 (n : Nat)
  /-- `Uniform64Pair(n)`, uniforms `n` and `n+1`. -/
  | u64 (n : Nat)
deriving DecidableEq, Repr

/-- An operand source: a kind and the `sign_extend` flag every operand carries (R16). -/
structure Operand where
  kind : OperandKind
  se : Bool
deriving DecidableEq, Repr

/-- `Imm(v)` with `se = false`, the form a Mov source takes (43_move.md R213). -/
abbrev Operand.imm (v : Imm64) : Operand := ⟨.imm v, false⟩

/-- `Imm(v)` with `se = true`, the form an offset immediate takes (41_operand_codec.md R141). -/
abbrev Operand.immS (v : Imm64) : Operand := ⟨.imm v, true⟩

/-- `R32(n)` with `se = false`. -/
abbrev Operand.r32 (n : Nat) : Operand := ⟨.r32 n, false⟩

/-- `R32(n)` with `se = true`, a signed register offset. -/
abbrev Operand.r32S (n : Nat) : Operand := ⟨.r32 n, true⟩

/-- `R16L(n)` with `se = false`. -/
abbrev Operand.r16l (n : Nat) : Operand := ⟨.r16l n, false⟩

/-- `R16H(n)` with `se = false`. -/
abbrev Operand.r16h (n : Nat) : Operand := ⟨.r16h n, false⟩

/-- `R64(n)` with `se = false`. -/
abbrev Operand.r64 (n : Nat) : Operand := ⟨.r64 n, false⟩

/-- `U64(n)` with `se = false`. -/
abbrev Operand.u64 (n : Nat) : Operand := ⟨.u64 n, false⟩

end Sys2Proof
end

