-- ==== Sys2Proof/Syntax.lean ====
section
/-! DEFINITION. The structured instructions (30_encoding.md R80), one constructor per row of
spec/opcode_table.json. The three Mov constructors are the three binary forms of 43_move.md R211. -/

namespace Sys2Proof

/-- A structured instruction. Its operands are any operand sources, as in the source's data model:
the packers and the execution refuse what does not fit. -/
inductive Instr where
  /-- `Load{format, lane_mask, memory_reg, memory_base, memory_offset}` (42_load_store.md R180). -/
  | deviceLoad (fc mask : Nat) (reg base off : Operand)
  /-- `Store{…same fields…}` (42 R180). -/
  | deviceStore (fc mask : Nat) (reg base off : Operand)
  /-- `Mov{dest, source}` in the 4-byte form, half-register destination (43 R216). -/
  | movHalf (dest src : Operand)
  /-- `Mov{dest, source}` in the 6-byte form, 32-bit destination (43 R217). -/
  | movShort (dest src : Operand)
  /-- `Mov{dest, source}` in the 8-byte form, 32-bit destination (43 R218). -/
  | movLong (dest src : Operand)
  /-- `Ret{reg}` (44_ret_stop_wait.md R241). -/
  | ret (reg : Operand)
  /-- `Stop` (44 R243). -/
  | stop
  /-- `Wait` (44 R245). -/
  | wait
deriving DecidableEq, Repr

end Sys2Proof
end

