-- ==== Sys2Proof/Machine/State.lean ====
section
/-! DEFINITION. The state of the reference execution (10_state.md R44), the configuration it runs
under (R40) and the program it is given (47_reference_execution.md R330); the reasons a step can
stop; the state at reset (R46). -/

namespace Sys2Proof.Machine

/-- The data buffer `S.mem` (20_memory.md R61): its length, and its bytes as a canonical list of
address and byte pairs. -/
structure Memory where
  /-- The number of bytes; addresses are `0 .. size-1`. It never changes (47 R330). -/
  size : Nat
  /-- The bytes that are not zero, addresses strictly rising. An unlisted byte reads as 0. -/
  cells : List Host.Cell
deriving DecidableEq, Repr

/-- What the caller gives to run. -/
inductive Program where
  /-- An instruction byte buffer `B` (20 R60): the list is what `disassemble` makes of it. -/
  | code (B : Buffer)
  /-- A structured instruction list `L` (47 R330), decoded or not. -/
  | list (L : List Instr)
deriving DecidableEq, Repr

/-- Why a step stops with a fault. "A fault ends run with that fault alone" (47 R332). -/
inductive Fault where
  /-- Raised by fetching: the program's bytes do not decode (45_stream_codec.md R262). Safe: the
  spec names the error. -/
  | decode (e : Err)
  /-- Raised by the entry check: `InternalAssertion(zero_register)`, `x[0]` is not 0 (47 R331).
  Safe: the spec names it. -/
  | zeroRegister
  /-- Raised by Load and Store: `ExecutionFault(unknown_format)` (47 R335). Safe. -/
  | unknownFormat
  /-- Raised by Load and Store: `ExecutionFault(no_channel)` (47 R335, 46 R304). Safe. -/
  | noChannel
  /-- Raised by Load and Store: `ExecutionFault(half_list)` (47 R335). Safe. -/
  | halfList
  /-- Raised by Load and Store: `ExecutionFault(element_range)` (47 R335). Safe. -/
  | elementRange
  /-- Raised by every register access: `ExecutionFault(register_index)` (47 R333). Safe. -/
  | registerIndex
  /-- Raised by register reads and half-register writes: `ExecutionFault(undefined_register)`, the
  caller seeded no value (47 R333). Safe. -/
  | undefinedRegister
  /-- Raised by fetching: `ExecutionFault(end_of_program)` (47 R332). Safe. -/
  | endOfProgram
  /-- Raised by Mov, Load and Store on an operand kind the structured forms of 42 R180 and 43 R210
  do not admit, to which the spec gives no execution. Safe: the model stops. Log 11. -/
  | operandKind
deriving DecidableEq, Repr

/-- Why a step refuses an instruction. -/
inductive Refusal where
  /-- Raised by exec's arm of an instruction with no meaning yet. Safe. No arm raises it. -/
  | notModelled (mnemonic : String)
deriving DecidableEq, Repr

/-- The machine's state, plain data. -/
structure State where
  /-- The configuration; no instruction changes it (R40, R46). -/
  params : Params
  /-- The program of this run (47 R330); no instruction changes it (20 R74). -/
  program : Program
  /-- `S.x[0..NREG-1]`; `none` is a register that holds no value (R44, R45). -/
  x : List (Option Word32)
  /-- `S.u[0..NUNI-1]` (R44); no instruction reads or writes a uniform (47 R335). -/
  u : List (Option Word32)
  /-- `S.mem`, the data buffer (R44). -/
  mem : Memory
  /-- `S.k`, the instruction cursor (R44). -/
  k : Nat
  /-- `S.halted` (R44). -/
  halted : Bool
deriving DecidableEq, Repr

/-- The register file's size at reset: the spec's default for `NREG` (D29). Log 4. -/
def State.resetRegisters : Nat := 256

/-- The data buffer's length at reset: every byte an instruction can name, `4·(2^32 + 3)`. Log 6. -/
def State.resetMemorySize : Nat := 17179869196

/-- The state of a call whose caller gave no program, seeded every register with 0 and gave a zero
data buffer (R46). Logs 1, 3–7. -/
def State.reset : State where
  params := Config.params.val
  program := .code []
  x := List.replicate State.resetRegisters (some 0)
  u := List.replicate Config.nuni (some 0)
  mem := ⟨State.resetMemorySize, []⟩
  k := 0
  halted := false

end Sys2Proof.Machine
end

