-- ==== Sys2Proof/Machine/Ops.lean ====
section
/-! DEFINITION. The named operations over the registers, the data buffer and the cursor. The spec
has no exception entry and no return from one (60_exceptions.md R369–R371): an error ends the run. -/

namespace Sys2Proof.Machine

/-- A meaning's result as an outcome of the machine. -/
def toOutcome : Except Fault State → Host.Outcome State Fault Refusal
  | .ok s => .next s
  | .error f => .fault f

/-- The error code of a fault (60 R360). `operandKind` has none in the spec; the model gives it the
code of an execution fault. -/
def faultCode : Fault → Nat
  | .decode e => e.code
  | .zeroRegister => 7
  | _ => 8

/-! ## Registers (47 R333) -/

/-- Register `i` exists: `i < NREG`. -/
def checkRegister (s : State) (i : Nat) : Except Fault Unit :=
  if i < s.x.length then .ok () else .error .registerIndex

/-- Read `x[i]`: a fault where the register does not exist or holds no value (R333). -/
def readRegister (s : State) (i : Nat) : Except Fault Word32 :=
  match s.x[i]? with
  | none => .error .registerIndex
  | some none => .error .undefinedRegister
  | some (some v) => .ok v

/-- The value of `x[i]`, 0 where it has none; read only after `readRegister` has succeeded. -/
def regValue (s : State) (i : Nat) : Word32 :=
  (s.x[i]?.join).getD 0

/-- `x[i] <- v`; nothing where the register does not exist. -/
def setRegister (s : State) (i : Nat) (v : Word32) : State :=
  { s with x := s.x.set i (some v) }

/-- `x[i] <- v`, a fault where the register does not exist (R333). -/
def writeRegister (s : State) (i : Nat) (v : Word32) : Except Fault State := do
  checkRegister s i
  return setRegister s i v

/-! ## Cursor -/

/-- `k <- k + 1` (47 R332). -/
def advance (s : State) : State :=
  { s with k := s.k + 1 }

/-- `halted <- true`; `k` is unchanged (47 R338). -/
def halt (s : State) : State :=
  { s with halted := true }

/-! ## Data buffer -/

/-- What an unlisted byte of the data buffer reads as. Log 6. -/
def unlistedByte : Byte := 0

/-- The byte of a cell list at an address. -/
def cellsAt : List Host.Cell → Nat → Byte
  | [], _ => unlistedByte
  | (b, v) :: rest, a => if a = b then v else cellsAt rest a

/-- A cell list with one byte written, in canonical form again. -/
def cellsSet : List Host.Cell → Nat → Byte → List Host.Cell
  | [], a, v => if v = unlistedByte then [] else [(a, v)]
  | (b, w) :: rest, a, v =>
    if a < b then (if v = unlistedByte then (b, w) :: rest else (a, v) :: (b, w) :: rest)
    else if a = b then (if v = unlistedByte then rest else (a, v) :: rest)
    else (b, w) :: cellsSet rest a v

/-- The byte at address `a`. -/
def readByte (m : Memory) (a : Nat) : Byte :=
  cellsAt m.cells a

/-- The data buffer with the byte at `a` replaced; nothing outside the buffer is written. -/
def writeByte (m : Memory) (a : Nat) (v : Byte) : Memory :=
  if a < m.size then { m with cells := cellsSet m.cells a v } else m

/-- `MemRead(addr, n)`: `n` bytes, little-endian (00 R15, 20 R64). -/
def memRead (m : Memory) (addr : Nat) : Nat → Nat
  | 0 => 0
  | n + 1 => (readByte m addr).toNat + 256 * memRead m (addr + 1) n

/-- `MemWrite(addr, n, v)`: the low `n` bytes of `v`, little-endian (00 R15, 20 R64). -/
def memWrite (m : Memory) (addr : Nat) : Nat → Nat → Memory
  | 0, _ => m
  | n + 1, v => memWrite (writeByte m addr (BitVec.ofNat 8 v)) (addr + 1) n (v / 256)

/-- The canonical form of the cells: addresses strictly rising and inside the buffer, no cell equal
to what an unlisted byte reads as. -/
def Memory.wf (m : Memory) : Bool :=
  m.cells.Pairwise (fun a b => a.1 < b.1) &&
    m.cells.all fun c => c.1 < m.size && c.2 ≠ unlistedByte

end Sys2Proof.Machine
end

