-- ==== Sys2Proof/Machine/Control.lean ====
section
/-! DEFINITION. Ret, Stop and Wait (47_reference_execution.md R338, R339). -/

namespace Sys2Proof.Machine

/-- `ret`: execution ends; the register operand is not read (R338, 91_not_in_source.md N15). Log 18. -/
def execRet (_reg : Operand) (s : State) : Host.Outcome State Fault Refusal :=
  .next (halt s)

/-- `stop`: execution ends (R338). -/
def execStop (s : State) : Host.Outcome State Fault Refusal :=
  .next (halt s)

/-- `wait`: "a semantic no-op", only `k` advances (R339). Log 17. -/
def execWait (s : State) : Host.Outcome State Fault Refusal :=
  .next (advance s)

end Sys2Proof.Machine
end

