-- ==== Sys2Proof/Machine/Float.lean ====
section
/-! DEFINITION. Binary32 values and the one rounding, `RN32` (46_format_converters.md R282). A
magnitude is counted in units of `2^-150`: every binary32 value and every midpoint of two
neighbours is a whole number of them. -/

namespace Sys2Proof

/-- The unit of magnitudes is `2^-unitBits`. -/
def unitBits : Nat := 150

/-- `val(x)` (R282): a real as sign and magnitude, an infinity or NaN. `-0` has magnitude 0. -/
inductive F32 where
  | nan
  | inf (neg : Bool)
  | fin (neg : Bool) (mag : Nat)
deriving DecidableEq, Repr

/-- The pattern of `+inf`. -/
def infPattern : Nat := 0x7F800000

/-- `QNAN`, the only NaN pattern a converter returns (R282, D58). -/
def qnan : Word32 := 0x7FC00000

/-- The magnitude of a non-negative pattern (IEEE 754 binary32, K4); on the pattern of `+inf` it
gives `2^128`, the first value past the finite ones. -/
def patternMag (p : Nat) : Nat :=
  if p / 2 ^ 23 = 0 then 2 * p else (2 ^ 23 + p % 2 ^ 23) * 2 ^ (p / 2 ^ 23)

/-- `val(x)` of a register (R282). -/
def f32Val (x : Word32) : F32 :=
  let p := x.toNat % 2 ^ 31
  let neg := 2 ^ 31 ≤ x.toNat
  if infPattern < p then .nan
  else if p = infPattern then .inf neg
  else .fin neg (patternMag p)

/-- The largest pattern up to that of `+inf` whose magnitude is at most the real that `cmp`
compares units with, found from the top bit down: `bits` remain, `acc` is chosen so far. -/
def floorPattern (cmp : Nat → Ordering) : Nat → Nat → Nat
  | 0, acc => acc
  | bits + 1, acc =>
    let c := acc + 2 ^ bits
    floorPattern cmp bits (if c ≤ infPattern ∧ cmp (patternMag c) ≠ .gt then c else acc)

/-- The pattern nearest to a non-negative real, ties to even, `+inf` on overflow (R282). `cmp u`
compares `u` units with the real. -/
def roundMag (cmp : Nat → Ordering) : Nat :=
  let p := floorPattern cmp 31 0
  if p = infPattern then infPattern
  else
    match cmp ((patternMag p + patternMag (p + 1)) / 2) with
    | .lt => p + 1
    | .gt => p
    | .eq => if p % 2 = 0 then p else p + 1

/-- A sign and a magnitude's pattern as a register. -/
def signed32 (neg : Bool) (p : Nat) : Word32 :=
  BitVec.ofNat 32 (if neg then 2 ^ 31 + p else p)

/-- `RN32(±n/d)` for `d > 0` (R282). -/
def roundRat (neg : Bool) (n d : Nat) : Word32 :=
  signed32 neg (roundMag fun u => compare (u * d) (n * 2 ^ unitBits))

end Sys2Proof
end

