-- ==== Sys2Proof/Machine/OperandCodec.lean ====
section
/-! DEFINITION. The operand codec: four role-specific transforms and their inverses
(41_operand_codec.md R140–R150), offset compression (42_load_store.md R183), lane expansion (R153). -/

namespace Sys2Proof

/-- `sext_N(u)` (00_scope.md R14). -/
def sext (bits u : Nat) : Int :=
  if u < 2 ^ (bits - 1) then u else (u : Int) - 2 ^ bits

/-- The half-register number `2n + h` (00 R17); `none` for an operand that is no register. -/
def Operand.halfNumber : Operand → Option Nat
  | ⟨.r32 n, _⟩ => some (2 * n)
  | ⟨.r16l n, _⟩ => some (2 * n)
  | ⟨.r16h n, _⟩ => some (2 * n + 1)
  | _ => none

/-- The half register with half-register number `raw` (R17, R147). -/
def halfOperand (raw : Nat) : Operand :=
  if raw % 2 = 1 then .r16h (raw / 2) else .r16l (raw / 2)

/-! ## Memory offset -/

/-- The shift of an offset: `min(ctz(v), 3)`, and 0 for `v = 0` (R183). -/
def offsetShift (v : Int) : Nat :=
  if v = 0 then 0
  else if v % 8 = 0 then 3
  else if v % 4 = 0 then 2
  else if v % 2 = 0 then 1
  else 0

/-- `compress(v)`: the shift and the 12-bit raw offset (R183). -/
def compress (v : Int) : Except Field (Nat × Nat) :=
  let s := offsetShift v
  let q := v / 2 ^ s
  if -2048 ≤ q ∧ q ≤ 2047 then .ok (s, (q % 4096).toNat) else .error .offsetRange

/-- The fields a memory offset fills: bits 24, 25, 42–43 and the 12-bit offset field (R141). -/
structure OffsetFields where
  isImm : Nat
  sebit : Nat
  shift : Nat
  raw : Nat
deriving DecidableEq, Repr

/-- `enc_off` (R141). -/
def encOff : Operand → Except Field OffsetFields
  | ⟨.imm v, true⟩ => do
    let (shift, raw) ← compress v.toInt
    return ⟨1, 1, shift, raw⟩
  | ⟨.imm _, false⟩ => .error .offsetSignExtend
  | ⟨.r32 n, se⟩ => do
    check (n < 256) .offsetRegister
    return ⟨0, if se then 0 else 1, 0, 2 * n⟩
  | _ => .error .offsetKind

/-- `dec_off` (R142). -/
def decOff (f : OffsetFields) : Except Field Operand :=
  if f.isImm = 1 then do
    check (f.sebit = 1) .offsetSignExtend
    return .immS (BitVec.ofInt 64 (sext 12 f.raw * 2 ^ f.shift))
  else do
    check (f.shift = 0) .offsetShift
    check (f.raw % 2 = 0) .offsetRegisterLsb
    check (f.raw / 2 < 256) .offsetRegister
    return ⟨.r32 (f.raw / 2), f.sebit = 0⟩

/-! ## Memory base -/

/-- The fields a memory base fills: bit 27 and the 8-bit base field (R144). -/
structure BaseFields where
  uni : Nat
  raw : Nat
deriving DecidableEq, Repr

/-- `enc_base` (R144). -/
def encBase (op : Operand) : Except Field BaseFields :=
  match op.kind with
  | .r64 n => do
    check (n < 128) .baseIndex
    return ⟨0, 2 * n⟩
  | .u64 n => do
    check (n < 128) .baseIndex
    return ⟨1, 2 * n⟩
  | _ => .error .baseKind

/-- `dec_base` (R145). -/
def decBase (f : BaseFields) : Except Field Operand := do
  check (f.raw % 2 = 0) .baseLsb
  return if f.uni = 1 then .u64 (f.raw / 2) else .r64 (f.raw / 2)

/-! ## Memory register list -/

/-- The fields a memory register list fills: bit 49 and the 8-bit register field (R146). -/
structure RegFields where
  is32 : Nat
  raw : Nat
deriving DecidableEq, Repr

/-- `enc_reg` (R146). -/
def encReg (op : Operand) : Except Field RegFields :=
  match op.kind with
  | .r32 n => do
    check (n < 128) .memregIndex
    return ⟨1, 2 * n⟩
  | .r16l n => do
    check (n < 128) .memregIndex
    return ⟨0, 2 * n⟩
  | .r16h n => do
    check (n < 128) .memregIndex
    return ⟨0, 2 * n + 1⟩
  | _ => .error .memregKind

/-- `dec_reg` (R147). -/
def decReg (f : RegFields) : Except Field Operand :=
  if f.is32 = 1 then do
    check (f.raw % 2 = 0) .memregLsb
    return .r32 (f.raw / 2)
  else .ok (halfOperand f.raw)

/-! ## ALU destination -/

/-- The fields an ALU destination fills: the 2-bit flag and the raw destination (R148). -/
structure DestFields where
  flag : Nat
  raw : Nat
deriving DecidableEq, Repr

/-- `enc_dst` (R148). -/
def encDst (op : Operand) : Except Field DestFields :=
  match op.kind with
  | .r32 n => do
    check (n < 128) .movDestIndex
    return ⟨2, 2 * n⟩
  | .r16l n => do
    check (n < 32) .movDestIndex
    return ⟨0, 2 * n⟩
  | .r16h n => do
    check (n < 32) .movDestIndex
    return ⟨0, 2 * n + 1⟩
  | _ => .error .movDestKind

/-- `dec_dst` (R149). -/
def decDst (f : DestFields) : Except Field Operand :=
  if f.flag = 2 then do
    check (f.raw % 2 = 0) .movDestLsb
    return .r32 (f.raw / 2)
  else if f.flag = 0 then .ok (halfOperand f.raw)
  else .error .movDestFlag

/-! ## Lane mask -/

/-- The active bit positions `j_0 < j_1 < …` of a lane mask (R153). -/
def lanes (mask : Nat) : List Nat :=
  [0, 1, 2, 3].filter fun j => mask.testBit j

/-- The lanes as pairs of a bit position `j_k` and its rank `k` (R153, D31). -/
def rankedLanes (mask : Nat) : List (Nat × Nat) :=
  (lanes mask).zipIdx

end Sys2Proof
end

