-- ==== Sys2Proof/Machine/Converters.lean ====
section
/-! DEFINITION. The format converters (46_format_converters.md R280–R305): per format, an element of
memory to a register value and back. An element is the little-endian number of its bytes. -/

namespace Sys2Proof

/-! ## The format table (R281) -/

/-- The element size in bytes. -/
def Format.size : Format → Nat
  | .i8 => 1
  | .i16 => 2
  | .i32 => 4
  | .u8norm => 1
  | .s8norm => 1
  | .u16norm => 2
  | .s16norm => 2
  | .srgba8 => 1
  | .rgb10a2 => 4
  | .rg11b10f => 4
  | .rgb9e5 => 4

/-- Packed formats address one element for every lane. -/
def Format.packed : Format → Bool
  | .rgb10a2 => true
  | .rg11b10f => true
  | .rgb9e5 => true
  | _ => false

/-- Lane position `j` names a channel of the format (R304). -/
def Format.hasChannel (F : Format) (j : Nat) : Bool :=
  match F with
  | .rg11b10f => j < 3
  | .rgb9e5 => j < 3
  | _ => true

/-- The format a code names, if any (41_operand_codec.md R151). -/
def formatOfCode (P : Params) (fc : Nat) : Option Format :=
  Format.all.find? fun F => (P.formats.code F).toNat = fc

/-! ## Integer formats -/

/-- `load_Ib` (R283). -/
def loadInt (ext : IntExt) (bits e : Nat) : Word32 :=
  match ext with
  | .sign => BitVec.ofInt 32 (sext bits e)
  | .zero => BitVec.ofNat 32 e

/-- `store_Ib` (R284). -/
def storeInt (bits : Nat) (x : Word32) : Nat :=
  x.toNat % 2 ^ bits

/-! ## Normalized integers -/

/-- A normalized channel: its width, signedness and scale `S` (R285, R289). -/
structure NormKind where
  bits : Nat
  isSigned : Bool
  scale : Nat
deriving DecidableEq, Repr

def u8norm : NormKind := ⟨8, false, 255⟩
def s8norm : NormKind := ⟨8, true, 127⟩
def u16norm : NormKind := ⟨16, false, 65535⟩
def s16norm : NormKind := ⟨16, true, 32767⟩

/-- The least raw value of a channel (R285). -/
def NormKind.lo (n : NormKind) : Int :=
  if n.isSigned then -2 ^ (n.bits - 1) else 0

/-- The greatest raw value of a channel (R285). -/
def NormKind.hi (n : NormKind) : Int :=
  if n.isSigned then 2 ^ (n.bits - 1) - 1 else 2 ^ n.bits - 1

/-- NORM load: `RN32(t / S)` (R286). -/
def loadNorm (n : NormKind) (e : Nat) : Word32 :=
  let t : Int := if n.isSigned then sext n.bits e else e
  roundRat (t < 0) t.natAbs n.scale

/-- `trunc` of a binary32 value already rounded, an infinity going to the end of the raw range it
points at (R287). -/
def truncVal (n : NormKind) : F32 → Int
  | .nan => 0
  | .inf neg => if neg then n.lo else n.hi
  | .fin neg mag => if neg then -((mag / 2 ^ unitBits : Nat) : Int) else (mag / 2 ^ unitBits : Nat)

/-- NORM store: the product rounded to binary32, truncated, clamped (R287). -/
def storeNorm (n : NormKind) (x : Word32) : Nat :=
  let t : Int :=
    match f32Val x with
    | .nan => 0
    | .inf neg => if neg then n.lo else n.hi
    | .fin neg mag => truncVal n (f32Val (roundRat neg (mag * n.scale) (2 ^ unitBits)))
  (max n.lo (min n.hi t) % 2 ^ n.bits).toNat

/-! ## Packed words -/

/-- Bits `lo .. lo+width-1` of a word. -/
def channelBits (w lo width : Nat) : Nat :=
  w / 2 ^ lo % 2 ^ width

/-- A word with those bits replaced and every other bit kept (R291). -/
def setChannel (w lo width f : Nat) : Nat :=
  w / 2 ^ (lo + width) * 2 ^ (lo + width) + f % 2 ^ width * 2 ^ lo + w % 2 ^ lo

/-- The channel of an RGB10A2 word (R289). -/
def rgb10a2Channel (j : Nat) : NormKind :=
  if j = 3 then ⟨2, false, 3⟩ else ⟨10, false, 1023⟩

/-- RGB10A2 load (R290). -/
def loadRgb10a2 (w j : Nat) : Word32 :=
  loadNorm (rgb10a2Channel j) (channelBits w (10 * j) (rgb10a2Channel j).bits)

/-- RGB10A2 store (R291). -/
def storeRgb10a2 (x : Word32) (j old : Nat) : Nat :=
  setChannel old (10 * j) (rgb10a2Channel j).bits (storeNorm (rgb10a2Channel j) x)

/-! ## RG11B10F -/

/-- The mantissa width `M` of a channel (R292). -/
def minifloatMantissa (j : Nat) : Nat :=
  if j = 2 then 5 else 6

/-- The value of a minifloat channel with `M` mantissa bits, as binary32 (R293, R294, K2). -/
def loadMinifloat (M f : Nat) : Word32 :=
  let E := f / 2 ^ M
  let m := f % 2 ^ M
  if E = 31 then (if m = 0 then BitVec.ofNat 32 infPattern else qnan)
  else if E = 0 then roundRat false m (2 ^ (M + 14))
  else roundRat false ((2 ^ M + m) * 2 ^ E) (2 ^ (M + 15))

/-- RG11B10F load (R294, layout R292). -/
def loadRg11b10f (w j : Nat) : Word32 :=
  loadMinifloat (minifloatMantissa j) (channelBits w (11 * j) (minifloatMantissa j + 5))

/-- RG11B10F store: the OPEN `MF_ENC_M(x)` inserted into channel `j` (R295). -/
def storeRg11b10f (x : Word32) (j old : Nat) : Nat :=
  setChannel old (11 * j) (minifloatMantissa j + 5)
    (if j = 2 then (Config.mfEnc5 x).toNat else (Config.mfEnc6 x).toNat)

/-! ## RGB9E5 -/

/-- RGB9E5 load: `RN32(m_j · 2^(E-24))` (R297, layout R296). -/
def loadRgb9e5 (w j : Nat) : Word32 :=
  roundRat false (channelBits w (9 * j) 9 * 2 ^ (channelBits w 27 5)) (2 ^ 24)

/-- The clamp of one channel to `[0, MAXV]`, in units (R298). -/
def clamp9e5 (x : Word32) : Nat :=
  let maxv := 65408 * 2 ^ unitBits
  match f32Val x with
  | .nan => 0
  | .inf neg => if neg then 0 else maxv
  | .fin neg mag => if neg then 0 else min maxv mag

/-- The preliminary exponent `ep` of the greatest channel (R298). -/
def exponent9e5 (maxc : Nat) : Nat :=
  if maxc = 0 then 0 else (max (-16) ((Nat.log2 maxc : Int) - unitBits) + 16).toNat

/-- `floor(c / 2^(E - B - N) + 1/2)` of a magnitude in units (R298). -/
def quantize9e5 (c E : Nat) : Nat :=
  (c + 2 ^ (unitBits - 25 + E)) / 2 ^ (unitBits - 24 + E)

/-- The shared exponent `E`, bumped where the greatest mantissa would be `2^9` (R298). -/
def sharedExponent (maxc : Nat) : Nat :=
  if quantize9e5 maxc (exponent9e5 maxc) = 512 then exponent9e5 maxc + 1 else exponent9e5 maxc

/-- `enc9e5(r, g, b)` (R298). -/
def enc9e5 (r g b : Word32) : Nat :=
  let E := sharedExponent (max (clamp9e5 r) (max (clamp9e5 g) (clamp9e5 b)))
  quantize9e5 (clamp9e5 r) E + quantize9e5 (clamp9e5 g) E * 2 ^ 9 +
    quantize9e5 (clamp9e5 b) E * 2 ^ 18 + E * 2 ^ 27

/-- RGB9E5 store: decode the old word, replace channel `j`, encode all three again (R299). -/
def storeRgb9e5 (x : Word32) (j old : Nat) : Nat :=
  enc9e5 (if j = 0 then x else loadRgb9e5 old 0) (if j = 1 then x else loadRgb9e5 old 1)
    (if j = 2 then x else loadRgb9e5 old 2)

/-! ## SRGBA8 -/

/-- `RN32(to_lin(e / 255))` (R301, R302). Below 0.04045 the value is `e / (255 · 12.92)`; otherwise
`u` units are compared with `q^(12/5)`, `q = (e/255 + 0.055)/1.055`, by fifth powers. -/
def loadSrgb (e : Nat) : Word32 :=
  if e * 100000 < 4045 * 255 then roundRat false (e * 100) (255 * 1292)
  else
    let qn := 1000 * e + 55 * 255
    let qd := 1055 * 255
    signed32 false (roundMag fun u =>
      compare (u ^ 5 * qd ^ 12) (qn ^ 12 * (2 ^ unitBits) ^ 5))

/-- `RN32(to_srgb(x))` of a finite `x` (R301, R303). Below 0.0031308, and so for every negative
value, it is `12.92·x`; otherwise `u` units are compared with `1.055·x^(5/12) - 0.055` by twelfth
powers. -/
def roundSrgb (neg : Bool) (mag : Nat) : Word32 :=
  if neg ∨ mag * 10000000 < 31308 * 2 ^ unitBits then roundRat neg (mag * 323) (25 * 2 ^ unitBits)
  else
    signed32 false (roundMag fun u =>
      compare ((1000 * u + 55 * 2 ^ unitBits) ^ 12 * (2 ^ unitBits) ^ 5)
        (mag ^ 5 * (1055 * 2 ^ unitBits) ^ 12))

/-- SRGBA8 load of channel `j` (R302). -/
def loadSrgba8 (e j : Nat) : Word32 :=
  if j = 3 then loadNorm u8norm e else loadSrgb e

/-- SRGBA8 store of channel `j` (R303). -/
def storeSrgba8 (x : Word32) (j : Nat) : Nat :=
  if j = 3 then storeNorm u8norm x
  else
    match f32Val x with
    | .nan => 0
    | .inf neg => if neg then 0 else 255
    | .fin neg mag => storeNorm u8norm (roundSrgb neg mag)

/-! ## Converters by format -/

/-- `load_F(e, j)` (R280). -/
def loadElement (P : Params) (F : Format) (e j : Nat) : Word32 :=
  match F with
  | .i8 => loadInt P.intLoadExt 8 e
  | .i16 => loadInt P.intLoadExt 16 e
  | .i32 => loadInt P.intLoadExt 32 e
  | .u8norm => loadNorm u8norm e
  | .s8norm => loadNorm s8norm e
  | .u16norm => loadNorm u16norm e
  | .s16norm => loadNorm s16norm e
  | .srgba8 => loadSrgba8 e j
  | .rgb10a2 => loadRgb10a2 e j
  | .rg11b10f => loadRg11b10f e j
  | .rgb9e5 => loadRgb9e5 e j

/-- `store_F(x, j, e_old)` (R280). -/
def storeElement (F : Format) (x : Word32) (j old : Nat) : Nat :=
  match F with
  | .i8 => storeInt 8 x
  | .i16 => storeInt 16 x
  | .i32 => storeInt 32 x
  | .u8norm => storeNorm u8norm x
  | .s8norm => storeNorm s8norm x
  | .u16norm => storeNorm u16norm x
  | .s16norm => storeNorm s16norm x
  | .srgba8 => storeSrgba8 x j
  | .rgb10a2 => storeRgb10a2 x j old
  | .rg11b10f => storeRg11b10f x j old
  | .rgb9e5 => storeRgb9e5 x j old

end Sys2Proof
end

