-- ==== Sys2Proof/Machine/Operands.lean ====
section
/-! DEFINITION. The operand forms of execution: Mov sources and destinations
(47_reference_execution.md R334), offsets, and the shared checks of a transfer (R335). -/

namespace Sys2Proof.Machine

/-! ## Mov operands (R334) -/

/-- The value of a Mov source: an immediate, a register, or a half register zero-extended. -/
def readSource (s : State) (src : Operand) : Except Fault Word32 :=
  match src.kind with
  | .imm v => .ok (BitVec.ofInt 32 v.toInt)
  | .r32 m => readRegister s m
  | .r16l m => do
    let v ← readRegister s m
    return v &&& 0x0000FFFF
  | .r16h m => do
    let v ← readRegister s m
    return v >>> 16
  | .r64 _ => .error .operandKind
  | .u64 _ => .error .operandKind

/-- The old register with its low half replaced by the low half of `v`. -/
def mergeLow (old v : Word32) : Word32 :=
  (old &&& 0xFFFF0000) ||| (v &&& 0x0000FFFF)

/-- The old register with its high half replaced by the low half of `v`. -/
def mergeHigh (old v : Word32) : Word32 :=
  (old &&& 0x0000FFFF) ||| ((v &&& 0x0000FFFF) <<< 16)

/-- The register a Mov destination names, if it names one. -/
def destIndex (dest : Operand) : Option Nat :=
  match dest.kind with
  | .r32 n => some n
  | .r16l n => some n
  | .r16h n => some n
  | _ => none

/-- Write a Mov destination; a half write needs the old value, because it keeps the other half
(R333). -/
def writeDest (s : State) (dest : Operand) (v : Word32) : Except Fault State :=
  match dest.kind with
  | .r32 n => writeRegister s n v
  | .r16l n => do
    let old ← readRegister s n
    return setRegister s n (mergeLow old v)
  | .r16h n => do
    let old ← readRegister s n
    return setRegister s n (mergeHigh old v)
  | .imm _ => .error .operandKind
  | .r64 _ => .error .operandKind
  | .u64 _ => .error .operandKind

/-- `exec(Mov{dest, src}, S)`: read the source, write the destination, `k <- k + 1` (R334). -/
def moveOp (s : State) (dest src : Operand) : Except Fault State := do
  let v ← readSource s src
  let s' ← writeDest s dest v
  return advance s'

/-! ## Transfers (R335) -/

/-- The integer an offset resolves to (R335 step 4). -/
def resolveOffset (s : State) (off : Operand) : Except Fault Int :=
  match off.kind with
  | .imm v => .ok v.toInt
  | .r32 m => do
    let v ← readRegister s m
    return if off.se then v.toInt else v.toNat
  | _ => .error .operandKind

/-- The element index of lane position `j` (R335 step 5, 46 R281). -/
def elementIndex (F : Format) (off : Int) (j : Nat) : Int :=
  if F.packed then off else off + j

/-- An element lies in the data buffer: `0 <= idx` and `(idx + 1)·z <= len(S.mem)` (R335 step 5). -/
def elementInRange (s : State) (F : Format) (idx : Int) : Bool :=
  0 ≤ idx && (idx + 1) * F.size ≤ s.mem.size

/-- The byte address of lane position `j`'s element, `idx·z`. -/
def elementAddress (F : Format) (off : Int) (j : Nat) : Nat :=
  (elementIndex F off j * F.size).toNat

/-- Step 6 for one register: it exists, and for a Store it holds a value. -/
def checkTransferRegister (s : State) (isStore : Bool) (i : Nat) : Except Fault Unit :=
  if isStore then do
    let _ ← readRegister s i
    return ()
  else checkRegister s i

/-- Step 6 for the registers `n .. n+p-1`, in ascending order. -/
def checkTransferRegisters (s : State) (isStore : Bool) : Nat → Nat → Except Fault Unit
  | _, 0 => .ok ()
  | n, p + 1 => do
    checkTransferRegister s isStore n
    checkTransferRegisters s isStore (n + 1) p

/-- What a transfer resolves to: its format, first register and offset. -/
structure Transfer where
  format : Format
  first : Nat
  offset : Int
deriving DecidableEq, Repr

/-- A fault unless the condition holds. -/
def require (ok : Bool) (f : Fault) : Except Fault Unit :=
  if ok then .ok () else .error f

/-- The format of a transfer: a named code (step 1). -/
def transferFormat (s : State) (fc : Nat) : Except Fault Format :=
  match formatOfCode s.params fc with
  | some F => .ok F
  | none => .error .unknownFormat

/-- The first register of a transfer: a 32-bit list (step 3). -/
def transferFirst (reg : Operand) : Except Fault Nat :=
  match reg.kind with
  | .r32 n => .ok n
  | _ => .error .halfList

/-- The six checks of R335 in their order, all before any lane moves. The base is not read (D35). -/
def resolveTransfer (s : State) (isStore : Bool) (fc mask : Nat) (reg off : Operand) :
    Except Fault Transfer := do
  let F ← transferFormat s fc
  require ((lanes mask).all F.hasChannel) .noChannel
  let n ← transferFirst reg
  let o ← resolveOffset s off
  require ((lanes mask).all fun j => elementInRange s F (elementIndex F o j)) .elementRange
  checkTransferRegisters s isStore n (lanes mask).length
  return ⟨F, n, o⟩

/-- The element of lane position `j`, as memory holds it. -/
def readElement (m : Memory) (t : Transfer) (j : Nat) : Nat :=
  memRead m (elementAddress t.format t.offset j) t.format.size

/-- One lane of a Load: `x[n + k] <- load_F(e, j_k)` (R336). -/
def loadLane (t : Transfer) (s : State) (lane : Nat × Nat) : State :=
  setRegister s (t.first + lane.2)
    (loadElement s.params t.format (readElement s.mem t lane.1) lane.1)

/-- One lane of a Store: `MemWrite(idx_k·z, z, store_F(x[n + k], j_k, e_old))` (R337). -/
def storeLane (t : Transfer) (s : State) (lane : Nat × Nat) : State :=
  { s with
    mem := memWrite s.mem (elementAddress t.format t.offset lane.1) t.format.size
      (storeElement t.format (regValue s (t.first + lane.2)) lane.1
        (readElement s.mem t lane.1)) }

/-- The lanes of a Load in ascending order (R336). -/
def loadLanes (t : Transfer) (ls : List (Nat × Nat)) (s : State) : State :=
  ls.foldl (loadLane t) s

/-- The lanes of a Store in ascending order (R337). -/
def storeLanes (t : Transfer) (ls : List (Nat × Nat)) (s : State) : State :=
  ls.foldl (storeLane t) s

/-- `exec(Load{…}, S)` (R336). -/
def loadOp (s : State) (fc mask : Nat) (reg off : Operand) : Except Fault State := do
  let t ← resolveTransfer s false fc mask reg off
  return advance (loadLanes t (rankedLanes mask) s)

/-- `exec(Store{…}, S)` (R337). -/
def storeOp (s : State) (fc mask : Nat) (reg off : Operand) : Except Fault State := do
  let t ← resolveTransfer s true fc mask reg off
  return advance (storeLanes t (rankedLanes mask) s)

end Sys2Proof.Machine
end

