-- ==== Sys2Proof/Machine/LoadStore.lean ====
section
/-! DEFINITION. Load and Store (47_reference_execution.md R335–R337). -/

namespace Sys2Proof.Machine

/-- `device_load` (R336). The memory base is not read (R335, D35). -/
def execDeviceLoad (fc mask : Nat) (reg _base off : Operand) (s : State) :
    Host.Outcome State Fault Refusal :=
  toOutcome (loadOp s fc mask reg off)

/-- `device_store` (R337). The memory base is not read (R335, D35). -/
def execDeviceStore (fc mask : Nat) (reg _base off : Operand) (s : State) :
    Host.Outcome State Fault Refusal :=
  toOutcome (storeOp s fc mask reg off)

end Sys2Proof.Machine
end

