-- ==== Sys2Proof/Machine/Move.lean ====
section
/-! DEFINITION. Mov in its three forms (47_reference_execution.md R334; 43_move.md R216–R218). -/

namespace Sys2Proof.Machine

/-- `mov`, half-register destination: the other half of the register is kept (R334). -/
def execMovHalf (dest src : Operand) (s : State) : Host.Outcome State Fault Refusal :=
  toOutcome (moveOp s dest src)

/-- `mov`, 32-bit destination, short form (R334). -/
def execMovShort (dest src : Operand) (s : State) : Host.Outcome State Fault Refusal :=
  toOutcome (moveOp s dest src)

/-- `mov`, 32-bit destination, long form (R334). -/
def execMovLong (dest src : Operand) (s : State) : Host.Outcome State Fault Refusal :=
  toOutcome (moveOp s dest src)

end Sys2Proof.Machine
end

