-- ==== Sys2Proof/Machine/Dispatch.lean ====
section
/-! DEFINITION. One arm per instruction: each calls its meaning. -/

namespace Sys2Proof.Machine

/-- `exec(L[S.k], S)` (47_reference_execution.md R332). -/
def exec (i : Instr) (s : State) : Host.Outcome State Fault Refusal :=
  match i with
  | .deviceLoad fc mask reg base off => Sys2Proof.Machine.execDeviceLoad fc mask reg base off s
  | .deviceStore fc mask reg base off => Sys2Proof.Machine.execDeviceStore fc mask reg base off s
  | .movHalf dest src => Sys2Proof.Machine.execMovHalf dest src s
  | .movShort dest src => Sys2Proof.Machine.execMovShort dest src s
  | .movLong dest src => Sys2Proof.Machine.execMovLong dest src s
  | .ret reg => Sys2Proof.Machine.execRet reg s
  | .stop => Sys2Proof.Machine.execStop s
  | .wait => Sys2Proof.Machine.execWait s

end Sys2Proof.Machine
end

