-- ==== Sys2Proof/Machine/Accessor.lean ====
section
/-! DEFINITION. The bit-field accessor (40_bitfield_accessor.md R130–R137) over little-endian byte
buffers (00_scope.md R12, 20_memory.md R62). -/

namespace Sys2Proof

/-- The number a buffer spells, byte 0 least significant: its bit `i` is bit `i mod 8` of byte
`i div 8`, and 0 past the end (R12, R132). -/
def leNat : Buffer → Nat
  | [] => 0
  | b :: rest => b.toNat + 256 * leNat rest

/-- The low `n` bytes of a number, least significant first. -/
def toBytes : Nat → Nat → Buffer
  | 0, _ => []
  | n + 1, v => BitVec.ofNat 8 v :: toBytes n (v / 256)

/-- `zeros(n)` (00 R15). -/
def zeros (n : Nat) : Buffer :=
  List.replicate n 0

/-- Bit `i` of a buffer, as R131 writes it: 0 at or beyond `8·len(B)`. -/
def bitAt (B : Buffer) (i : Nat) : Bool :=
  (B.getD (i / 8) 0).getLsbD (i % 8)

/-- The value of bits `s..e`, bit `s` least significant (R131); the precondition of R130 is checked
by `getBits`. -/
def readBits (B : Buffer) (s e : Nat) : Nat :=
  leNat B / 2 ^ s % 2 ^ (e + 1 - s)

/-- The precondition of every accessor call (R130): both limits hold together (D3). -/
def accessorOk (s e : Nat) : Bool :=
  s ≤ e && e - s + 1 ≤ 57 && e / 8 - s / 8 + 1 ≤ 7

/-- `get_bits(B, s, e)` (R130, R131). -/
def getBits (B : Buffer) (s e : Nat) : Except Assertion Nat :=
  if accessorOk s e then .ok (readBits B s e) else .error .accessorRange

/-- The bits of `v` ORed into the buffer from bit `s` on; nothing is cleared (R133). -/
def orBits (B : Buffer) (s v : Nat) : Buffer :=
  toBytes B.length (leNat B ||| v * 2 ^ s)

/-- `set_bits(B, s, e, v)` (R130, R133); a range with an end outside the buffer changes nothing
(R134). -/
def setBits (B : Buffer) (s e v : Nat) : Except Assertion Buffer :=
  if !accessorOk s e then .error .accessorRange
  else if 2 ^ (e - s + 1) ≤ v then .error .valueTooWide
  else if B.length ≤ s / 8 || B.length ≤ e / 8 then .ok B
  else .ok (orBits B s v)

/-- One field a packer writes: `set_bits(O, lo, hi, value)`. -/
structure FieldWrite where
  lo : Nat
  hi : Nat
  value : Nat
deriving DecidableEq, Repr

/-- The writes of a packer, in order, into its buffer. -/
def writeFields : List FieldWrite → Buffer → Except Assertion Buffer
  | [], B => .ok B
  | w :: ws, B =>
    match setBits B w.lo w.hi w.value with
    | .ok B' => writeFields ws B'
    | .error a => .error a

end Sys2Proof
end

