-- ==== Sys2Proof/Decode.lean ====
section
/-! DEFINITION. The unpackers and the stream disassembler (42_load_store.md, 43_move.md,
44_ret_stop_wait.md, 45_stream_codec.md), total on any bytes; then the packers, the encoder and the
stream assembler, from the same layouts (30_encoding.md R85–R91). Every function takes the
configuration as an argument (10_state.md R40). -/

namespace Sys2Proof

/-! ## Dispatch and length -/

/-- The key of a Mov word (00_scope.md R10). -/
def movKey : Nat := 0x62

/-- The fixed word of Stop (00 R10). -/
def stopWord : Nat := 0x0088

/-- The rows of the key table (30 R83). -/
inductive WordKind where
  | load | store | mov | ret | stop | wait
deriving DecidableEq, Repr

/-- The key table (R83). The keys are pairwise distinct (R84), so the order of the tests does not
matter; Mov and Stop, whose keys are fixed, come first. Log 16. -/
def wordKind (P : Params) (key : Nat) : Option WordKind :=
  if key = movKey then some .mov
  else if key = stopWord % 128 then some .stop
  else if key = P.opcLoad.toNat then some .load
  else if key = P.opcStore.toNat then some .store
  else if key = P.opcRet.toNat then some .ret
  else if key = P.waitWord.toNat % 128 then some .wait
  else none

/-- The length of the word whose first bytes are `H`, from its first 16 bits (R103); `c` is its
byte offset. -/
def wordLength (P : Params) (H : Buffer) (c : Nat) : Except Err Nat :=
  let flag := readBits H 7 8
  let long := readBits H 15 15
  match wordKind P (readBits H 0 6) with
  | some .load => .ok 8
  | some .store => .ok 8
  | some .mov =>
    if flag = 1 ∨ flag = 3 then .error (.fieldConstraint .movDestFlag (.offset c))
    else if flag = 0 ∧ long = 1 then .error (.fieldConstraint .movLongHalf (.offset c))
    else .ok (if flag = 0 then 4 else 6 + 2 * long)
  | some .ret => .ok 2
  | some .stop => .ok 2
  | some .wait => .ok 2
  | none => .error (.unknownOpcode (readBits H 0 6) c)

/-! ## Unpackers -/

/-- The fixed bits of a Load or Store word, in the order of 42 R181: fillers 26, 28–31, 44–46 and
50–51, the long flag, bits 60–63 and the lane mask. -/
def checkTransferBits (W : Buffer) : Except Field Unit := do
  check (readBits W 26 26 = 1) .lsFiller26
  check (readBits W 28 31 = 0) .lsFiller28_31
  check (readBits W 44 46 = 4) .lsFiller44_46
  check (readBits W 50 51 = 0) .lsFiller50_51
  check (readBits W 47 47 = 1) .lsLong
  check (readBits W 60 63 = 0) .offsetHigh
  check (readBits W 52 55 ≠ 0) .laneMask

/-- The register-list fields of a Load or Store word (30 R92). -/
def regFieldsOf (W : Buffer) : RegFields :=
  ⟨readBits W 49 49, readBits W 10 15 + 64 * readBits W 40 41⟩

/-- The base fields of a Load or Store word (30 R92). -/
def baseFieldsOf (W : Buffer) : BaseFields :=
  ⟨readBits W 27 27, readBits W 16 19 + 16 * readBits W 36 39⟩

/-- The offset fields of a Load or Store word (30 R92). -/
def offsetFieldsOf (W : Buffer) : OffsetFields :=
  ⟨readBits W 24 24, readBits W 25 25, readBits W 42 43,
    readBits W 20 23 + 16 * readBits W 32 35 + 256 * readBits W 56 59⟩

/-- The format code of a Load or Store word (30 R92). -/
def formatCodeOf (W : Buffer) : Nat :=
  readBits W 7 9 + 8 * readBits W 48 48

/-- `unpack_ls` (42 R184), `make` being the constructor its key selects. -/
def unpackTransfer (make : Nat → Nat → Operand → Operand → Operand → Instr) (W : Buffer) :
    Except Field Instr := do
  checkTransferBits W
  let reg ← decReg (regFieldsOf W)
  let base ← decBase (baseFieldsOf W)
  let off ← decOff (offsetFieldsOf W)
  return make (formatCodeOf W) (readBits W 52 55) reg base off

/-- `unpack_mov` (43 R213): the three forms of R211. -/
def unpackMov (W : Buffer) : Except Field Instr :=
  if readBits W 7 8 = 0 then do
    let dest ← decDst ⟨0, readBits W 9 14⟩
    return .movHalf dest (.imm (BitVec.ofNat 64 (readBits W 16 31)))
  else if readBits W 15 15 = 0 then do
    check (readBits W 32 43 = 0) .movUnused
    check (readBits W 46 47 = 0) .movUnused
    let dest ← decDst ⟨2, readBits W 9 14 + 64 * readBits W 44 45⟩
    return .movShort dest (.imm (BitVec.ofNat 64 (readBits W 16 31)))
  else do
    check (readBits W 48 59 = 0) .movUnused
    check (readBits W 62 63 = 0) .movUnused
    let dest ← decDst ⟨2, readBits W 9 14 + 64 * readBits W 60 61⟩
    return .movLong dest (.imm (BitVec.ofNat 64 (readBits W 16 47)))

/-- `unpack_ret` (44 R241). -/
def unpackRet (W : Buffer) : Except Field Instr := do
  check (readBits W 7 8 = 0) .retReserved
  return .ret (.r32 (readBits W 9 15))

/-- `unpack_stop` (44 R243). -/
def unpackStop (W : Buffer) : Except Field Instr := do
  check (readBits W 0 15 = stopWord) .stopWord
  return .stop

/-- `unpack_wait` (44 R245). -/
def unpackWait (P : Params) (W : Buffer) : Except Field Instr := do
  check (readBits W 0 15 = P.waitWord.toNat) .waitWord
  return .wait

/-- The unpacker of a kind (45 R261 step 4). -/
def unpackKind (P : Params) (W : Buffer) : WordKind → Except Field Instr
  | .load => unpackTransfer .deviceLoad W
  | .store => unpackTransfer .deviceStore W
  | .mov => unpackMov W
  | .ret => unpackRet W
  | .stop => unpackStop W
  | .wait => unpackWait P W

/-- A decoded instruction with its original byte span (10 R43). -/
structure Decoded where
  instr : Instr
  span : Buffer
deriving DecidableEq, Repr

/-- `unpack_at(B, c)`: one decode step, its checks in the numbered order (45 R261). -/
def unpackAt (P : Params) (B : Buffer) (c : Nat) : Except Err (Decoded × Nat) :=
  let rest := B.drop c
  if rest.length < 2 then .error (.bufferBounds c none)
  else
    match wordLength P (rest.take 2) c with
    | .error e => .error e
    | .ok n =>
      if rest.length < n then .error (.bufferBounds c (some n))
      else
        let W := rest.take n
        match wordKind P (readBits W 0 6) with
        | none => .error (.unknownOpcode (readBits W 0 6) c)
        | some kind =>
          match atPlace (.offset c) (unpackKind P W kind) with
          | .error e => .error e
          | .ok i => .ok (⟨i, W⟩, n)

/-! ## Stream disassembler -/

/-- The decode loop of `disassemble` from cursor `c` on (45 R262, 10 R33, R34). `fuel` bounds the
number of words; every word advances the cursor, so the buffer's length is enough. -/
def disassembleFrom (P : Params) (B : Buffer) : Nat → Nat → Except Err (List (Nat × Decoded))
  | 0, _ => .ok []
  | fuel + 1, c =>
    if B.length ≤ c then .ok []
    else
      match unpackAt P B c with
      | .error e => .error e
      | .ok (d, n) =>
        match disassembleFrom P B fuel (c + n) with
        | .error e => .error e
        | .ok out => .ok ((c, d) :: out)

/-- `disassemble(B)`: every instruction with its byte offset, or the first error alone (45 R262). -/
def disassemble (P : Params) (B : Buffer) : Except Err (List (Nat × Decoded)) :=
  disassembleFrom P B B.length 0

/-! ## Packers -/

/-- A packer's fresh zero buffer with its fields written in (10 R31). -/
def packFields (len : Nat) (ws : List FieldWrite) : Except Err Buffer :=
  match writeFields ws (zeros len) with
  | .ok O => .ok O
  | .error a => .error (.internalAssertion a)

/-- The field writes of `pack_ls`, in its order (42 R182, layout 30 R85). -/
def transferWrites (key fc mask : Nat) (r : RegFields) (b : BaseFields) (o : OffsetFields) :
    List FieldWrite :=
  [⟨0, 6, key⟩, ⟨7, 9, fc % 8⟩, ⟨48, 48, fc / 8⟩,
    ⟨10, 15, r.raw % 64⟩, ⟨40, 41, r.raw / 64⟩, ⟨49, 49, r.is32⟩,
    ⟨16, 19, b.raw % 16⟩, ⟨36, 39, b.raw / 16⟩, ⟨27, 27, b.uni⟩,
    ⟨20, 23, o.raw % 16⟩, ⟨32, 35, o.raw / 16 % 16⟩, ⟨56, 63, o.raw / 256⟩,
    ⟨24, 24, o.isImm⟩, ⟨25, 25, o.sebit⟩, ⟨42, 43, o.shift⟩,
    ⟨26, 26, 1⟩, ⟨44, 46, 4⟩, ⟨47, 47, 1⟩, ⟨52, 55, mask⟩]

/-- The packer's self-check of its layout's constants (60_exceptions.md R366). -/
def transferSelfCheck (O : Buffer) : Except Err Buffer :=
  match checkTransferBits O with
  | .ok _ => .ok O
  | .error _ => .error (.internalAssertion .packerSelfCheck)

/-- `pack_ls` (42 R182): the checks in its order, then the word. -/
def packTransfer (key fc mask : Nat) (reg base off : Operand) : Except Err Buffer :=
  match (do
      check (fc ≤ 15) .format
      check (1 ≤ mask ∧ mask ≤ 15) .laneMask
      let r ← encReg reg
      let b ← encBase base
      let o ← encOff off
      return (r, b, o) : Except Field (RegFields × BaseFields × OffsetFields)) with
  | .error f => .error (.fieldConstraint f .word)
  | .ok (r, b, o) =>
    match packFields 8 (transferWrites key fc mask r b o) with
    | .error e => .error e
    | .ok O => transferSelfCheck O

/-- The three binary forms of Mov, by destination flag and long flag (43 R211). -/
inductive MovForm where
  | half | short | long
deriving DecidableEq, Repr

/-- The field writes of a Mov word of a form (43 R212, layouts 30 R86–R88). -/
def movWrites (form : MovForm) (d : DestFields) (v : Nat) : List FieldWrite :=
  let long := if form = .long then 1 else 0
  [⟨0, 6, movKey⟩, ⟨7, 8, d.flag⟩, ⟨9, 14, d.raw % 64⟩, ⟨15, 15, long⟩] ++
    match form with
    | .half => [⟨16, 31, v⟩]
    | .short => [⟨16, 31, v⟩, ⟨44, 45, d.raw / 64⟩]
    | .long => [⟨16, 47, v⟩, ⟨60, 61, d.raw / 64⟩]

/-- The length of a Mov form (30 R81). -/
def MovForm.length : MovForm → Nat
  | .half => 4
  | .short => 6
  | .long => 8

/-- The immediate of a Mov source below `bound` (43 R212, D21). -/
def encMovImm (src : Operand) (bound : Nat) : Except Field Nat :=
  match src.kind with
  | .imm v => do
    check (0 ≤ v.toInt ∧ v.toInt < bound) .movImm
    return v.toInt.toNat
  | _ => .error .movSourceKind

/-- The destination, the immediate and the form `pack_mov` chooses: half for a half-register
destination, else long exactly when the immediate is `2^16` or more (43 R212, R214). -/
def movFields (dest src : Operand) : Except Field (MovForm × DestFields × Nat) := do
  let d ← encDst dest
  let v ← encMovImm src (if d.flag = 2 then 2 ^ 32 else 2 ^ 16)
  return (if d.flag ≠ 2 then .half else if 2 ^ 16 ≤ v then .long else .short, d, v)

/-- The word of a Mov in a form. -/
def movWord : Except Field (MovForm × DestFields × Nat) → Except Err Buffer
  | .error f => .error (.fieldConstraint f .word)
  | .ok (form, d, v) => packFields form.length (movWrites form d v)

/-- `pack_mov` (43 R212). -/
def packMov (dest src : Operand) : Except Err Buffer :=
  movWord (movFields dest src)

/-- A Mov in a form of one's own choosing, as the decoder reads it: the destination must have the
form's flag and the immediate must fit the form's field (layouts 30 R86–R88). -/
def formFields (form : MovForm) (dest src : Operand) :
    Except Field (MovForm × DestFields × Nat) := do
  let d ← encDst dest
  check (if form = .half then d.flag = 0 else d.flag = 2) .movDestKind
  let v ← encMovImm src (if form = .long then 2 ^ 32 else 2 ^ 16)
  return (form, d, v)

/-- `pack_ret` (44 R241). -/
def packRet (P : Params) (reg : Operand) : Except Err Buffer :=
  match reg.kind with
  | .r32 n =>
    if n < 128 then packFields 2 [⟨0, 6, P.opcRet.toNat⟩, ⟨9, 15, n⟩]
    else .error (.fieldConstraint .retReg .word)
  | _ => .error (.fieldConstraint .retReg .word)

/-- `pack_stop` (44 R243). -/
def packStop : Except Err Buffer :=
  packFields 2 [⟨0, 15, stopWord⟩]

/-- `pack_wait` (44 R245). -/
def packWait (P : Params) : Except Err Buffer :=
  packFields 2 [⟨0, 15, P.waitWord.toNat⟩]

/-- `pack(i)` (45 R260, R263): the packer of the instruction's type. A Mov packs in the form its
fields choose, whatever form it was decoded from. -/
def pack (P : Params) : Instr → Except Err Buffer
  | .deviceLoad fc mask reg base off => packTransfer P.opcLoad.toNat fc mask reg base off
  | .deviceStore fc mask reg base off => packTransfer P.opcStore.toNat fc mask reg base off
  | .movHalf dest src => packMov dest src
  | .movShort dest src => packMov dest src
  | .movLong dest src => packMov dest src
  | .ret reg => packRet P reg
  | .stop => packStop
  | .wait => packWait P

/-- The word of an instruction in its own form. It differs from `pack` only on a Mov: a long Mov
stays long whatever its immediate (30 R101). -/
def encode (P : Params) : Instr → Except Err Buffer
  | .deviceLoad fc mask reg base off => packTransfer P.opcLoad.toNat fc mask reg base off
  | .deviceStore fc mask reg base off => packTransfer P.opcStore.toNat fc mask reg base off
  | .movHalf dest src => movWord (formFields .half dest src)
  | .movShort dest src => movWord (formFields .short dest src)
  | .movLong dest src => movWord (formFields .long dest src)
  | .ret reg => packRet P reg
  | .stop => packStop
  | .wait => packWait P

/-- The length of an instruction in its own form (30 R81). -/
def Instr.length : Instr → Nat
  | .deviceLoad _ _ _ _ _ => 8
  | .deviceStore _ _ _ _ _ => 8
  | .movHalf _ _ => 4
  | .movShort _ _ => 6
  | .movLong _ _ => 8
  | .ret _ => 2
  | .stop => 2
  | .wait => 2

/-! ## Canonical words -/

/-- The instruction of `Mov{dest, source}` in the form the packer chooses (43 R214): the structured
instruction has no form of its own. -/
def canonicalMov (dest src : Operand) : Instr :=
  match dest.kind, src.kind with
  | .r16l _, _ => .movHalf dest src
  | .r16h _, _ => .movHalf dest src
  | _, .imm v => if 2 ^ 16 ≤ v.toInt then .movLong dest src else .movShort dest src
  | _, _ => .movShort dest src

/-- The canonical twin of an instruction: the same structured fields, a Mov in the packer's form
(30 R101). -/
def Instr.canonical : Instr → Instr
  | .movHalf dest src => canonicalMov dest src
  | .movShort dest src => canonicalMov dest src
  | .movLong dest src => canonicalMov dest src
  | i => i

/-- Whether a word the unpacker accepted as `d.instr` is canonical (30 R100): an immediate offset
has the shift and raw value `compress` gives, and a Mov is long exactly when its immediate is
`2^16` or more. -/
def Decoded.canonical (d : Decoded) : Bool :=
  match d.instr with
  | .deviceLoad _ _ _ _ ⟨.imm v, _⟩ =>
    compress v.toInt = .ok ((offsetFieldsOf d.span).shift, (offsetFieldsOf d.span).raw)
  | .deviceStore _ _ _ _ ⟨.imm v, _⟩ =>
    compress v.toInt = .ok ((offsetFieldsOf d.span).shift, (offsetFieldsOf d.span).raw)
  | i => i.canonical = i

/-! ## Stream assembler -/

/-- The encode loop of `assemble` from item `k` on (45 R263, 10 R35). -/
def assembleFrom (P : Params) : Nat → List Instr → Except Err Buffer
  | _, [] => .ok []
  | k, i :: rest =>
    match pack P i with
    | .error e => .error (e.atItem k)
    | .ok O =>
      match assembleFrom P (k + 1) rest with
      | .error e => .error e
      | .ok out => .ok (O ++ out)

/-- `assemble(L)` (45 R263). -/
def assemble (P : Params) (L : List Instr) : Except Err Buffer :=
  assembleFrom P 0 L

/-! ## Words of the opcode table -/

/-- The bytes of a table word of `nbits` bits: its bits in order, zeros above them, cut to the
length its first 16 bits give. -/
def tableBytes (P : Params) (nbits w : Nat) : Buffer :=
  let bytes := toBytes 8 (w % 2 ^ nbits)
  match wordLength P bytes 0 with
  | .ok n => bytes.take n
  | .error _ => bytes

/-- The instruction the decoder reads from a table word, under the machine's configuration. -/
def decodeTableWord (nbits w : Nat) : Option Instr :=
  match unpackAt Config.params.val (tableBytes Config.params.val nbits w) 0 with
  | .ok (d, _) => some d.instr
  | .error _ => none

end Sys2Proof
end

