-- ==== Sys2Proof/Machine/Fetch.lean ====
section
/-! DEFINITION. Fetching: the instruction list of the program, the entry check and the instruction
at the cursor (47_reference_execution.md R330–R332). Log 7, 9, 10. -/

namespace Sys2Proof.Machine

/-- The instruction list `L` of the program: for a byte buffer, what the whole-buffer decode gives
(45_stream_codec.md R262), so that a buffer with an undecodable word runs nothing. -/
def programList (s : State) : Except Fault (List Instr) :=
  match s.program with
  | .list L => .ok L
  | .code B =>
    match disassemble s.params B with
    | .ok out => .ok (out.map fun e => e.2.instr)
    | .error e => .error (.decode e)

/-- The entry check: before the first instruction `x[0]` must be 0 (R331). There are no branches, so
`k = 0` only before the first instruction. -/
def entryOk (s : State) : Bool :=
  s.k ≠ 0 || s.x[0]? = some (some 0)

/-- The instruction the next step runs: the program's list, the entry check, then `L[k]`
(R331, R332). -/
def fetch (s : State) : Except Fault Instr :=
  match programList s with
  | .error f => .error f
  | .ok L =>
    if entryOk s then
      match L[s.k]? with
      | some i => .ok i
      | none => .error .endOfProgram
    else .error .zeroRegister

/-- A fresh call on a program: `k = 0`, `halted = false` and `x[0] = 0` (R46, R331, R332). -/
def startProgram (s : State) (p : Program) : State :=
  { s with program := p, x := s.x.set 0 (some 0), k := 0, halted := false }

end Sys2Proof.Machine
end

