-- ==== Sys2Proof/Machine/Step.lean ====
section
/-! DEFINITION. One step of the reference execution (47_reference_execution.md R332). -/

namespace Sys2Proof.Machine

/-- The step loop's body (R332): a halted machine stays as it is (log 9); otherwise the fetched
instruction runs. -/
def step (s : State) : Host.Outcome State Fault Refusal :=
  if s.halted then .next s
  else
    match fetch s with
    | .error f => .fault f
    | .ok i => exec i s

/-- A fresh call whose program is the one word `w` of the opcode table. Log 7. -/
def State.withFetchWord (s : State) (nbits w : Nat) : State :=
  startProgram s (.code (tableBytes s.params nbits w))

end Sys2Proof.Machine
end

