-- ==== Sys2Proof/Machine/Text.lean ====
section
/-! DEFINITION. The text front end, outside the block: the parser, the printer and the annotated
listing (30_encoding.md R105–R118, 45_stream_codec.md R268, R269). A text is a list of characters.
Corner cases the spec leaves open: logs 19 and 23. -/

namespace Sys2Proof.Text

/-! ## Lines and tokens -/

/-- The pieces between the separating characters, empty ones kept. -/
def splitChars (sep : Char → Bool) : List Char → List (List Char)
  | [] => [[]]
  | c :: cs =>
    if sep c then [] :: splitChars sep cs
    else
      match splitChars sep cs with
      | [] => [[c]]
      | w :: ws => (c :: w) :: ws

/-- The instruction lines: split at every `;` and newline (R105). -/
def splitLines (t : List Char) : List (List Char) :=
  splitChars (fun c => c = ';' || c = '\n') t

/-- A line of spaces and tabs only, which is skipped (R105). -/
def isBlank (l : List Char) : Bool :=
  l.all fun c => c = ' ' || c = '\t'

/-- The tokens of a line: split at every run of commas, spaces and tabs (R106). -/
def tokens (l : List Char) : List (List Char) :=
  (splitChars (fun c => c = ',' || c = ' ' || c = '\t') l).filter (fun w => !w.isEmpty)

/-! ## Numbers -/

/-- A decimal digit. -/
def isDigit (c : Char) : Bool :=
  48 ≤ c.toNat && c.toNat ≤ 57

/-- The number a nonempty string of decimal digits spells. -/
def decimal (ds : List Char) : Option Nat :=
  if ds ≠ [] ∧ ds.all isDigit then some (ds.foldl (fun v c => 10 * v + (c.toNat - 48)) 0) else none

/-- The value of a hex digit of either case. -/
def hexDigit (c : Char) : Option Nat :=
  if isDigit c then some (c.toNat - 48)
  else if 97 ≤ c.toNat ∧ c.toNat ≤ 102 then some (c.toNat - 87)
  else if 65 ≤ c.toNat ∧ c.toNat ≤ 70 then some (c.toNat - 55)
  else none

/-- The number a nonempty string of hex digits spells. -/
def hexadecimal (ds : List Char) : Option Nat :=
  if ds = [] then none
  else ds.foldl (fun v c => do return 16 * (← v) + (← hexDigit c)) (some 0)

/-! ## Operand tokens -/

/-- Why a token is refused: it is no operand, or it breaks a field's constraint. -/
inductive TokenError where
  | malformed
  | field (f : Field)
deriving DecidableEq, Repr

/-- A register or uniform index: decimal digits, below `2^31` (R108). -/
def index (ds : List Char) : Except TokenError Nat :=
  match decimal ds with
  | some n => if n < 2 ^ 31 then .ok n else .error .malformed
  | none => .error .malformed

/-- The rest of an index after its leading digits. -/
def afterIndex (cs : List Char) : List Char :=
  cs.dropWhile isDigit

/-- The index at the start of a string. -/
def leadingIndex (cs : List Char) : Except TokenError Nat :=
  index (cs.takeWhile isDigit)

/-- The second half of a pair must be the first plus one (R108, R113). -/
def pairIndex (n : Nat) (ds : List Char) : Except TokenError Nat := do
  let m ← index ds
  if m = n + 1 then return n else .error (.field .textPair)

/-- An immediate in the signed 64-bit range (R108). -/
def immediate (neg : Bool) (ds : List Char) : Except TokenError Operand :=
  match decimal ds with
  | none => .error .malformed
  | some n =>
    let v : Int := if neg then -(n : Int) else n
    if -2 ^ 63 ≤ v ∧ v < 2 ^ 63 then .ok (.imm (BitVec.ofInt 64 v)) else .error .malformed

/-- An operand token (R108), with `se = false`. -/
def operandToken : List Char → Except TokenError Operand
  | 'r' :: cs => do
    let n ← leadingIndex cs
    match afterIndex cs with
    | [] => return .r32 n
    | ['l'] => return .r16l n
    | ['h'] => return .r16h n
    | '_' :: 'r' :: ds => return .r64 (← pairIndex n ds)
    | _ => .error .malformed
  | 'u' :: cs => do
    let n ← leadingIndex cs
    match afterIndex cs with
    | '_' :: 'u' :: ds => return .u64 (← pairIndex n ds)
    | _ => .error .malformed
  | '-' :: ds => immediate true ds
  | ds => immediate false ds

/-! ## Register lists -/

/-- The `k`-th register after `first`: the index plus `k`, or the half-register number plus `k`
(R110, R114). -/
def registerAfter (first : Operand) (k : Nat) : Operand :=
  match first.kind with
  | .r32 n => .r32 (n + k)
  | .r16l n => halfOperand (2 * n + k)
  | .r16h n => halfOperand (2 * n + 1 + k)
  | _ => first

/-- The `p` consecutive registers from `first` on. -/
def registerRun (first : Operand) (p : Nat) : List Operand :=
  (List.range p).map (registerAfter first)

/-- Whether an operand can stand in a register list. -/
def isListRegister (op : Operand) : Bool :=
  match op.kind with
  | .r32 _ => true
  | .r16l _ => true
  | .r16h _ => true
  | _ => false

/-- A register-list token for a mask: its first register (R110, D49). -/
def registerListToken (mask : Nat) (t : List Char) : Except TokenError Operand := do
  let ops ← (splitChars (fun c => c = '_') t).mapM operandToken
  match ops with
  | [] => .error .malformed
  | first :: _ =>
    if isListRegister first ∧ ops = registerRun first (lanes mask).length then return first
    else .error (.field .textReglist)

/-! ## The other tokens of a transfer -/

/-- The text spelling of a format name (R112). -/
def formatName : Format → List Char
  | .i8 => ['i', '8']
  | .i16 => ['i', '1', '6']
  | .i32 => ['i', '3', '2']
  | .u8norm => ['u', '8', 'n', 'o', 'r', 'm']
  | .s8norm => ['s', '8', 'n', 'o', 'r', 'm']
  | .u16norm => ['u', '1', '6', 'n', 'o', 'r', 'm']
  | .s16norm => ['s', '1', '6', 'n', 'o', 'r', 'm']
  | .rgb10a2 => ['r', 'g', 'b', '1', '0', 'a', '2']
  | .srgba8 => ['s', 'r', 'g', 'b', 'a', '8']
  | .rg11b10f => ['r', 'g', '1', '1', 'b', '1', '0', 'f']
  | .rgb9e5 => ['r', 'g', 'b', '9', 'e', '5']

/-- The spelling `fmt<d>` of a code (R112). -/
def codeName (fc : Nat) : List Char :=
  ['f', 'm', 't'] ++ Nat.toDigits 10 fc

/-- The code of a format token: a name, or `fmt<d>` with `d` from 0 to 15 (R110, R112). -/
def formatToken (P : Params) (t : List Char) : Option Nat :=
  match Format.all.find? fun F => formatName F = t with
  | some F => some (P.formats.code F).toNat
  | none => (List.range 16).find? fun fc => codeName fc = t

/-- The lane mask of a mask token: `0x` or `0X` and hex digits, in `[1, 15]` (R110). -/
def maskToken : List Char → Except TokenError Nat
  | '0' :: x :: ds =>
    if x = 'x' ∨ x = 'X' then
      match hexadecimal ds with
      | none => .error .malformed
      | some m => if 1 ≤ m ∧ m ≤ 15 then .ok m else .error (.field .textMask)
    else .error .malformed
  | _ => .error .malformed

/-- The offset's sign-extend flag (R110). -/
def signednessToken (t : List Char) : Except TokenError Bool :=
  if t = ['s', 'i', 'g', 'n', 'e', 'd'] then .ok true
  else if t = ['u', 'n', 's', 'i', 'g', 'n', 'e', 'd'] then .ok false
  else .error .malformed

/-! ## Parser -/

def movName : List Char := ['m', 'o', 'v']
def loadName : List Char := ['d', 'e', 'v', 'i', 'c', 'e', '_', 'l', 'o', 'a', 'd']
def storeName : List Char := ['d', 'e', 'v', 'i', 'c', 'e', '_', 's', 't', 'o', 'r', 'e']
def stopName : List Char := ['s', 't', 'o', 'p']
def waitName : List Char := ['w', 'a', 'i', 't']
def retName : List Char := ['r', 'e', 't']

/-- A token's result, with the line and the token as its context (60_exceptions.md R364). -/
def onToken {α : Type} (line : Nat) (token : List Char) : Except TokenError α → Except Err α
  | .ok a => .ok a
  | .error .malformed => .error (.malformedOperand line token)
  | .error (.field f) => .error (.fieldConstraint f (.line line token))

/-- The six operand tokens of `device_load` and `device_store`, from the left (R110). A wrong token
count is tested before any of them and records the mnemonic: the model's choice, log 23. -/
def parseTransfer (P : Params) (make : Nat → Nat → Operand → Operand → Operand → Instr)
    (line : Nat) (mnemonic : List Char) : List (List Char) → Except Err Instr
  | [f, m, r, b, o, s] =>
    match formatToken P f with
    | none => .error (.unknownFormatName line f)
    | some fc => do
      let mask ← onToken line m (maskToken m)
      let reg ← onToken line r (registerListToken mask r)
      let base ← onToken line b (operandToken b)
      let off ← onToken line o (operandToken o)
      let se ← onToken line s (signednessToken s)
      return make fc mask reg base ⟨off.kind, se⟩
  | _ => .error (.malformedOperand line mnemonic)

/-- The two operand tokens of `mov` (R109). A wrong token count is tested before either of them and
records the mnemonic: the model's choice, log 23. -/
def parseMov (line : Nat) : List (List Char) → Except Err Instr
  | [d, s] => do
    let dest ← onToken line d (operandToken d)
    let src ← onToken line s (operandToken s)
    return canonicalMov dest src
  | _ => .error (.malformedOperand line movName)

/-- The tokens of one line as an instruction (R106, R107, R109–R111). More than 10 tokens are an error
before the mnemonic is looked up, and record the eleventh token; a `stop` or `wait` with more tokens
records the mnemonic: the model's choices, log 23. A line with no token, of separators with a comma,
records the empty token: the model's choice, log 19. -/
def parseTokens (P : Params) (line : Nat) (ts : List (List Char)) : Except Err Instr :=
  if 10 < ts.length then .error (.malformedOperand line (ts.getD 10 []))
  else
    match ts with
    | [] => .error (.malformedOperand line [])
    | t :: rest =>
      if t = movName then parseMov line rest
      else if t = loadName then parseTransfer P .deviceLoad line t rest
      else if t = storeName then parseTransfer P .deviceStore line t rest
      else if t = stopName then (if rest = [] then .ok .stop else .error (.malformedOperand line t))
      else if t = waitName then (if rest = [] then .ok .wait else .error (.malformedOperand line t))
      else .error (.unknownMnemonic line t)

/-- The lines from number `n` on. -/
def parseLines (P : Params) : Nat → List (List Char) → Except Err (List Instr)
  | _, [] => .ok []
  | n, l :: ls =>
    if isBlank l then parseLines P (n + 1) ls
    else do
      let i ← parseTokens P n (tokens l)
      let rest ← parseLines P (n + 1) ls
      return i :: rest

/-- `parse(T)` (R105–R111): the structured instructions of a text, or the first error. -/
def parse (P : Params) (t : List Char) : Except Err (List Instr) :=
  parseLines P 0 (splitLines t)

/-! ## Printer -/

/-- A number in decimal. -/
def printNat (n : Nat) : List Char :=
  Nat.toDigits 10 n

/-- An immediate in signed decimal (R114). -/
def printInt (v : Int) : List Char :=
  if v < 0 then '-' :: printNat v.natAbs else printNat v.natAbs

/-- An operand (R114). -/
def printOperand (op : Operand) : List Char :=
  match op.kind with
  | .imm v => printInt v.toInt
  | .r32 n => 'r' :: printNat n
  | .r16l n => 'r' :: printNat n ++ ['l']
  | .r16h n => 'r' :: printNat n ++ ['h']
  | .r64 n => 'r' :: printNat n ++ '_' :: 'r' :: printNat (n + 1)
  | .u64 n => 'u' :: printNat n ++ '_' :: 'u' :: printNat (n + 1)

/-- Strings joined by one character. -/
def joinWith (sep : Char) : List (List Char) → List Char
  | [] => []
  | [w] => w
  | w :: ws => w ++ sep :: joinWith sep ws

/-- One upper-case hex digit (R114). -/
def upperHex (n : Nat) : Char :=
  if n < 10 then Char.ofNat (48 + n) else Char.ofNat (55 + n)

/-- A format code by name, or `fmt<d>` where no name has it (R112). -/
def printFormat (P : Params) (fc : Nat) : List Char :=
  match formatOfCode P fc with
  | some F => formatName F
  | none => codeName fc

/-- The register list of a mask: `popcount(mask)` names joined by `_` (R114). -/
def printRegisterList (mask : Nat) (first : Operand) : List Char :=
  joinWith '_' ((registerRun first (lanes mask).length).map printOperand)

/-- The operands of a Load or Store (R114). -/
def printTransfer (P : Params) (fc mask : Nat) (reg base off : Operand) : List Char :=
  joinWith ','
    [printFormat P fc, ['0', 'x', upperHex mask], printRegisterList mask reg, printOperand base,
      printOperand off,
      if off.se then ['s', 'i', 'g', 'n', 'e', 'd'] else ['u', 'n', 's', 'i', 'g', 'n', 'e', 'd']]

/-- One instruction as its line, `<mnemonic> <op>,<op>,…;` (R114, R118). -/
def printInstr (P : Params) : Instr → List Char
  | .deviceLoad fc mask reg base off =>
    loadName ++ ' ' :: printTransfer P fc mask reg base off ++ [';']
  | .deviceStore fc mask reg base off =>
    storeName ++ ' ' :: printTransfer P fc mask reg base off ++ [';']
  | .movHalf dest src => movName ++ ' ' :: joinWith ',' [printOperand dest, printOperand src] ++ [';']
  | .movShort dest src => movName ++ ' ' :: joinWith ',' [printOperand dest, printOperand src] ++ [';']
  | .movLong dest src => movName ++ ' ' :: joinWith ',' [printOperand dest, printOperand src] ++ [';']
  | .ret reg => retName ++ ' ' :: printOperand reg ++ [';']
  | .stop => stopName ++ [';']
  | .wait => waitName ++ [';']

/-- `print`: one line per instruction, each ended by a newline (R114). -/
def print (P : Params) (L : List Instr) : List Char :=
  L.flatMap fun i => printInstr P i ++ ['\n']

/-- A byte as two lower-case hex digits (R115). -/
def printByte (b : Byte) : List Char :=
  Nat.toDigits 16 (b.toNat / 16) ++ Nat.toDigits 16 (b.toNat % 16)

/-- An annotated line: `<offset>: <bytes>`, a tab, the line (R115, R268). -/
def printAnnotated (P : Params) (e : Nat × Decoded) : List Char :=
  Nat.toDigits 16 e.1 ++ [':', ' '] ++ joinWith ' ' (e.2.span.map printByte) ++
    '\t' :: printInstr P e.2.instr

/-! ## Text pipeline (45 R269) -/

/-- `assemble_text(T) = assemble(parse(T))`. -/
def assembleText (P : Params) (t : List Char) : Except Err Buffer :=
  match parse P t with
  | .ok L => assemble P L
  | .error e => .error e

/-- `disassemble_text(B) = print(disassemble(B))`. -/
def disassembleText (P : Params) (B : Buffer) : Except Err (List Char) :=
  match disassemble P B with
  | .ok out => .ok (print P (out.map fun e => e.2.instr))
  | .error e => .error e

/-- The annotated listing of a buffer, each line ended by a newline (R115, R268). -/
def annotateText (P : Params) (B : Buffer) : Except Err (List Char) :=
  match disassemble P B with
  | .ok out => .ok (out.flatMap fun e => printAnnotated P e ++ ['\n'])
  | .error e => .error e

end Sys2Proof.Text
end

