-- ==== Sys2Proof/Machine/Run.lean ====
section
/-! DEFINITION. `run(L, S0)`, the step loop over a list as one function (47_reference_execution.md
R330, R332). There are no branches, so it recurses on the list. -/

namespace Sys2Proof.Machine

/-- The loop of R332 from the list's next instruction on: it ends at Ret or Stop, at the first
fault, or with `end_of_program`. -/
def runFrom : List Instr → State → Host.Outcome State Fault Refusal
  | [], _ => .fault .endOfProgram
  | i :: rest, s =>
    match exec i s with
    | .next t => if t.halted then .next t else runFrom rest t
    | .fault f => .fault f
    | .refused r => .refused r

/-- `run(L, S0)`: `k = 0` and `halted = false`, the entry check, the loop (R331, R332). -/
def run (L : List Instr) (s : State) : Host.Outcome State Fault Refusal :=
  if s.x[0]? = some (some 0) then
    runFrom L { s with program := .list L, k := 0, halted := false }
  else .fault .zeroRegister

end Sys2Proof.Machine
end

