-- ==== Sys2Proof/WellFormed.lean ====
section
/-! DEFINITION. The structured instructions the packers accept: the operand kinds, ranges and
`se` flags of 10_state.md R37, 41_operand_codec.md R140–R152, 43_move.md R210–R218 and
44_ret_stop_wait.md R241. -/

namespace Sys2Proof

/-- A memory base: `R64(n)` or `U64(n)` with `n < 128` (R144). -/
def Operand.isBase : Operand → Bool
  | ⟨.r64 n, false⟩ => n < 128
  | ⟨.u64 n, false⟩ => n < 128
  | _ => false

/-- A memory register list: `R32(n)`, `R16L(n)` or `R16H(n)` with `n < 128` (R146). -/
def Operand.isRegList : Operand → Bool
  | ⟨.r32 n, false⟩ => n < 128
  | ⟨.r16l n, false⟩ => n < 128
  | ⟨.r16h n, false⟩ => n < 128
  | _ => false

/-- `v = q·2^s` with `-2048 <= q <= 2047` and `0 <= s <= 3` (10 R37, 42 R183). -/
def offsetFits (v : Int) : Bool :=
  [1, 2, 4, 8].any fun m => v % m = 0 && -2048 ≤ v / m && v / m ≤ 2047

/-- A memory offset: `Imm(v)` with `se = true` that fits, or `R32(n)` with `n < 256` and either
`se` (R141). -/
def Operand.isOffset : Operand → Bool
  | ⟨.imm v, true⟩ => offsetFits v.toInt
  | ⟨.r32 n, _⟩ => n < 256
  | _ => false

/-- A half-register Mov destination: `n < 32` (R148). -/
def Operand.isHalfDest : Operand → Bool
  | ⟨.r16l n, false⟩ => n < 32
  | ⟨.r16h n, false⟩ => n < 32
  | _ => false

/-- A 32-bit Mov destination or a Ret operand: `R32(n)` with `n < 128` (R148, R241). -/
def Operand.isReg128 : Operand → Bool
  | ⟨.r32 n, false⟩ => n < 128
  | _ => false

/-- A Mov source: `Imm(v)` with `0 <= v < bound` (43 R212). -/
def Operand.isImmBelow (bound : Int) : Operand → Bool
  | ⟨.imm v, false⟩ => 0 ≤ v.toInt && v.toInt < bound
  | _ => false

/-- The fields of a Load or Store (42 R180, R182). -/
def transferFieldsWF (fc mask : Nat) (reg base off : Operand) : Bool :=
  fc ≤ 15 && 1 ≤ mask && mask ≤ 15 && reg.isRegList && base.isBase && off.isOffset

/-- A well-formed structured instruction: one its own form encodes and decoding gives back. -/
def Instr.wf : Instr → Bool
  | .deviceLoad fc mask reg base off => transferFieldsWF fc mask reg base off
  | .deviceStore fc mask reg base off => transferFieldsWF fc mask reg base off
  | .movHalf dest src => dest.isHalfDest && src.isImmBelow (2 ^ 16)
  | .movShort dest src => dest.isReg128 && src.isImmBelow (2 ^ 16)
  | .movLong dest src => dest.isReg128 && src.isImmBelow (2 ^ 32)
  | .ret reg => reg.isReg128
  | .stop => true
  | .wait => true

end Sys2Proof
end

