-- ==== Sys2Proof/Safety.lean ====
section
/-! DEFINITION. What a legal state and a safe run are. -/

namespace Sys2Proof.Machine

/-- A legal state: a configuration that meets the constraints of 30_encoding.md R84 and D2, a data
buffer in canonical form, and a register file of at least 256 registers (10_state.md R44, D29). -/
def State.Inv (s : State) : Prop :=
  s.params.valid = true ∧ s.mem.wf = true ∧ 256 ≤ s.x.length

/-- The cursor stands in the program's list or at its end (10 R44). -/
def State.CursorIn (s : State) : Prop :=
  ∃ L, programList s = .ok L ∧ s.k ≤ L.length

/-- A step that ends in neither a fault nor a refusal. -/
def SafeStep (s : State) : Prop :=
  ∃ t, step s = .next t

/-- Lane positions of a transfer stay inside the format and the data buffer: steps 2 and 5 of
47_reference_execution.md R335. -/
def LanesInRange (s : State) (F : Format) (off : Int) (mask : Nat) : Prop :=
  ∀ j ∈ lanes mask,
    F.hasChannel j = true ∧ 0 ≤ elementIndex F off j ∧
      (elementIndex F off j + 1) * F.size ≤ s.mem.size

/-- The value a Mov source has (47 R334): the immediate modulo `2^32`, the register, or a half of
it. -/
def SourceIs (s : State) (src : Operand) (v : Word32) : Prop :=
  match src.kind with
  | .imm u => v = BitVec.ofInt 32 u.toInt
  | .r32 m => s.x[m]? = some (some v)
  | .r16l m => ∃ w, s.x[m]? = some (some w) ∧ v = BitVec.ofNat 32 (w.toNat % 2 ^ 16)
  | .r16h m => ∃ w, s.x[m]? = some (some w) ∧ v = BitVec.ofNat 32 (w.toNat / 2 ^ 16)
  | .r64 _ => False
  | .u64 _ => False

/-- The integer an offset resolves to (47 R335 step 4). -/
def OffsetIs (s : State) (off : Operand) (o : Int) : Prop :=
  match off.kind with
  | .imm v => o = v.toInt
  | .r32 m => ∃ w : Word32, s.x[m]? = some (some w) ∧ o = if off.se then w.toInt else w.toNat
  | _ => False

end Sys2Proof.Machine
end

