-- ==== Sys2Proof/Certificates/Slice0/Obligations.lean ====
section
/-! DEFINITION. The statements about the model. Each docstring names the rule it formalises. -/

open Sys2Proof Sys2Proof.Machine

/-! ## The bit-field accessor -/

/-- 40 R130: a call outside the precondition raises `InternalAssertion`, for both accessors, and no
call inside it does so for its range. -/
def Obligations.AccessorRefusesIllegalRanges : Prop :=
  ∀ (B : Buffer) (s e v : Nat),
    (¬(s ≤ e ∧ e - s + 1 ≤ 57 ∧ e / 8 - s / 8 + 1 ≤ 7) →
      getBits B s e = .error .accessorRange ∧ setBits B s e v = .error .accessorRange) ∧
    ((s ≤ e ∧ e - s + 1 ≤ 57 ∧ e / 8 - s / 8 + 1 ≤ 7) →
      getBits B s e ≠ .error .accessorRange ∧ setBits B s e v ≠ .error .accessorRange)

/-- 40 R131: `get_bits` is the sum of the bits of the range, bit `s` least significant, where a bit
at or beyond `8·len(B)` is 0, and it lies below `2^(e-s+1)`. -/
def Obligations.GetBitsSumsTheBitsOfTheRange : Prop :=
  ∀ (B : Buffer) (s e : Nat), accessorOk s e = true →
    ∃ v, getBits B s e = .ok v ∧ v < 2 ^ (e - s + 1) ∧
      v = ((List.range (e - s + 1)).map fun i =>
        if (B.getD ((s + i) / 8) 0).getLsbD ((s + i) % 8) then 2 ^ i else 0).sum

/-- 40 R132: bits past the end read as 0, bit by bit: appending zero bytes changes no read, and a
range wholly past the end reads 0. -/
def Obligations.ReadsPastTheEndAreZero : Prop :=
  ∀ (B : Buffer) (s e n : Nat), accessorOk s e = true →
    getBits (B ++ zeros n) s e = getBits B s e ∧
      (8 * B.length ≤ s → getBits B s e = .ok 0)

/-- 40 R133: `set_bits` ORs the value into the range; every bit outside the range is unchanged; a
value that does not fit is an `InternalAssertion`. -/
def Obligations.SetBitsOrsTheValueIntoTheRange : Prop :=
  ∀ (B : Buffer) (s e v : Nat), accessorOk s e = true →
    (2 ^ (e - s + 1) ≤ v → setBits B s e v = .error .valueTooWide) ∧
    (v < 2 ^ (e - s + 1) → e / 8 < B.length →
      ∃ B', setBits B s e v = .ok B' ∧ B'.length = B.length ∧
        ∀ i, bitAt B' i = (bitAt B i || (decide (s ≤ i) && decide (i ≤ e) && v.testBit (i - s))))

/-- 40 R134: a range whose start or end bit lies at or beyond `8·len(B)` changes nothing. -/
def Obligations.SetBitsPastTheEndChangesNothing : Prop :=
  ∀ (B : Buffer) (s e v : Nat), accessorOk s e = true → v < 2 ^ (e - s + 1) →
    (8 * B.length ≤ s ∨ 8 * B.length ≤ e) → setBits B s e v = .ok B

/-- 40 R135: on a range that holds 0, a write reads back, and no range that does not meet it
changes its value. -/
def Obligations.DisjointFieldsKeepTheirValues : Prop :=
  ∀ (B : Buffer) (s e v : Nat), accessorOk s e = true → v < 2 ^ (e - s + 1) → e / 8 < B.length →
    getBits B s e = .ok 0 →
    ∃ B', setBits B s e v = .ok B' ∧ getBits B' s e = .ok v ∧
      ∀ s' e', (e' < s ∨ e < s') → getBits B' s' e' = getBits B s' e'

/-! ## The operand codec -/

/-- 41 R143, R150: each of the four transforms decodes what it encodes, the offset with its `se`;
and on the fields a decoder accepts, encoding gives the fields back, an immediate offset only when
its shift is the canonical one. -/
def Obligations.OperandCodecInverse : Prop :=
  (∀ (op : Operand) (f : OffsetFields), encOff op = .ok f → decOff f = .ok op) ∧
  (∀ (op : Operand) (f : BaseFields), op.se = false → encBase op = .ok f → decBase f = .ok op) ∧
  (∀ (op : Operand) (f : RegFields), op.se = false → encReg op = .ok f → decReg f = .ok op) ∧
  (∀ (op : Operand) (f : DestFields), op.se = false → encDst op = .ok f → decDst f = .ok op) ∧
  (∀ (op : Operand) (f : BaseFields), f.uni < 2 → f.raw < 256 →
    decBase f = .ok op → encBase op = .ok f) ∧
  (∀ (op : Operand) (f : RegFields), f.is32 < 2 → f.raw < 256 →
    decReg f = .ok op → encReg op = .ok f) ∧
  (∀ (op : Operand) (f : DestFields), f.raw < (if f.flag = 2 then 256 else 64) →
    decDst f = .ok op → encDst op = .ok f) ∧
  (∀ (op : Operand) (f : OffsetFields), f.isImm < 2 → f.sebit < 2 → f.shift < 4 → f.raw < 4096 →
    (f.isImm = 1 → f.shift = offsetShift (sext 12 f.raw * 2 ^ f.shift)) →
    decOff f = .ok op → encOff op = .ok f)

/-- 42 R183: `compress` takes exactly the offsets `q·2^s` with `-2048 <= q <= 2047` and `s <= 3`;
what it gives decodes to the offset, and no larger shift up to 3 would divide it. -/
def Obligations.CompressTakesExactlyTheFittingOffsets : Prop :=
  ∀ v : Int,
    ((∃ (q : Int) (s : Nat), v = q * 2 ^ s ∧ -2048 ≤ q ∧ q ≤ 2047 ∧ s ≤ 3) →
      ∃ s r, compress v = .ok (s, r) ∧ s ≤ 3 ∧ r < 4096 ∧ sext 12 r * 2 ^ s = v ∧
        (v = 0 → s = 0) ∧ (v ≠ 0 → ∀ s' ≤ 3, (2 : Int) ^ s' ∣ v → s' ≤ s)) ∧
    ((¬∃ (q : Int) (s : Nat), v = q * 2 ^ s ∧ -2048 ≤ q ∧ q ≤ 2047 ∧ s ≤ 3) →
      compress v = .error .offsetRange)

/-! ## Encoding and decoding -/

/-- Words written out bit by bit from 30 R85–R91 decode to the instructions they stand for: the Mov
and Stop words under every configuration, the others under one configuration written out here. Under
a configuration that 30 R84 forbids, with OPC_LOAD equal to Mov's or Stop's key, this is the model's
order of dispatch (log 16, DEDUCED). -/
def Obligations.WrittenWordsDecode : Prop :=
  let P : Params := ⟨0x11, 0x22, 0x33, 0x0144, ⟨0, 1, 2, 3, 4, 5, 6, 7, 8, 9, 10⟩, .sign⟩
  (∀ Q : Params,
    unpackAt Q [0x62, 0x19, 0x01, 0x00, 0x00, 0x00] 0 =
        .ok (⟨.movShort (.r32 6) (.imm 1), [0x62, 0x19, 0x01, 0x00, 0x00, 0x00]⟩, 6) ∧
      unpackAt Q [0x62, 0x0E, 0x34, 0x12] 0 =
        .ok (⟨.movHalf (.r16h 3) (.imm 0x1234), [0x62, 0x0E, 0x34, 0x12]⟩, 4) ∧
      unpackAt Q [0x88, 0x00] 0 = .ok (⟨.stop, [0x88, 0x00]⟩, 2)) ∧
  unpackAt P [0x22, 0x31, 0x12, 0x07, 0x20, 0xC8, 0xF2, 0x00] 0 =
    .ok (⟨.deviceStore 2 0xF (.r32 6) (.r64 17) (.immS 4),
      [0x22, 0x31, 0x12, 0x07, 0x20, 0xC8, 0xF2, 0x00]⟩, 8) ∧
  unpackAt P [0x33, 0xFE] 0 = .ok (⟨.ret (.r32 127), [0x33, 0xFE]⟩, 2) ∧
  unpackAt P [0x44, 0x01] 0 = .ok (⟨.wait, [0x44, 0x01]⟩, 2)

/-- 30 R102, R101, 41 R150: every well-formed instruction encodes to a word of its length, and that
word decodes to the instruction with the word as its span, at any offset of any buffer. -/
def Obligations.DecodeOfEncode : Prop :=
  ∀ (P : Params) (i : Instr) (before after : Buffer), P.valid = true → i.wf = true →
    ∃ W, encode P i = .ok W ∧ W.length = i.length ∧
      unpackAt P (before ++ W ++ after) before.length = .ok (⟨i, W⟩, W.length)

/-- 30 R102, R101: a canonical word packs back to itself; a word that is not canonical packs to a
different word, which decodes to the canonical twin, the same fields. -/
def Obligations.PackOfDecode : Prop :=
  ∀ (P : Params) (B : Buffer) (c n : Nat) (d : Decoded), P.valid = true →
    unpackAt P B c = .ok (d, n) →
    (d.canonical = true → pack P d.instr = .ok d.span) ∧
    (d.canonical = false → ∃ W, pack P d.instr = .ok W ∧ W ≠ d.span ∧
      unpackAt P W 0 = .ok (⟨d.instr.canonical, W⟩, W.length))

/-- 10 R43, R37, 30 R81: a decoded instruction is well-formed and carries its own bytes; its length
is 2, 4, 6 or 8 and depends on its form alone. -/
def Obligations.DecodedInstructionsAreWellFormed : Prop :=
  ∀ (P : Params) (B : Buffer) (c n : Nat) (d : Decoded), unpackAt P B c = .ok (d, n) →
    d.instr.wf = true ∧ d.span = (B.drop c).take n ∧ c + n ≤ B.length ∧ n = d.instr.length ∧
      n ∈ [2, 4, 6, 8]

/-- 45 R263, 60 R366, R361: `pack` gives a word of the canonical form's length, or a
`FieldConstraintViolation`, and never an `InternalAssertion`; so does the encoder. -/
def Obligations.PackersGiveAWordOrAFieldViolation : Prop :=
  ∀ (P : Params) (i : Instr),
    ((∃ W, pack P i = .ok W ∧ W.length = i.canonical.length) ∨
      ∃ f, pack P i = .error (.fieldConstraint f .word)) ∧
    ((∃ W, encode P i = .ok W ∧ W.length = i.length) ∨
      ∃ f, encode P i = .error (.fieldConstraint f .word))

/-- 43 R214: a 32-bit Mov packs long, in 8 bytes, exactly when its immediate is `2^16` or more, and
short, in 6 bytes, otherwise, whatever form it was decoded from. -/
def Obligations.MovPacksLongFromTwoToTheSixteen : Prop :=
  ∀ (P : Params) (n : Nat) (v : Imm64), n < 128 → 0 ≤ v.toInt → v.toInt < 2 ^ 32 →
    ∃ W, pack P (.movShort (.r32 n) (.imm v)) = .ok W ∧
      pack P (.movLong (.r32 n) (.imm v)) = .ok W ∧
      W.length = (if 2 ^ 16 ≤ v.toInt then 8 else 6) ∧
      readBits W 15 15 = (if 2 ^ 16 ≤ v.toInt then 1 else 0)

/-- 30 R95, 60 R362: a word whose key is in no row of the key table raises `UnknownOpcode` with the
key and the byte offset, and the decode of the whole stream fails with it. -/
def Obligations.UnknownKeysFailTheStream : Prop :=
  ∀ (P : Params) (A W : Buffer) (out : List (Nat × Decoded)), disassemble P A = .ok out →
    2 ≤ W.length → readBits W 0 6 ∉ P.keys →
    unpackAt P (A ++ W) A.length = .error (.unknownOpcode (readBits W 0 6) A.length) ∧
      disassemble P (A ++ W) = .error (.unknownOpcode (readBits W 0 6) A.length)

/-- 45 R261 steps 1 and 3, 60 R363: fewer than two bytes, or fewer bytes than the length the first
two give, is `BufferBoundsExceeded` at the cursor. -/
def Obligations.TruncatedWordsExceedTheBuffer : Prop :=
  ∀ (P : Params) (B : Buffer) (c n : Nat),
    (B.length < c + 2 → unpackAt P B c = .error (.bufferBounds c none)) ∧
    (c + 2 ≤ B.length → wordLength P ((B.drop c).take 2) c = .ok n → B.length < c + n →
      unpackAt P B c = .error (.bufferBounds c (some n)))

/-- 30 R103 (flags 1 and 3), 43 R219 (flag 0 and the long flag): such a Mov word is refused from its
first two bytes, before its length is known. Under a configuration that 30 R84 forbids, with OPC_LOAD
equal to Mov's key, this is the model's order of dispatch (log 16, DEDUCED). -/
def Obligations.ReservedMovFlagsAreRefused : Prop :=
  ∀ (P : Params) (B : Buffer) (c : Nat), c + 2 ≤ B.length → readBits (B.drop c) 0 6 = 0x62 →
    ((readBits (B.drop c) 7 8 = 1 ∨ readBits (B.drop c) 7 8 = 3) →
      unpackAt P B c = .error (.fieldConstraint .movDestFlag (.offset c))) ∧
    (readBits (B.drop c) 7 8 = 0 → readBits (B.drop c) 15 15 = 1 →
      unpackAt P B c = .error (.fieldConstraint .movLongHalf (.offset c)))

/-- 43 R213, 41 R149, 44 R241, 30 R98: the reserved bits inside a word: an unused bit of a 32-bit Mov
short or long is `mov.unused`, an odd raw destination of one is `mov.dest_lsb`, bits 7–8 of a Ret are
`ret.reserved`. -/
def Obligations.ReservedMovAndRetBitsAreRefused : Prop :=
  ∀ (P : Params) (B : Buffer) (c : Nat), P.valid = true →
    let get := readBits (B.drop c)
    let fcv := fun f => unpackAt P B c = .error (.fieldConstraint f (.offset c))
    (get 0 6 = 0x62 → get 7 8 = 2 → get 15 15 = 0 → c + 6 ≤ B.length →
      (get 32 43 ≠ 0 ∨ get 46 47 ≠ 0 → fcv .movUnused) ∧
      (get 32 43 = 0 → get 46 47 = 0 → get 9 14 % 2 = 1 → fcv .movDestLsb)) ∧
    (get 0 6 = 0x62 → get 7 8 = 2 → get 15 15 = 1 → c + 8 ≤ B.length →
      (get 48 59 ≠ 0 ∨ get 62 63 ≠ 0 → fcv .movUnused) ∧
      (get 48 59 = 0 → get 62 63 = 0 → get 9 14 % 2 = 1 → fcv .movDestLsb)) ∧
    (get 0 6 = P.opcRet.toNat → c + 2 ≤ B.length → get 7 8 ≠ 0 → fcv .retReserved)

/-- 42 R181: the ten checks of a Load or Store word in their order, each failing under its own
field name, and a word that passes them all decodes. -/
def Obligations.TransferWordsAreCheckedInOrder : Prop :=
  ∀ (P : Params) (B : Buffer) (c : Nat), P.valid = true → c + 8 ≤ B.length →
    (readBits (B.drop c) 0 6 = P.opcLoad.toNat ∨ readBits (B.drop c) 0 6 = P.opcStore.toNat) →
    let get := readBits (B.drop c)
    let fcv := fun f => unpackAt P B c = .error (.fieldConstraint f (.offset c))
    (get 26 26 ≠ 1 → fcv .lsFiller26) ∧
    (get 26 26 = 1 → get 28 31 ≠ 0 → fcv .lsFiller28_31) ∧
    (get 26 26 = 1 → get 28 31 = 0 → get 44 46 ≠ 4 → fcv .lsFiller44_46) ∧
    (get 26 26 = 1 → get 28 31 = 0 → get 44 46 = 4 → get 50 51 ≠ 0 → fcv .lsFiller50_51) ∧
    (get 26 26 = 1 → get 28 31 = 0 → get 44 46 = 4 → get 50 51 = 0 → get 47 47 ≠ 1 →
      fcv .lsLong) ∧
    (get 26 26 = 1 → get 28 31 = 0 → get 44 46 = 4 → get 50 51 = 0 → get 47 47 = 1 →
      get 60 63 ≠ 0 → fcv .offsetHigh) ∧
    (get 26 26 = 1 → get 28 31 = 0 → get 44 46 = 4 → get 50 51 = 0 → get 47 47 = 1 →
      get 60 63 = 0 → get 52 55 = 0 → fcv .laneMask) ∧
    (get 26 26 = 1 → get 28 31 = 0 → get 44 46 = 4 → get 50 51 = 0 → get 47 47 = 1 →
      get 60 63 = 0 → get 52 55 ≠ 0 →
      (∀ f, decReg (regFieldsOf (B.drop c)) = .error f → fcv f) ∧
      ∀ reg, decReg (regFieldsOf (B.drop c)) = .ok reg →
        (∀ f, decBase (baseFieldsOf (B.drop c)) = .error f → fcv f) ∧
        ∀ base, decBase (baseFieldsOf (B.drop c)) = .ok base →
          (∀ f, decOff (offsetFieldsOf (B.drop c)) = .error f → fcv f) ∧
          ∀ off, decOff (offsetFieldsOf (B.drop c)) = .ok off →
            ∃ d, unpackAt P B c = .ok (d, 8))

/-- 30 R97: a word with Stop's or Wait's key that is not the fixed word is a field violation, and
the fixed word is the instruction. -/
def Obligations.FixedWordsAreExact : Prop :=
  ∀ (P : Params) (B : Buffer) (c : Nat), P.valid = true → c + 2 ≤ B.length →
    (readBits (B.drop c) 0 6 = 0x08 →
      unpackAt P B c =
        if readBits (B.drop c) 0 15 = 0x0088 then .ok (⟨.stop, (B.drop c).take 2⟩, 2)
        else .error (.fieldConstraint .stopWord (.offset c))) ∧
    (readBits (B.drop c) 0 6 = P.waitWord.toNat % 128 →
      unpackAt P B c =
        if readBits (B.drop c) 0 15 = P.waitWord.toNat then .ok (⟨.wait, (B.drop c).take 2⟩, 2)
        else .error (.fieldConstraint .waitWord (.offset c)))

/-! ## The stream -/

/-- 45 R262, 10 R34: a buffer that decodes is covered from offset 0 by its instructions, each where
the lengths before it end, and each is what the decode step gives there. -/
def Obligations.DisassemblyCoversTheBuffer : Prop :=
  ∀ (P : Params) (B : Buffer) (out : List (Nat × Decoded)), disassemble P B = .ok out →
    (out.flatMap fun e => e.2.span) = B ∧
    ∀ (k : Nat) (e : Nat × Decoded), out[k]? = some e →
      e.1 = ((out.take k).map fun e' => e'.2.span.length).sum ∧
        unpackAt P B e.1 = .ok (e.2, e.2.span.length)

/-- 45 R266, first law: a list of well-formed instructions in canonical form assembles, and the
buffer disassembles to the list, each item with its packed word as span and the sum of the earlier
lengths as offset. -/
def Obligations.DisassembleOfAssemble : Prop :=
  ∀ (P : Params) (L : List Instr), P.valid = true →
    (∀ i ∈ L, i.wf = true ∧ i.canonical = i) →
    ∃ B out, assemble P L = .ok B ∧ disassemble P B = .ok out ∧
      (out.map fun e => e.2.instr) = L ∧
      ∀ (k : Nat) (e : Nat × Decoded), out[k]? = some e →
        pack P e.2.instr = .ok e.2.span ∧
          e.1 = ((out.take k).map fun e' => e'.2.span.length).sum

/-- 45 R266, second law: a buffer that decodes to canonical words assembles back to itself. -/
def Obligations.AssembleOfDisassemble : Prop :=
  ∀ (P : Params) (B : Buffer) (out : List (Nat × Decoded)), P.valid = true →
    disassemble P B = .ok out → (∀ e ∈ out, e.2.canonical = true) →
    assemble P (out.map fun e => e.2.instr) = .ok B

/-! ## Reset, fetching and stepping -/

/-- 10 R46, R45: what the spec gives at the start of a call: `k = 0`, not halted, `x[0] = 0`, the
configuration the fixed parameters, an invariant state, at least 256 registers. -/
def Obligations.ResetLeavesTheStartOfACall : Prop :=
  State.reset.k = 0 ∧ State.reset.halted = false ∧ State.reset.x[0]? = some (some 0) ∧
    State.reset.params = Config.params.val ∧ State.reset.Inv

/-- The model's choice at reset (logs 3–7): no program, every register 0, a zero data buffer; a step
from it ends with `end_of_program` (47 R332, R343). -/
def Obligations.ResetRunsNothing : Prop :=
  (∀ i < 256, State.reset.x[i]? = some (some 0)) ∧
    (∀ a, readByte State.reset.mem a = 0) ∧ step State.reset = .fault .endOfProgram

/-- 47 R332, 45 R262: where the program's bytes decode, the bytes at the cursor's instruction
decode to it, and the step is `exec` of it on the same state: step adds nothing around `exec`. -/
def Obligations.StepRunsTheDecodedInstruction : Prop :=
  ∀ (s : State) (B : Buffer) (out : List (Nat × Decoded)) (c : Nat) (d : Decoded),
    s.halted = false → s.program = .code B → disassemble s.params B = .ok out →
    (s.k = 0 → s.x[0]? = some (some 0)) → out[s.k]? = some (c, d) →
    unpackAt s.params B c = .ok (d, d.span.length) ∧ d.instr.wf = true ∧ step s = exec d.instr s

/-- 47 R332: on a structured list the step is `exec(L[k], S)`. -/
def Obligations.StepRunsTheListedInstruction : Prop :=
  ∀ (s : State) (L : List Instr) (i : Instr),
    s.halted = false → s.program = .list L → (s.k = 0 → s.x[0]? = some (some 0)) →
    L[s.k]? = some i → step s = exec i s

/-- 47 R331, R332, 45 R262: when a step runs nothing: a buffer that does not decode, then an
`x[0]` that is not 0 at entry, then the end of the list. That the decode comes first is the model's
choice (log 7, DESIGN CHOICE), and so is that an `x[0]` with no value fails the entry check (log 10,
DEDUCED). -/
def Obligations.StepFaultsBeforeRunning : Prop :=
  ∀ (s : State), s.halted = false →
    (∀ B e, s.program = .code B → disassemble s.params B = .error e →
      step s = .fault (.decode e)) ∧
    (∀ L, programList s = .ok L → s.k = 0 → s.x[0]? ≠ some (some 0) →
      step s = .fault .zeroRegister) ∧
    (∀ L, programList s = .ok L → (s.k = 0 → s.x[0]? = some (some 0)) → L.length ≤ s.k →
      step s = .fault .endOfProgram)

/-- The model's choice (log 9): a step of a halted machine changes nothing, so `Done(S)` stays. -/
def Obligations.HaltedMachinesStay : Prop :=
  ∀ s : State, s.halted = true → step s = .next s

/-- 47 R332, R330, R331: the steps of the machine are the loop of `run`: on any list, as many steps
as the list is long and one more give exactly the result of `run`. The steps after an early Ret or
Stop rest on the model's choice that a halted machine stays (log 9, DESIGN CHOICE), and an `x[0]`
with no value on log 10 (DEDUCED). -/
def Obligations.StepsAgreeWithRun : Prop :=
  ∀ (L : List Instr) (s : State),
    Sys2Proof.core.run (L.length + 1)
        ({ s with program := .list L, k := 0, halted := false } : State) = run L s

/-- The invariant is kept by every step, from every state that meets it: the configuration stays
legal, the data buffer canonical, the register file at least 256 long. -/
def Obligations.StepKeepsTheInvariant : Prop :=
  ∀ s t : State, s.Inv → step s = .next t → t.Inv

/-- 47 R332, 10 R34: the cursor never leaves the program's list. -/
def Obligations.StepKeepsTheCursorInTheProgram : Prop :=
  ∀ s t : State, s.CursorIn → step s = .next t → t.CursorIn

/-- 10 R40, 20 R74, 47 R330, R335: no step changes the configuration, the program, a uniform, the
length of the data buffer or the size of the register file. -/
def Obligations.StepKeepsWhatTheCallerFixed : Prop :=
  ∀ s t : State, step s = .next t →
    t.params = s.params ∧ t.program = s.program ∧ t.u = s.u ∧ t.mem.size = s.mem.size ∧
      t.x.length = s.x.length

/-- 10 R45: no step takes a value from a register that holds one. -/
def Obligations.StepKeepsRegistersDefined : Prop :=
  ∀ (s t : State) (r : Nat) (v : Word32), step s = .next t → s.x[r]? = some (some v) →
    ∃ w, t.x[r]? = some (some w)

/-- 47 R332, R338: only Ret and Stop halt, and they leave `k`; every other instruction ends with
`k <- k + 1` and does not touch `halted`. -/
def Obligations.OnlyRetAndStopHalt : Prop :=
  ∀ (i : Instr) (s t : State), exec i s = .next t →
    (((∃ r, i = .ret r) ∨ i = .stop) → t.k = s.k ∧ t.halted = true) ∧
    (¬((∃ r, i = .ret r) ∨ i = .stop) → t.k = s.k + 1 ∧ t.halted = s.halted)

/-- 20 R61, 47 R334, R336–R339: only Store changes a byte of memory, and only Mov and Load change a
register. -/
def Obligations.OnlyStoreWritesMemory : Prop :=
  ∀ (i : Instr) (s t : State), exec i s = .next t →
    ((∀ fc mask reg base off, i ≠ .deviceStore fc mask reg base off) → t.mem = s.mem) ∧
    ((∃ fc mask reg base off, i = .deviceStore fc mask reg base off) ∨ (∃ r, i = .ret r) ∨
      i = .stop ∨ i = .wait → t.x = s.x)

/-! ## Mov -/

/-- 47 R334: each Mov form, on each destination kind and with each source that has a value, goes on;
a 32-bit destination takes the value, a half destination takes the low 16 bits and keeps the other
half of the register. Covers movHalf, movShort, movLong. -/
def Obligations.MovWritesItsDestination : Prop :=
  ∀ (s : State) (mk : Operand → Operand → Instr) (dest src : Operand) (n : Nat) (v : Word32),
    (mk = .movHalf ∨ mk = .movShort ∨ mk = .movLong) → SourceIs s src v →
    (dest.kind = .r32 n → n < s.x.length →
      exec (mk dest src) s = .next { s with x := s.x.set n (some v), k := s.k + 1 }) ∧
    (∀ old : Word32, dest.kind = .r16l n → s.x[n]? = some (some old) →
      exec (mk dest src) s = .next
        { s with
          x := s.x.set n (some (BitVec.ofNat 32 (old.toNat / 2 ^ 16 * 2 ^ 16 + v.toNat % 2 ^ 16)))
          k := s.k + 1 }) ∧
    (∀ old : Word32, dest.kind = .r16h n → s.x[n]? = some (some old) →
      exec (mk dest src) s = .next
        { s with
          x := s.x.set n (some (BitVec.ofNat 32 (v.toNat % 2 ^ 16 * 2 ^ 16 + old.toNat % 2 ^ 16)))
          k := s.k + 1 })

/-- 47 R333: a Mov stops on a register that does not exist, on a source register with no value, and
on a half destination with no value; a 32-bit destination needs no old value. -/
def Obligations.MovFaultsOnItsRegisters : Prop :=
  ∀ (s : State) (mk : Operand → Operand → Instr) (dest src : Operand) (n : Nat) (v : Word32),
    (mk = .movHalf ∨ mk = .movShort ∨ mk = .movLong) →
    ((src.kind = .r32 n ∨ src.kind = .r16l n ∨ src.kind = .r16h n) →
      (s.x.length ≤ n → exec (mk dest src) s = .fault .registerIndex) ∧
      (s.x[n]? = some none → exec (mk dest src) s = .fault .undefinedRegister)) ∧
    (SourceIs s src v → (dest.kind = .r32 n ∨ dest.kind = .r16l n ∨ dest.kind = .r16h n) →
      s.x.length ≤ n → exec (mk dest src) s = .fault .registerIndex) ∧
    (SourceIs s src v → (dest.kind = .r16l n ∨ dest.kind = .r16h n) → s.x[n]? = some none →
      exec (mk dest src) s = .fault .undefinedRegister)

/-- 47 R334 (frame): a Mov changes its destination register and `k`, and nothing else: no other
register, no byte of memory, no uniform. Covers movHalf, movShort, movLong. -/
def Obligations.MovFrame : Prop :=
  ∀ (s t : State) (mk : Operand → Operand → Instr) (dest src : Operand),
    (mk = .movHalf ∨ mk = .movShort ∨ mk = .movLong) → exec (mk dest src) s = .next t →
    (∀ r : Nat, destIndex dest ≠ some r → t.x[r]? = s.x[r]?) ∧
      (∀ a, readByte t.mem a = readByte s.mem a) ∧ t.mem.size = s.mem.size ∧ t.u = s.u ∧
      t.params = s.params ∧ t.program = s.program ∧ t.halted = s.halted

/-! ## Load and Store -/

/-- 47 R335, R336, 41 R153: a Load whose checks hold goes on: lane rank `k` puts the converted
element of lane position `j_k` into register `n + k`; every other register, every byte of memory and
everything else stays, and `k` advances. The base is not read. -/
def Obligations.LoadMovesTheLanesOfTheMask : Prop :=
  ∀ (s : State) (fc mask n : Nat) (reg base off : Operand) (F : Format) (o : Int),
    formatOfCode s.params fc = some F → LanesInRange s F o mask → reg.kind = .r32 n →
    OffsetIs s off o → (∀ k < (lanes mask).length, n + k < s.x.length) →
    ∃ t, exec (.deviceLoad fc mask reg base off) s = .next t ∧
      (∀ j k, (lanes mask)[k]? = some j →
        t.x[n + k]? = some (some
          (loadElement s.params F (memRead s.mem (elementAddress F o j) F.size) j))) ∧
      (∀ r : Nat, (r < n ∨ n + (lanes mask).length ≤ r) → t.x[r]? = s.x[r]?) ∧
      t.mem = s.mem ∧ t.u = s.u ∧ t.params = s.params ∧ t.program = s.program ∧
      t.k = s.k + 1 ∧ t.halted = s.halted

/-- 47 R336 (frame): a Load that goes on changes the registers of its list and `k`, and no byte of
memory. -/
def Obligations.LoadFrame : Prop :=
  ∀ (s t : State) (fc mask : Nat) (reg base off : Operand),
    exec (.deviceLoad fc mask reg base off) s = .next t →
    ∃ n, reg.kind = .r32 n ∧
      (∀ r : Nat, (r < n ∨ n + (lanes mask).length ≤ r) → t.x[r]? = s.x[r]?) ∧
      (∀ a, readByte t.mem a = readByte s.mem a) ∧ t.mem.size = s.mem.size ∧ t.u = s.u ∧
      t.params = s.params ∧ t.program = s.program ∧ t.halted = s.halted

/-- 47 R335, R337, 46 R281: a Store whose checks hold goes on. For a per-lane format each lane's
element becomes the converted register; for a packed format the one element becomes the result of
the lanes' conversions in ascending order. Registers and everything else stay, and `k` advances. -/
def Obligations.StoreMovesTheLanesOfTheMask : Prop :=
  ∀ (s : State) (fc mask n : Nat) (reg base off : Operand) (F : Format) (o : Int)
    (v : Nat → Word32), s.mem.wf = true →
    formatOfCode s.params fc = some F → LanesInRange s F o mask → reg.kind = .r32 n →
    OffsetIs s off o → (∀ k < (lanes mask).length, s.x[n + k]? = some (some (v k))) →
    ∃ t, exec (.deviceStore fc mask reg base off) s = .next t ∧
      (F.packed = false → ∀ j k, (lanes mask)[k]? = some j →
        memRead t.mem (elementAddress F o j) F.size = storeElement F (v k) j
          (memRead s.mem (elementAddress F o j) F.size)) ∧
      (F.packed = true → 1 ≤ (lanes mask).length →
        memRead t.mem (elementAddress F o 0) F.size =
          (rankedLanes mask).foldl (fun e l => storeElement F (v l.2) l.1 e)
            (memRead s.mem (elementAddress F o 0) F.size)) ∧
      t.x = s.x ∧ t.u = s.u ∧ t.params = s.params ∧ t.program = s.program ∧
      t.mem.size = s.mem.size ∧ t.mem.wf = true ∧ t.k = s.k + 1 ∧ t.halted = s.halted

/-- 47 R337 (frame): a Store that goes on leaves every register and every byte outside the elements
its mask selects, the elements at `idx_k·z` of the offset its operand resolves to. -/
def Obligations.StoreFrame : Prop :=
  ∀ (s t : State) (fc mask : Nat) (reg base off : Operand), s.mem.wf = true →
    exec (.deviceStore fc mask reg base off) s = .next t →
    (∀ (F : Format) (o : Int), formatOfCode s.params fc = some F → resolveOffset s off = .ok o → ∀ a : Nat,
      (∀ j ∈ lanes mask, a < elementAddress F o j ∨ elementAddress F o j + F.size ≤ a) →
      readByte t.mem a = readByte s.mem a) ∧
    (∀ r : Nat, t.x[r]? = s.x[r]?) ∧ t.mem.size = s.mem.size ∧ t.u = s.u ∧ t.params = s.params ∧
      t.program = s.program ∧ t.halted = s.halted

/-- 47 R342: a Store with mask `0x1`, format I32 and offset `off` writes element `off` with the
register and leaves every other byte. -/
def Obligations.MaskOneStoreWritesOneElement : Prop :=
  ∀ (s : State) (fc n : Nat) (reg base off : Operand) (o : Nat) (v : Word32), s.mem.wf = true →
    formatOfCode s.params fc = some .i32 → reg.kind = .r32 n → s.x[n]? = some (some v) →
    OffsetIs s off o → (o + 1) * 4 ≤ s.mem.size →
    ∃ t, exec (.deviceStore fc 1 reg base off) s = .next t ∧
      memRead t.mem (o * 4) 4 = v.toNat ∧
      ∀ a, (a < o * 4 ∨ o * 4 + 4 ≤ a) → readByte t.mem a = readByte s.mem a

/-- 47 R335, R333: the checks of a Load and of a Store, in their order, each with its fault, and a
fault before any lane moves. Which of a Store's registers fails first is the model's choice (log 20,
DEDUCED): ascending, for each whether it exists and then whether it holds a value. A Load needs no
value of them. -/
def Obligations.TransferFaultsInOrder : Prop :=
  ∀ (s : State) (fc mask : Nat) (reg base off : Operand) (i : Instr),
    (i = .deviceLoad fc mask reg base off ∨ i = .deviceStore fc mask reg base off) →
    (formatOfCode s.params fc = none → exec i s = .fault .unknownFormat) ∧
    ∀ F, formatOfCode s.params fc = some F →
      ((∃ j ∈ lanes mask, F.hasChannel j = false) → exec i s = .fault .noChannel) ∧
      ((∀ j ∈ lanes mask, F.hasChannel j = true) →
        ((∀ n, reg.kind ≠ .r32 n) → exec i s = .fault .halfList) ∧
        ∀ n, reg.kind = .r32 n →
          (∀ m, off.kind = .r32 m →
            (s.x.length ≤ m → exec i s = .fault .registerIndex) ∧
            (s.x[m]? = some none → exec i s = .fault .undefinedRegister)) ∧
          ∀ o, OffsetIs s off o →
            ((∃ j ∈ lanes mask, elementIndex F o j < 0 ∨
                (s.mem.size : Int) < (elementIndex F o j + 1) * F.size) →
              exec i s = .fault .elementRange) ∧
            (LanesInRange s F o mask → ∀ k < (lanes mask).length,
              (i = .deviceLoad fc mask reg base off → s.x.length ≤ n + k →
                exec i s = .fault .registerIndex) ∧
              (i = .deviceStore fc mask reg base off →
                (∀ k' < k, ∃ w, s.x[n + k']? = some (some w)) →
                (s.x.length ≤ n + k → exec i s = .fault .registerIndex) ∧
                (s.x[n + k]? = some none → exec i s = .fault .undefinedRegister))))

/-! ## Ret, Stop and Wait -/

/-- 47 R338: Ret, whatever its operand, and Stop set `halted` and change nothing else. -/
def Obligations.RetAndStopEndExecution : Prop :=
  ∀ (s : State) (reg : Operand),
    exec (.ret reg) s = .next { s with halted := true } ∧
      exec .stop s = .next { s with halted := true }

/-- 47 R339: Wait advances `k` and nothing else. -/
def Obligations.WaitOnlyAdvances : Prop :=
  ∀ s : State, exec .wait s = .next { s with k := s.k + 1 }

/-! ## Format converters -/

/-- 46 R288: the boundary values the source gives. -/
def Obligations.NormBoundaryValues : Prop :=
  loadNorm u8norm 0x00 = 0x00000000 ∧ loadNorm u8norm 0xFF = 0x3F800000 ∧
    loadNorm s8norm 0x7F = 0x3F800000

/-- 46 R287: in each of the four normalized formats every raw value survives a load followed by a
store. Binary32 and its rounding are log 15 (PRESUMED). -/
def Obligations.NormsSurviveLoadThenStore : Prop :=
  ∀ n ∈ [u8norm, s8norm, u16norm, s16norm], ∀ e < 2 ^ n.bits, storeNorm n (loadNorm n e) = e

/-- 46 R282: `RN32` of a rational is `+inf` exactly from the midpoint of the greatest finite value and
`2^128` on; below it, it is a finite pattern nearest among all finite patterns, and of two equally
near neighbours the even one. Distances are in units of `2^-150 / d`. Binary32 and its rounding are
log 15 (PRESUMED). -/
def Obligations.RoundingIsNearestEven : Prop :=
  ∀ n d : Nat, 0 < d →
    let p := roundMag fun u => compare (u * d) (n * 2 ^ unitBits)
    let dist := fun q => ((patternMag q * d : Nat) - (n * 2 ^ unitBits : Nat) : Int).natAbs
    ((2 ^ 25 - 1) * 2 ^ 103 * d ≤ n → p = infPattern) ∧
      (n < (2 ^ 25 - 1) * 2 ^ 103 * d →
        p < infPattern ∧
          ∀ q < infPattern, dist p ≤ dist q ∧ (dist p = dist q → q ≠ p → p % 2 = 0))

/-- 46 R283, R284: an integer load extends the element as `INT_LOAD_EXT` says, which for I32 gives
the element itself, and an integer store keeps the low bits of the register. -/
def Obligations.IntegerFormatsExtendAndTruncate : Prop :=
  ∀ (P : Params) (x : Word32) (e j old : Nat),
    (e < 2 ^ 8 → (loadElement P .i8 e j).toInt = if P.intLoadExt = .sign then sext 8 e else e) ∧
    (e < 2 ^ 16 → (loadElement P .i16 e j).toInt = if P.intLoadExt = .sign then sext 16 e else e) ∧
    (e < 2 ^ 32 → (loadElement P .i32 e j).toNat = e) ∧
    storeElement .i8 x j old = x.toNat % 2 ^ 8 ∧ storeElement .i16 x j old = x.toNat % 2 ^ 16 ∧
      storeElement .i32 x j old = x.toNat

/-- 46 R289, R290: an RGB10A2 load is the rounded quotient of the channel's field by its scale. The
rounding is log 15 (PRESUMED). -/
def Obligations.Rgb10a2LoadsItsChannels : Prop :=
  ∀ (P : Params) (w j : Nat),
    (j < 3 → loadElement P .rgb10a2 w j = roundRat false (w / 2 ^ (10 * j) % 2 ^ 10) 1023) ∧
      loadElement P .rgb10a2 w 3 = roundRat false (w / 2 ^ 30 % 2 ^ 2) 3

/-- 46 R291: an RGB10A2 store writes the normalized value into channel `j` and leaves every other
channel. -/
def Obligations.Rgb10a2StoreWritesOneChannel : Prop :=
  ∀ (x : Word32) (j old : Nat), j < 4 → old < 2 ^ 32 →
    let w := storeElement .rgb10a2 x j old
    w < 2 ^ 32 ∧
      w / 2 ^ (10 * j) % 2 ^ (rgb10a2Channel j).bits = storeNorm (rgb10a2Channel j) x ∧
      ∀ j' < 4, j' ≠ j → w / 2 ^ (10 * j') % 2 ^ (rgb10a2Channel j').bits =
        old / 2 ^ (10 * j') % 2 ^ (rgb10a2Channel j').bits

/-- 46 R293, R294, R297: an RG11B10F or RGB9E5 load is exact: the register's value is the channel's,
in units of `2^-150`. Channel positions, bias, special values and scale are the layouts of R292 and
R296, which the spec marks as general knowledge (log 14, PRESUMED). -/
def Obligations.FloatChannelLoadsAreExact : Prop :=
  (∀ (P : Params) (w j : Nat), j < 3 →
    let M := if j = 2 then 5 else 6
    let E := w / 2 ^ (11 * j + M) % 2 ^ 5
    let m := w / 2 ^ (11 * j) % 2 ^ M
    (E = 0 → f32Val (loadElement P .rg11b10f w j) = .fin false (m * 2 ^ (136 - M))) ∧
    (0 < E → E < 31 →
      f32Val (loadElement P .rg11b10f w j) = .fin false ((2 ^ M + m) * 2 ^ (E + 135 - M))) ∧
    (E = 31 → loadElement P .rg11b10f w j = if m = 0 then 0x7F800000 else 0x7FC00000)) ∧
  ∀ (P : Params) (w j : Nat), j < 3 →
    f32Val (loadElement P .rgb9e5 w j) =
      .fin false (w / 2 ^ (9 * j) % 2 ^ 9 * 2 ^ (126 + w / 2 ^ 27 % 2 ^ 5))

/-- 46 R295: an RG11B10F store writes the OPEN encoding, whatever it is, into channel `j` and leaves
every other channel. The channel positions are the layout of R292, which the spec marks as general
knowledge (log 14, PRESUMED). -/
def Obligations.Rg11b10fStoreWritesOneChannel : Prop :=
  ∀ (x : Word32) (j old : Nat), j < 3 → old < 2 ^ 32 →
    let w := storeElement .rg11b10f x j old
    w < 2 ^ 32 ∧
      w / 2 ^ (11 * j) % 2 ^ (minifloatMantissa j + 5) =
        (if j = 2 then (Config.mfEnc5 x).toNat else (Config.mfEnc6 x).toNat) ∧
      ∀ j' < 3, j' ≠ j → w / 2 ^ (11 * j') % 2 ^ (minifloatMantissa j' + 5) =
        old / 2 ^ (11 * j') % 2 ^ (minifloatMantissa j' + 5)

/-- 46 R300: for finite channels from 0 to `MAXV`, loading each channel of the encoded word gives a
value within half a step of the channel: `|load(enc9e5(c), j) - c| <= 2^(E-24) / 2`, with `E` the
word's exponent, in units of `2^-150`. The layout of R296 and the constants of R298 are marked by the
spec as general knowledge (log 14, PRESUMED). -/
def Obligations.Rgb9e5QuantizesWithinHalfAStep : Prop :=
  ∀ (P : Params) (r g b : Word32) (mr mg mb : Nat), f32Val r = .fin false mr →
    f32Val g = .fin false mg → f32Val b = .fin false mb → mr ≤ 65408 * 2 ^ unitBits →
    mg ≤ 65408 * 2 ^ unitBits → mb ≤ 65408 * 2 ^ unitBits →
    let w := enc9e5 r g b
    let E := w / 2 ^ 27
    let near := fun (j c : Nat) =>
      ∃ v, f32Val (loadElement P .rgb9e5 w j) = .fin false v ∧
        2 * ((v : Int) - (c : Int)).natAbs ≤ 2 ^ (126 + E)
    E < 32 ∧ near 0 mr ∧ near 1 mg ∧ near 2 mb

/-- 46 R302, R303: the SRGBA8 alpha channel bypasses gamma, both ways, and the end points of the
colour channels are 0.0 and 1.0. -/
def Obligations.SrgbAlphaBypassesGamma : Prop :=
  (∀ (P : Params) (e : Nat) (x : Word32) (old : Nat),
    loadElement P .srgba8 e 3 = loadElement P .u8norm e 3 ∧
      storeElement .srgba8 x 3 old = storeElement .u8norm x 3 old) ∧
    ∀ j < 3, loadSrgba8 0x00 j = 0x00000000 ∧ loadSrgba8 0xFF j = 0x3F800000 ∧
      storeSrgba8 0x3F800000 j = 0xFF ∧ storeSrgba8 0x7FC00000 j = 0

/-! ## The text front end -/

/-- 30 R116: the printed text of well-formed instructions in canonical form, without Ret, parses
back to them. -/
def Obligations.PrintedTextParsesBack : Prop :=
  ∀ (P : Params) (L : List Instr), P.valid = true →
    (∀ i ∈ L, i.wf = true ∧ i.canonical = i ∧ ∀ r, i ≠ .ret r) →
    Text.parse P (Text.print P L) = .ok L

/-- 30 R116: a text that assembles disassembles to the canonical printing of its instructions. -/
def Obligations.AssembledTextPrintsCanonically : Prop :=
  ∀ (P : Params) (t : List Char) (B : Buffer), P.valid = true → Text.assembleText P t = .ok B →
    ∃ L, Text.parse P t = .ok L ∧ Text.disassembleText P B = .ok (Text.print P L)

/-- 30 R118: Ret prints as `ret r<n>` and does not assemble: its printed line is an unknown
mnemonic. That the error counts this line as line 0 is the model's choice (log 19, DESIGN CHOICE). -/
def Obligations.RetPrintsButDoesNotParse : Prop :=
  ∀ (P : Params) (n : Nat),
    Text.printInstr P (.ret (.r32 n)) = ['r', 'e', 't', ' ', 'r'] ++ Nat.toDigits 10 n ++ [';'] ∧
      (n < 128 → Text.parse P (Text.print P [.ret (.r32 n)]) =
        .error (.unknownMnemonic 0 ['r', 'e', 't']))
end

