-- ==== Sys2Proof/Laws/Accessor.lean ====
section
/-! SUPPORT. Buffers as little-endian numbers, and what the accessor reads and writes
(40_bitfield_accessor.md R131–R135). -/

namespace Sys2Proof

@[simp] theorem toBytes_length (n v : Nat) : (toBytes n v).length = n := by
  induction n generalizing v with
  | zero => rfl
  | succ n ih => simp [toBytes, ih]

@[simp] theorem leNat_toBytes (n v : Nat) : leNat (toBytes n v) = v % 256 ^ n := by
  induction n generalizing v with
  | zero => simp [toBytes, leNat, Nat.mod_one]
  | succ n ih =>
    rw [toBytes, leNat, ih, BitVec.toNat_ofNat, show 256 ^ (n + 1) = 256 * 256 ^ n from by ring,
      Nat.mod_mul]

theorem leNat_lt (B : Buffer) : leNat B < 256 ^ B.length := by
  induction B with
  | nil => simp [leNat]
  | cons b rest ih =>
    have := b.isLt
    simp only [leNat, List.length_cons, Nat.pow_succ]
    omega

/-- A buffer is its length and its number. -/
theorem toBytes_leNat (B : Buffer) : toBytes B.length (leNat B) = B := by
  induction B with
  | nil => rfl
  | cons b rest ih =>
    have hb := b.isLt
    have h1 : (b.toNat + 256 * leNat rest) / 256 = leNat rest := by omega
    have h2 : BitVec.ofNat 8 (b.toNat + 256 * leNat rest) = b := by
      apply BitVec.eq_of_toNat_eq
      rw [BitVec.toNat_ofNat]
      omega
    rw [List.length_cons, toBytes, leNat, h1, h2, ih]

theorem leNat_append (A B : Buffer) : leNat (A ++ B) = leNat A + 256 ^ A.length * leNat B := by
  induction A with
  | nil => simp [leNat]
  | cons a rest ih =>
    simp only [List.cons_append, leNat, ih, List.length_cons, Nat.pow_succ]
    ring

@[simp] theorem leNat_zeros (n : Nat) : leNat (zeros n) = 0 := by
  induction n with
  | zero => rfl
  | succ n ih =>
    have h : zeros (n + 1) = 0 :: zeros n := rfl
    rw [h, leNat, ih]
    rfl

@[simp] theorem zeros_length (n : Nat) : (zeros n).length = n := by
  simp [zeros]

/-- R131's bit of a buffer is the bit of its number. -/
theorem bitAt_eq_testBit (B : Buffer) (i : Nat) : bitAt B i = (leNat B).testBit i := by
  induction B generalizing i with
  | nil => simp [bitAt, leNat]
  | cons b rest ih =>
    have hb : b.toNat < 2 ^ 8 := b.isLt
    have hnum : leNat (b :: rest) = 2 ^ 8 * leNat rest + b.toNat := by
      simp only [leNat]
      omega
    rw [hnum, Nat.testBit_two_pow_mul_add _ hb]
    by_cases hi : i < 8
    · simp [bitAt, hi, Nat.div_eq_of_lt hi, Nat.mod_eq_of_lt hi, BitVec.getLsbD]
    · have hd : i / 8 = (i - 8) / 8 + 1 := by omega
      have hm : i % 8 = (i - 8) % 8 := by omega
      rw [if_neg hi, ← ih]
      simp only [bitAt, hd, hm, List.getD_cons_succ]

/-- A bit of a value read from a range. -/
theorem testBit_readBits (B : Buffer) (s e i : Nat) :
    (readBits B s e).testBit i = (decide (i < e + 1 - s) && bitAt B (s + i)) := by
  rw [readBits, Nat.testBit_mod_two_pow, Nat.testBit_div_two_pow, bitAt_eq_testBit, Nat.add_comm s]

/-- A value read from a range fits the range (R131). -/
theorem readBits_lt (B : Buffer) (s e : Nat) : readBits B s e < 2 ^ (e + 1 - s) :=
  Nat.mod_lt _ (Nat.two_pow_pos _)

/-- Two buffers that agree on a range read the same there. -/
theorem readBits_congr {A B : Buffer} {s e : Nat}
    (h : ∀ i, s ≤ i → i ≤ e → bitAt A i = bitAt B i) : readBits A s e = readBits B s e := by
  apply Nat.eq_of_testBit_eq
  intro i
  rw [testBit_readBits, testBit_readBits]
  by_cases hi : i < e + 1 - s
  · rw [h (s + i) (by omega) (by omega)]
  · simp [hi]

@[simp] theorem orBits_length (B : Buffer) (s v : Nat) : (orBits B s v).length = B.length :=
  toBytes_length _ _

/-- A bit after an OR into the buffer (R133). -/
theorem bitAt_orBits (B : Buffer) (s v i : Nat) :
    bitAt (orBits B s v) i =
      (bitAt B i || (decide (i < 8 * B.length) && decide (s ≤ i) && v.testBit (i - s))) := by
  have hpow : (256 : Nat) ^ B.length = 2 ^ (8 * B.length) := by
    rw [show (256 : Nat) = 2 ^ 8 from rfl, ← Nat.pow_mul]
  rw [bitAt_eq_testBit, bitAt_eq_testBit, orBits, leNat_toBytes, hpow, Nat.testBit_mod_two_pow,
    Nat.testBit_or, Nat.mul_comm v, Nat.testBit_two_pow_mul]
  by_cases hi : i < 8 * B.length
  · simp [hi]
  · have hz : (leNat B).testBit i = false := by
      apply Nat.testBit_eq_false_of_lt
      calc leNat B < 256 ^ B.length := leNat_lt B
        _ = 2 ^ (8 * B.length) := hpow
        _ ≤ 2 ^ i := Nat.pow_le_pow_right (by omega) (by omega)
    simp [hi, hz]

/-- Everything a `set_bits` call inside its buffer can do (R130, R133). -/
theorem setBits_inside {B : Buffer} {s e v : Nat} (hok : accessorOk s e = true)
    (hv : v < 2 ^ (e - s + 1)) (he : e / 8 < B.length) :
    setBits B s e v = .ok (orBits B s v) := by
  have hs : s ≤ e := by
    simp [accessorOk] at hok
    exact hok.1.1
  have : s / 8 ≤ e / 8 := Nat.div_le_div_right hs
  unfold setBits
  rw [if_neg (by simp [hok]), if_neg (by omega), if_neg (by simp; omega)]

end Sys2Proof
end

