-- ==== Sys2Proof/Laws/Codec.lean ====
section
/-! SUPPORT. What a packer's field writes leave in its buffer, so that a field reads back what was
written (40_bitfield_accessor.md R135). -/

namespace Sys2Proof

/-- A write the accessor accepts, inside a buffer of `len` bytes. -/
def FieldWrite.fits (len : Nat) (w : FieldWrite) : Prop :=
  accessorOk w.lo w.hi = true ∧ w.value < 2 ^ (w.hi - w.lo + 1) ∧ w.hi / 8 < len

/-- Bit `i` as a write sets it. -/
def FieldWrite.sets (i : Nat) (w : FieldWrite) : Bool :=
  decide (w.lo ≤ i) && w.value.testBit (i - w.lo)

theorem FieldWrite.fits_le {len : Nat} {w : FieldWrite} (h : w.fits len) : w.lo ≤ w.hi := by
  have := h.1
  simp [accessorOk] at this
  exact this.1.1

/-- A bit a fitting write sets lies in its range. -/
theorem FieldWrite.le_hi_of_sets {len i : Nat} {w : FieldWrite} (h : w.fits len)
    (hs : w.sets i = true) : w.lo ≤ i ∧ i ≤ w.hi := by
  simp only [FieldWrite.sets, Bool.and_eq_true, decide_eq_true_eq] at hs
  refine ⟨hs.1, ?_⟩
  by_contra hgt
  have hle := FieldWrite.fits_le h
  have hz : w.value.testBit (i - w.lo) = false :=
    Nat.testBit_eq_false_of_lt
      (Nat.lt_of_lt_of_le h.2.1 (Nat.pow_le_pow_right (by omega) (by omega)))
  simp [hz] at hs

/-- Fitting writes succeed, and every bit is the OR of the old bit and the bits written. -/
theorem writeFields_ok {ws : List FieldWrite} {B : Buffer} (h : ∀ w ∈ ws, w.fits B.length) :
    ∃ O, writeFields ws B = .ok O ∧ O.length = B.length ∧
      ∀ i, bitAt O i = (bitAt B i || ws.any (FieldWrite.sets i)) := by
  induction ws generalizing B with
  | nil => exact ⟨B, rfl, rfl, fun i => by simp⟩
  | cons w ws ih =>
    have hw := h w (by simp)
    have hset := setBits_inside hw.1 hw.2.1 hw.2.2
    obtain ⟨O, hO, hlen, hbits⟩ :=
      ih (B := orBits B w.lo w.value) fun w' hw' => by simpa using h w' (by simp [hw'])
    refine ⟨O, by simp [writeFields, hset, hO], by simpa using hlen, fun i => ?_⟩
    rw [hbits, bitAt_orBits, List.any_cons, ← Bool.or_assoc]
    congr 2
    by_cases hs : w.sets i = true
    · have hin := (FieldWrite.le_hi_of_sets hw hs).2
      have : i < 8 * B.length := by
        have := hw.2.2
        omega
      simp only [this, decide_true, Bool.true_and]
      rfl
    · have hs' : w.sets i = false := by simpa using hs
      simp only [FieldWrite.sets] at hs' ⊢
      rw [Bool.and_assoc, hs', Bool.and_false]

/-- Writes whose ranges do not meet (R135). -/
def Disjoint (ws : List FieldWrite) : Prop :=
  ws.Pairwise fun a b => a.hi < b.lo ∨ b.hi < a.lo

/-- A zero buffer after fitting writes that do not meet: each range reads the value written there,
and a range no write meets reads 0 (R135). -/
theorem writeFields_zeros {ws : List FieldWrite} {n : Nat} (h : ∀ w ∈ ws, w.fits n)
    (hd : Disjoint ws) :
    ∃ O, writeFields ws (zeros n) = .ok O ∧ O.length = n ∧
      (∀ w ∈ ws, readBits O w.lo w.hi = w.value) ∧
      ∀ s e, (∀ w ∈ ws, e < w.lo ∨ w.hi < s) → readBits O s e = 0 := by
  obtain ⟨O, hO, hlen, hbits⟩ := writeFields_ok (ws := ws) (B := zeros n) (by simpa using h)
  have hbits : ∀ i, bitAt O i = ws.any (FieldWrite.sets i) := fun i => by
    rw [hbits, bitAt_eq_testBit, leNat_zeros, Nat.zero_testBit, Bool.false_or]
  refine ⟨O, hO, by simpa using hlen, fun w hw => ?_, fun s e hse => ?_⟩
  · have hle := FieldWrite.fits_le (h w hw)
    have hself : ∀ w' ∈ ws, ∀ i, w.lo ≤ i → i ≤ w.hi → w'.sets i = true → w' = w := by
      intro w' hw' i h1 h2 hs
      by_contra hne
      have hin := FieldWrite.le_hi_of_sets (h w' hw') hs
      rcases List.pairwise_iff_getElem.mp hd with hp
      obtain ⟨a, ha, rfl⟩ := List.getElem_of_mem hw
      obtain ⟨b, hb, rfl⟩ := List.getElem_of_mem hw'
      rcases Nat.lt_trichotomy a b with hab | rfl | hab
      · have := hp a b ha hb hab
        omega
      · exact hne rfl
      · have := hp b a hb ha hab
        omega
    apply Nat.eq_of_testBit_eq
    intro i
    rw [testBit_readBits, hbits]
    by_cases hi : i < w.hi + 1 - w.lo
    · simp only [hi, decide_true, Bool.true_and]
      rw [Bool.eq_iff_iff, List.any_eq_true]
      constructor
      · rintro ⟨w', hw', hs⟩
        have := hself w' hw' _ (by omega) (by omega) hs
        subst this
        simpa [FieldWrite.sets] using hs
      · intro ht
        exact ⟨w, hw, by simpa [FieldWrite.sets] using ht⟩
    · have hz : w.value.testBit i = false :=
        Nat.testBit_eq_false_of_lt
          (Nat.lt_of_lt_of_le (h w hw).2.1 (Nat.pow_le_pow_right (by omega) (by omega)))
      simp [hi, hz]
  · apply Nat.eq_of_testBit_eq
    intro i
    rw [testBit_readBits, hbits, Nat.zero_testBit]
    by_cases hi : i < e + 1 - s
    · simp only [hi, decide_true, Bool.true_and]
      rw [List.any_eq_false]
      intro w hw hs
      have hin := FieldWrite.le_hi_of_sets (h w hw) hs
      have := hse w hw
      omega
    · simp [hi]

/-- A range inside a range reads the bits it cuts out. -/
theorem readBits_sub (B : Buffer) {lo hi s e : Nat} (hs : lo ≤ s) (he : e ≤ hi) :
    readBits B s e = readBits B lo hi / 2 ^ (s - lo) % 2 ^ (e + 1 - s) := by
  apply Nat.eq_of_testBit_eq
  intro i
  rw [testBit_readBits, Nat.testBit_mod_two_pow, Nat.testBit_div_two_pow, testBit_readBits]
  by_cases hi' : i < e + 1 - s
  · have h1 : i + (s - lo) < hi + 1 - lo := by omega
    have h2 : lo + (i + (s - lo)) = s + i := by omega
    simp [hi', h1, h2]
  · simp [hi']

/-- The first `n` bytes of a buffer read as the buffer does on every range inside them. -/
theorem readBits_append (A B : Buffer) {s e : Nat} (he : e < 8 * A.length) :
    readBits (A ++ B) s e = readBits A s e := by
  apply readBits_congr
  intro i _ hi
  have : i / 8 < A.length := by omega
  simp [bitAt, List.getElem?_append_left this]

/-- Everything a packer of fitting, disjoint writes can do: it gives a word of its length, in which
every field reads back. -/
theorem packFields_ok {ws : List FieldWrite} {n : Nat} (h : ∀ w ∈ ws, w.fits n)
    (hd : Disjoint ws) :
    ∃ O, packFields n ws = .ok O ∧ O.length = n ∧
      (∀ w ∈ ws, readBits O w.lo w.hi = w.value) ∧
      ∀ s e, (∀ w ∈ ws, e < w.lo ∨ w.hi < s) → readBits O s e = 0 := by
  obtain ⟨O, hO, rest⟩ := writeFields_zeros h hd
  exact ⟨O, by simp [packFields, hO], rest⟩

/-- A packer's buffer keeps the length it was made with. -/
theorem writeFields_length {ws : List FieldWrite} {B O : Buffer} (h : writeFields ws B = .ok O) :
    O.length = B.length := by
  induction ws generalizing B with
  | nil =>
    simp [writeFields] at h
    rw [h]
  | cons w ws ih =>
    rw [writeFields] at h
    split at h
    · next B' hB' =>
      rw [ih h]
      unfold setBits at hB'
      split at hB'
      · cases hB'
      · split at hB'
        · cases hB'
        · split at hB' <;> cases hB' <;> simp
    · cases h

theorem packFields_length {n : Nat} {ws : List FieldWrite} {O : Buffer}
    (h : packFields n ws = .ok O) : O.length = n := by
  unfold packFields at h
  split at h
  · next O' hO' =>
    cases h
    simpa using writeFields_length hO'
  · cases h

theorem packTransfer_length {key fc mask : Nat} {reg base off : Operand} {O : Buffer}
    (h : packTransfer key fc mask reg base off = .ok O) : O.length = 8 := by
  unfold packTransfer at h
  split at h
  · cases h
  · split at h
    · cases h
    · next O' hO' =>
      unfold transferSelfCheck at h
      split at h <;> cases h
      exact packFields_length hO'

theorem movWord_length {r : Except Field (MovForm × DestFields × Nat)} {O : Buffer}
    (h : movWord r = .ok O) : ∃ form d v, r = .ok (form, d, v) ∧ O.length = form.length := by
  unfold movWord at h
  split at h
  · cases h
  · exact ⟨_, _, _, rfl, packFields_length h⟩

theorem formFields_form {form form' : MovForm} {dest src : Operand} {d : DestFields} {v : Nat}
    (h : formFields form dest src = .ok (form', d, v)) : form' = form := by
  unfold formFields at h
  simp only [bind, Except.bind, pure, Except.pure] at h
  split at h
  · cases h
  · split at h
    · cases h
    · split at h <;> cases h
      rfl

/-- A Mov packed in a form has the form's length. -/
theorem formWord_length {form : MovForm} {dest src : Operand} {O : Buffer}
    (h : movWord (formFields form dest src) = .ok O) : O.length = form.length := by
  obtain ⟨form', d, v, hf, hl⟩ := movWord_length h
  rw [hl, formFields_form hf]

theorem packRet_length {P : Params} {reg : Operand} {O : Buffer} (h : packRet P reg = .ok O) :
    O.length = 2 := by
  unfold packRet at h
  split at h
  · split at h
    · exact packFields_length h
    · cases h
  · cases h

/-! ## Immediates -/

/-- An integer in the signed 64-bit range is the value of its immediate. -/
theorem imm64_toInt_ofInt {v : Int} (h : -2 ^ 63 ≤ v) (h' : v < 2 ^ 63) :
    (BitVec.ofInt 64 v).toInt = v :=
  BitVec.toInt_ofInt_eq_self (by decide) h h'

/-- A field of a Mov word is the value of its immediate. -/
theorem imm64_toInt_ofNat {v : Nat} (h : v < 2 ^ 63) : (BitVec.ofNat 64 v).toInt = v := by
  rw [← BitVec.ofInt_natCast]
  exact imm64_toInt_ofInt (by omega) (by omega)

/-- A decoded offset is the value of its immediate. -/
theorem imm64_toInt_offset {raw shift : Nat} (hr : raw < 4096) (hs : shift < 4) :
    (BitVec.ofInt 64 (sext 12 raw * 2 ^ shift)).toInt = sext 12 raw * 2 ^ shift := by
  have h1 : -2048 ≤ sext 12 raw := by unfold sext; split <;> omega
  have h2 : sext 12 raw < 2048 := by unfold sext; split <;> omega
  have : shift = 0 ∨ shift = 1 ∨ shift = 2 ∨ shift = 3 := by omega
  obtain rfl | rfl | rfl | rfl := this <;> exact imm64_toInt_ofInt (by omega) (by omega)

end Sys2Proof
end

