-- ==== Sys2Proof/Laws/Float.lean ====
section
/-! SUPPORT. Binary32 magnitudes grow with their patterns and are even, and the pattern search finds
the last pattern that its test admits. -/

namespace Sys2Proof

/-- Magnitudes grow strictly with the pattern. -/
theorem patternMag_lt {p q : Nat} (h : p < q) : patternMag p < patternMag q := by
  have low : ∀ r, r / 2 ^ 23 ≠ 0 → 2 ^ 23 * 2 ^ (r / 2 ^ 23) ≤ patternMag r := by
    intro r hr
    rw [patternMag, if_neg hr]
    exact Nat.mul_le_mul_right _ (by omega)
  have high : ∀ r, patternMag r < 2 ^ 24 * 2 ^ (r / 2 ^ 23) := by
    intro r
    unfold patternMag
    split
    · next hr => rw [hr]; omega
    · exact Nat.mul_lt_mul_of_pos_right (by omega) (by positivity)
  rcases Nat.lt_or_ge (p / 2 ^ 23) (q / 2 ^ 23) with he | he
  · calc patternMag p < 2 ^ 24 * 2 ^ (p / 2 ^ 23) := high p
      _ = 2 ^ 23 * 2 ^ (p / 2 ^ 23 + 1) := by rw [Nat.pow_succ]; ring
      _ ≤ 2 ^ 23 * 2 ^ (q / 2 ^ 23) := Nat.mul_le_mul_left _ (Nat.pow_le_pow_right (by decide) he)
      _ ≤ patternMag q := low q (by omega)
  · have heq : p / 2 ^ 23 = q / 2 ^ 23 := by omega
    unfold patternMag
    rw [heq]
    split
    · omega
    · exact Nat.mul_lt_mul_of_pos_right (by omega) (by positivity)

theorem patternMag_le {p q : Nat} (h : p ≤ q) : patternMag p ≤ patternMag q := by
  rcases Nat.eq_or_lt_of_le h with rfl | h
  · exact Nat.le_refl _
  · exact Nat.le_of_lt (patternMag_lt h)

/-- Every magnitude is even, so the midpoint of two is a whole number of units. -/
theorem patternMag_even (p : Nat) : patternMag p % 2 = 0 := by
  unfold patternMag
  split
  · omega
  · next h =>
    obtain ⟨e, he⟩ := Nat.exists_eq_succ_of_ne_zero h
    exact Nat.even_iff.mp (Even.mul_left (by rw [he]; exact (even_two.pow_of_ne_zero (by omega))) _)

/-- The search keeps a pattern its test admits and stops at the last such pattern, when the test
admits every pattern below one it admits. -/
theorem floorPattern_spec {cmp : Nat → Ordering} {bits acc : Nat}
    (down : ∀ a b, a ≤ b → (b ≤ infPattern ∧ cmp (patternMag b) ≠ .gt) →
      a ≤ infPattern ∧ cmp (patternMag a) ≠ .gt)
    (hacc : acc ≤ infPattern ∧ cmp (patternMag acc) ≠ .gt) :
    (floorPattern cmp bits acc ≤ infPattern ∧ cmp (patternMag (floorPattern cmp bits acc)) ≠ .gt) ∧
      acc ≤ floorPattern cmp bits acc ∧
      ∀ q, floorPattern cmp bits acc < q → q < acc + 2 ^ bits →
        ¬(q ≤ infPattern ∧ cmp (patternMag q) ≠ .gt) := by
  induction bits generalizing acc with
  | zero => exact ⟨hacc, Nat.le_refl _, fun q h1 h2 => by simp [floorPattern] at h1; omega⟩
  | succ bits ih =>
    simp only [floorPattern]
    split
    · next hc =>
      obtain ⟨h1, h2, h3⟩ := ih hc
      refine ⟨h1, (Nat.le_add_right _ _).trans h2, fun q hq hlt => h3 q hq ?_⟩
      rw [Nat.pow_succ] at hlt
      omega
    · next hc =>
      obtain ⟨h1, h2, h3⟩ := ih hacc
      refine ⟨h1, h2, fun q hq hlt => ?_⟩
      rcases Nat.lt_or_ge q (acc + 2 ^ bits) with h | h
      · exact h3 q hq h
      · exact fun hq' => hc (down _ _ h hq')

end Sys2Proof
end

