-- ==== Sys2Proof/Laws/Memory.lean ====
section
/-! SUPPORT. The data buffer: read after write, the bytes a write leaves alone, and that every
operation keeps the canonical form. -/

namespace Sys2Proof.Machine

/-- A read of a cell list after a write. -/
theorem cellsAt_cellsSet (cs : List Host.Cell) (a b : Nat) (v : Byte)
    (h : cs.Pairwise fun x y => x.1 < y.1) :
    cellsAt (cellsSet cs a v) b = if b = a then v else cellsAt cs b := by
  induction cs with
  | nil => by_cases hv : v = unlistedByte <;> simp [cellsSet, cellsAt, hv]
  | cons c rest ih =>
    obtain ⟨c, w⟩ := c
    have hrest := ih (List.pairwise_cons.mp h).2
    have hgt : ∀ e ∈ rest, c < e.1 := fun e he => (List.pairwise_cons.mp h).1 e he
    have hmiss : ∀ b', b' ≤ c → cellsAt rest b' = unlistedByte := by
      intro b' hb'
      clear ih hrest h
      induction rest with
      | nil => rfl
      | cons e es ihe =>
        have he := hgt e (by simp)
        simp only [cellsAt]
        rw [if_neg (by omega)]
        exact ihe (fun x hx => hgt x (by simp [hx]))
    unfold cellsSet
    split
    · next hac =>
      split
      · next hv =>
        by_cases hb : b = a
        · subst hb
          rw [if_pos rfl, hv]
          simp only [cellsAt]
          rw [if_neg (by omega), hmiss _ (by omega)]
        · rw [if_neg hb]
      · simp only [cellsAt]
    · split
      · next hac heq =>
        subst heq
        split
        · next hv =>
          by_cases hb : b = a
          · subst hb
            rw [if_pos rfl, hv, hmiss _ (Nat.le_refl _)]
          · simp [cellsAt, hb]
        · by_cases hb : b = a <;> simp [cellsAt, hb]
      · next hac hne =>
        simp only [cellsAt, hrest]
        by_cases hb : b = c
        · subst hb
          rw [if_pos rfl, if_neg (by omega)]
          simp
        · simp [hb]

/-- A write changes no address but its own. -/
theorem mem_cellsSet {cs : List Host.Cell} {a : Nat} {v : Byte} {c : Host.Cell}
    (h : c ∈ cellsSet cs a v) : c ∈ cs ∨ (c = (a, v) ∧ v ≠ unlistedByte) := by
  induction cs with
  | nil =>
    by_cases hv : v = unlistedByte
    · simp [cellsSet, hv] at h
    · simp only [cellsSet, hv, if_false, List.mem_singleton] at h
      exact .inr ⟨h, hv⟩
  | cons e rest ih =>
    obtain ⟨b, w⟩ := e
    unfold cellsSet at h
    split at h
    · split at h
      · exact .inl h
      · next hv =>
        rcases List.mem_cons.mp h with rfl | h
        · exact .inr ⟨rfl, hv⟩
        · exact .inl h
    · split at h
      · split at h
        · exact .inl (List.mem_cons_of_mem _ h)
        · next hv =>
          rcases List.mem_cons.mp h with rfl | h
          · exact .inr ⟨rfl, hv⟩
          · exact .inl (List.mem_cons_of_mem _ h)
      · rcases List.mem_cons.mp h with rfl | h
        · exact .inl (by simp)
        · rcases ih h with h | h
          · exact .inl (List.mem_cons_of_mem _ h)
          · exact .inr h

/-- A write keeps the addresses rising. -/
theorem cellsSet_pairwise {cs : List Host.Cell} (a : Nat) (v : Byte)
    (h : cs.Pairwise fun x y => x.1 < y.1) :
    (cellsSet cs a v).Pairwise fun x y => x.1 < y.1 := by
  induction cs with
  | nil => by_cases hv : v = unlistedByte <;> simp [cellsSet, hv]
  | cons e rest ih =>
    obtain ⟨b, w⟩ := e
    have ⟨hb, hrest⟩ := List.pairwise_cons.mp h
    unfold cellsSet
    split
    · next hab =>
      split
      · exact h
      · refine List.pairwise_cons.mpr ⟨?_, h⟩
        intro c hc
        rcases List.mem_cons.mp hc with rfl | hc
        · exact hab
        · exact Nat.lt_trans hab (hb c hc)
    · split
      · next hab heq =>
        subst heq
        split
        · exact hrest
        · exact List.pairwise_cons.mpr ⟨hb, hrest⟩
      · next hab hne =>
        refine List.pairwise_cons.mpr ⟨?_, ih hrest⟩
        intro c hc
        rcases mem_cellsSet hc with hc | ⟨rfl, -⟩
        · exact hb c hc
        · show b < a
          omega

theorem Memory.wf_iff {m : Memory} :
    m.wf = true ↔ m.cells.Pairwise (fun x y => x.1 < y.1) ∧
      ∀ c ∈ m.cells, c.1 < m.size ∧ c.2 ≠ unlistedByte := by
  simp [Memory.wf]

@[simp] theorem writeByte_size (m : Memory) (a : Nat) (v : Byte) :
    (writeByte m a v).size = m.size := by
  unfold writeByte
  split <;> rfl

/-- Writing a byte keeps the canonical form. -/
theorem writeByte_wf {m : Memory} (a : Nat) (v : Byte) (h : m.wf = true) :
    (writeByte m a v).wf = true := by
  unfold writeByte
  split
  · next ha =>
    rw [Memory.wf_iff] at h ⊢
    refine ⟨cellsSet_pairwise a v h.1, ?_⟩
    intro c hc
    rcases mem_cellsSet hc with hc | ⟨rfl, hv⟩
    · exact h.2 c hc
    · exact ⟨ha, hv⟩
  · exact h

/-- A byte after a write: the written value at its address, the old byte elsewhere. -/
theorem readByte_writeByte {m : Memory} (a b : Nat) (v : Byte) (h : m.wf = true) (ha : a < m.size) :
    readByte (writeByte m a v) b = if b = a then v else readByte m b := by
  simp only [readByte, writeByte, ha, if_true]
  exact cellsAt_cellsSet _ _ _ _ (Memory.wf_iff.mp h).1

@[simp] theorem memWrite_size (m : Memory) (a n v : Nat) : (memWrite m a n v).size = m.size := by
  induction n generalizing m a v with
  | zero => rfl
  | succ n ih => simp [memWrite, ih]

/-- A wide write keeps the canonical form. -/
theorem memWrite_wf {m : Memory} (a n v : Nat) (h : m.wf = true) :
    (memWrite m a n v).wf = true := by
  induction n generalizing m a v with
  | zero => exact h
  | succ n ih => exact ih _ _ (writeByte_wf _ _ h)

/-- A wide write leaves every byte outside its range alone. -/
theorem readByte_memWrite_of_outside {m : Memory} (a n v b : Nat) (h : m.wf = true)
    (hn : a + n ≤ m.size) (hb : b < a ∨ a + n ≤ b) :
    readByte (memWrite m a n v) b = readByte m b := by
  induction n generalizing m a v with
  | zero => rfl
  | succ n ih =>
    rw [memWrite, ih _ _ (writeByte_wf _ _ h) (by simp; omega) (by omega),
      readByte_writeByte _ _ _ h (by omega), if_neg (by omega)]

/-- A wide read depends only on its bytes. -/
theorem memRead_congr {m m' : Memory} (a n : Nat)
    (h : ∀ b, a ≤ b → b < a + n → readByte m b = readByte m' b) :
    memRead m a n = memRead m' a n := by
  induction n generalizing a with
  | zero => rfl
  | succ n ih =>
    rw [memRead, memRead, h a (Nat.le_refl _) (by omega),
      ih (a + 1) (fun b h1 h2 => h b (by omega) (by omega))]

/-- A wide read after a wide write at the same place gives the low bytes written. -/
theorem memRead_memWrite {m : Memory} (a n v : Nat) (h : m.wf = true) (hn : a + n ≤ m.size) :
    memRead (memWrite m a n v) a n = v % 256 ^ n := by
  induction n generalizing m a v with
  | zero => simp [memRead, Nat.mod_one]
  | succ n ih =>
    have hw := writeByte_wf a (BitVec.ofNat 8 v) h
    rw [memWrite, memRead, ih _ _ hw (by simp; omega),
      readByte_memWrite_of_outside _ _ _ _ hw (by simp; omega) (by omega),
      readByte_writeByte _ _ _ h (by omega), if_pos rfl, BitVec.toNat_ofNat,
      show 256 ^ (n + 1) = 256 * 256 ^ n from by ring, Nat.mod_mul]

end Sys2Proof.Machine
end

