-- ==== Sys2Proof/Laws/State.lean ====
section
/-! SUPPORT. The fields of a state after each update, one lemma per field, and what each register
operation can do. -/

namespace Sys2Proof.Machine

variable (s : State) (i : Nat) (v : Word32)

@[simp] theorem setRegister_params : (setRegister s i v).params = s.params := rfl
@[simp] theorem setRegister_program : (setRegister s i v).program = s.program := rfl
@[simp] theorem setRegister_x : (setRegister s i v).x = s.x.set i (some v) := rfl
@[simp] theorem setRegister_u : (setRegister s i v).u = s.u := rfl
@[simp] theorem setRegister_mem : (setRegister s i v).mem = s.mem := rfl
@[simp] theorem setRegister_k : (setRegister s i v).k = s.k := rfl
@[simp] theorem setRegister_halted : (setRegister s i v).halted = s.halted := rfl

@[simp] theorem advance_params : (advance s).params = s.params := rfl
@[simp] theorem advance_program : (advance s).program = s.program := rfl
@[simp] theorem advance_x : (advance s).x = s.x := rfl
@[simp] theorem advance_u : (advance s).u = s.u := rfl
@[simp] theorem advance_mem : (advance s).mem = s.mem := rfl
@[simp] theorem advance_k : (advance s).k = s.k + 1 := rfl
@[simp] theorem advance_halted : (advance s).halted = s.halted := rfl

@[simp] theorem halt_params : (halt s).params = s.params := rfl
@[simp] theorem halt_program : (halt s).program = s.program := rfl
@[simp] theorem halt_x : (halt s).x = s.x := rfl
@[simp] theorem halt_u : (halt s).u = s.u := rfl
@[simp] theorem halt_mem : (halt s).mem = s.mem := rfl
@[simp] theorem halt_k : (halt s).k = s.k := rfl
@[simp] theorem halt_halted : (halt s).halted = true := rfl

/-- Everything a register read can do (47 R333). -/
theorem readRegister_ok_iff {s : State} {i : Nat} {v : Word32} :
    readRegister s i = .ok v ↔ s.x[i]? = some (some v) := by
  unfold readRegister
  split <;> simp_all

/-- A register that reads exists. -/
theorem lt_of_readRegister {s : State} {i : Nat} {v : Word32} (h : readRegister s i = .ok v) :
    i < s.x.length :=
  (List.getElem?_eq_some_iff.mp (readRegister_ok_iff.mp h)).1

/-- A register that reads has that value. -/
theorem regValue_of_readRegister {s : State} {i : Nat} {v : Word32}
    (h : readRegister s i = .ok v) : regValue s i = v := by
  simp [regValue, readRegister_ok_iff.mp h]

/-- Everything a register write can do (47 R333). -/
theorem writeRegister_ok_iff {s t : State} {i : Nat} {v : Word32} :
    writeRegister s i v = .ok t ↔ i < s.x.length ∧ t = setRegister s i v := by
  unfold writeRegister checkRegister
  by_cases h : i < s.x.length <;> simp [h, bind, Except.bind, pure, Except.pure, eq_comm]

/-- An outcome from a meaning's result goes on exactly when the result is a state. -/
@[simp] theorem toOutcome_eq_next {r : Except Fault State} {t : State} :
    toOutcome r = .next t ↔ r = .ok t := by
  cases r <;> simp [toOutcome]

@[simp] theorem toOutcome_eq_fault {r : Except Fault State} {f : Fault} :
    toOutcome r = .fault f ↔ r = .error f := by
  cases r <;> simp [toOutcome]

end Sys2Proof.Machine
end

