-- ==== Sys2Proof/Laws/Ops.lean ====
section
/-! SUPPORT. Everything each shared operation of execution can do, once: a Mov, the checks of a
transfer, the lanes of a Load and of a Store, and a step. -/

namespace Sys2Proof.Machine

/-! ## Mov -/

/-- A Mov source answers exactly its value (47_reference_execution.md R334). -/
theorem readSource_ok_iff {s : State} {src : Operand} {v : Word32} :
    readSource s src = .ok v ↔ SourceIs s src v := by
  have low : ∀ w : Word32, w &&& 0x0000FFFF = BitVec.ofNat 32 (w.toNat % 2 ^ 16) := by
    intro w
    apply BitVec.eq_of_toNat_eq
    have := w.isLt
    rw [BitVec.toNat_and, BitVec.toNat_ofNat,
      show BitVec.toNat (0x0000FFFF : Word32) = 2 ^ 16 - 1 from rfl,
      Nat.and_two_pow_sub_one_eq_mod]
    omega
  have high : ∀ w : Word32, w >>> 16 = BitVec.ofNat 32 (w.toNat / 2 ^ 16) := by
    intro w
    apply BitVec.eq_of_toNat_eq
    have := w.isLt
    rw [BitVec.toNat_ushiftRight, BitVec.toNat_ofNat, Nat.shiftRight_eq_div_pow]
    omega
  obtain ⟨kind, se⟩ := src
  cases kind with
  | imm u => simp [readSource, SourceIs, eq_comm]
  | r32 m => simp [readSource, SourceIs, readRegister_ok_iff]
  | r16l m =>
    simp only [readSource, SourceIs]
    cases h : readRegister s m with
    | error f =>
      simp only [bind, Except.bind]
      constructor
      · intro h'
        cases h'
      · rintro ⟨w, hw, -⟩
        rw [readRegister_ok_iff.mpr hw] at h
        cases h
    | ok w =>
      have hw := readRegister_ok_iff.mp h
      simp only [bind, Except.bind, pure, Except.pure, hw, low, Except.ok.injEq, Option.some.injEq]
      simp [eq_comm]
  | r16h m =>
    simp only [readSource, SourceIs]
    cases h : readRegister s m with
    | error f =>
      simp only [bind, Except.bind]
      constructor
      · intro h'
        cases h'
      · rintro ⟨w, hw, -⟩
        rw [readRegister_ok_iff.mpr hw] at h
        cases h
    | ok w =>
      have hw := readRegister_ok_iff.mp h
      simp [bind, Except.bind, pure, Except.pure, hw, high, eq_comm]
  | r64 n => simp [readSource, SourceIs]
  | u64 n => simp [readSource, SourceIs]

/-- A destination write sets exactly the register the destination names. -/
theorem writeDest_ok {s t : State} {dest : Operand} {v : Word32} (h : writeDest s dest v = .ok t) :
    ∃ n w, destIndex dest = some n ∧ n < s.x.length ∧ t = setRegister s n w := by
  obtain ⟨kind, se⟩ := dest
  cases kind with
  | r32 n =>
    obtain ⟨hn, rfl⟩ := writeRegister_ok_iff.mp h
    exact ⟨n, v, rfl, hn, rfl⟩
  | r16l n =>
    simp only [writeDest] at h
    cases hr : readRegister s n with
    | error f =>
      rw [hr] at h
      cases h
    | ok old =>
      rw [hr] at h
      cases h
      exact ⟨n, _, rfl, lt_of_readRegister hr, rfl⟩
  | r16h n =>
    simp only [writeDest] at h
    cases hr : readRegister s n with
    | error f =>
      rw [hr] at h
      cases h
    | ok old =>
      rw [hr] at h
      cases h
      exact ⟨n, _, rfl, lt_of_readRegister hr, rfl⟩
  | imm u => simp [writeDest] at h
  | r64 n => simp [writeDest] at h
  | u64 n => simp [writeDest] at h

/-- A Mov that answers sets one register, the destination's, and advances (R334). -/
theorem moveOp_ok {s t : State} {dest src : Operand} (h : moveOp s dest src = .ok t) :
    ∃ n w, destIndex dest = some n ∧ n < s.x.length ∧ t = advance (setRegister s n w) := by
  unfold moveOp at h
  simp only [bind, Except.bind, pure, Except.pure] at h
  split at h
  · cases h
  · split at h
    · cases h
    · next s' hs' =>
      cases h
      obtain ⟨n, w, hd, hn, rfl⟩ := writeDest_ok hs'
      exact ⟨n, w, hd, hn, rfl⟩

/-! ## Transfers -/

/-- An offset answers exactly its integer (R335 step 4). -/
theorem resolveOffset_ok_iff {s : State} {off : Operand} {o : Int} :
    resolveOffset s off = .ok o ↔ OffsetIs s off o := by
  obtain ⟨kind, se⟩ := off
  cases kind with
  | imm v => simp [resolveOffset, OffsetIs, eq_comm]
  | r32 m =>
    simp only [resolveOffset, OffsetIs]
    cases h : readRegister s m with
    | error f =>
      simp only [bind, Except.bind]
      constructor
      · intro h'
        cases h'
      · rintro ⟨w, hw, -⟩
        rw [readRegister_ok_iff.mpr hw] at h
        cases h
    | ok w =>
      have hw := readRegister_ok_iff.mp h
      cases se <;> simp [bind, Except.bind, pure, Except.pure, hw, eq_comm]
  | r16l m => simp [resolveOffset, OffsetIs]
  | r16h m => simp [resolveOffset, OffsetIs]
  | r64 m => simp [resolveOffset, OffsetIs]
  | u64 m => simp [resolveOffset, OffsetIs]

/-- Step 6 for one register. -/
theorem checkTransferRegister_ok_iff {s : State} {isStore : Bool} {i : Nat} :
    checkTransferRegister s isStore i = .ok () ↔
      i < s.x.length ∧ (isStore = true → ∃ v, s.x[i]? = some (some v)) := by
  cases isStore with
  | false => simp [checkTransferRegister, checkRegister]
  | true =>
    simp only [checkTransferRegister, if_true]
    cases h : readRegister s i with
    | error f =>
      simp only [bind, Except.bind]
      constructor
      · intro h'
        cases h'
      · rintro ⟨-, hv⟩
        obtain ⟨v, hv⟩ := hv trivial
        rw [readRegister_ok_iff.mpr hv] at h
        cases h
    | ok v =>
      exact ⟨fun _ => ⟨lt_of_readRegister h, fun _ => ⟨v, readRegister_ok_iff.mp h⟩⟩, fun _ => rfl⟩

/-- Step 6 for a register list. -/
theorem checkTransferRegisters_ok_iff {s : State} {isStore : Bool} {n p : Nat} :
    checkTransferRegisters s isStore n p = .ok () ↔
      ∀ k < p, n + k < s.x.length ∧ (isStore = true → ∃ v, s.x[n + k]? = some (some v)) := by
  induction p generalizing n with
  | zero => simp [checkTransferRegisters]
  | succ p ih =>
    simp only [checkTransferRegisters]
    cases h : checkTransferRegister s isStore n with
    | error f =>
      simp only [bind, Except.bind]
      constructor
      · intro h'
        cases h'
      · intro hk
        have := checkTransferRegister_ok_iff.mpr (hk 0 (by omega))
        rw [Nat.add_zero, h] at this
        cases this
    | ok u =>
      have h0 := checkTransferRegister_ok_iff.mp h
      simp only [bind, Except.bind, ih]
      constructor
      · intro hk k hlt
        match k with
        | 0 => simpa using h0
        | k + 1 =>
          have := hk k (by omega)
          rwa [show n + (k + 1) = n + 1 + k from by omega]
      · intro hk k hlt
        have := hk (k + 1) (by omega)
        rwa [show n + 1 + k = n + (k + 1) from by omega]

/-- The checks of R335 all pass exactly when: the code names a format, the lanes are channels of it
and lie in the buffer, the list is of 32-bit registers that exist (and for a Store hold values),
and the offset resolves. -/
theorem resolveTransfer_ok_iff {s : State} {isStore : Bool} {fc mask : Nat} {reg off : Operand}
    {t : Transfer} :
    resolveTransfer s isStore fc mask reg off = .ok t ↔
      formatOfCode s.params fc = some t.format ∧ LanesInRange s t.format t.offset mask ∧
        reg.kind = .r32 t.first ∧ OffsetIs s off t.offset ∧
        ∀ k < (lanes mask).length, t.first + k < s.x.length ∧
          (isStore = true → ∃ v, s.x[t.first + k]? = some (some v)) := by
  obtain ⟨F, n, o⟩ := t
  have hreg : ∀ m, transferFirst reg = .ok m ↔ reg.kind = .r32 m := by
    intro m
    unfold transferFirst
    cases reg.kind <;> simp
  have hfmt : ∀ G, transferFormat s fc = .ok G ↔ formatOfCode s.params fc = some G := by
    intro G
    unfold transferFormat
    cases formatOfCode s.params fc <;> simp
  have hreq : ∀ (b : Bool) (f : Fault), require b f = .ok () ↔ b = true := by
    intro b f
    cases b <;> simp [require]
  rw [← checkTransferRegisters_ok_iff (isStore := isStore) (n := n), ← resolveOffset_ok_iff,
    ← hreg, ← hfmt]
  unfold resolveTransfer
  constructor
  · intro h
    simp only [bind, Except.bind, pure, Except.pure] at h
    split at h
    · cases h
    · next G hG =>
      split at h
      · cases h
      · next hch =>
        split at h
        · cases h
        · next m hm =>
          split at h
          · cases h
          · next o' ho =>
            split at h
            · cases h
            · next hin =>
              split at h
              · cases h
              · next hregs =>
                cases h
                refine ⟨hG, ?_, hm, ho, hregs⟩
                have h1 := (hreq _ _).mp hch
                have h2 := (hreq _ _).mp hin
                rw [List.all_eq_true] at h1 h2
                intro j hj
                have := h2 j hj
                simp only [elementInRange, Bool.and_eq_true, decide_eq_true_eq] at this
                exact ⟨h1 j hj, this⟩
  · rintro ⟨hF, hL, hn, ho, hregs⟩
    have h1 : (lanes mask).all F.hasChannel = true :=
      List.all_eq_true.mpr fun j hj => (hL j hj).1
    have h2 : ((lanes mask).all fun j => elementInRange s F (elementIndex F o j)) = true :=
      List.all_eq_true.mpr fun j hj => by
        simp only [elementInRange, Bool.and_eq_true, decide_eq_true_eq]
        exact (hL j hj).2
    simp only [hF, hn, ho, h1, h2, require, if_true, bind, Except.bind, pure, Except.pure, hregs]

/-- A Load that answers: its transfer resolved, and its lanes were moved (R336). -/
theorem loadOp_ok_iff {s t : State} {fc mask : Nat} {reg off : Operand} :
    loadOp s fc mask reg off = .ok t ↔
      ∃ tr, resolveTransfer s false fc mask reg off = .ok tr ∧
        t = advance (loadLanes tr (rankedLanes mask) s) := by
  unfold loadOp
  cases resolveTransfer s false fc mask reg off <;>
    simp [bind, Except.bind, pure, Except.pure, eq_comm]

/-- A Store that answers: its transfer resolved, and its lanes were moved (R337). -/
theorem storeOp_ok_iff {s t : State} {fc mask : Nat} {reg off : Operand} :
    storeOp s fc mask reg off = .ok t ↔
      ∃ tr, resolveTransfer s true fc mask reg off = .ok tr ∧
        t = advance (storeLanes tr (rankedLanes mask) s) := by
  unfold storeOp
  cases resolveTransfer s true fc mask reg off <;>
    simp [bind, Except.bind, pure, Except.pure, eq_comm]

/-! ## Lanes -/

/-- The lanes of a Load write registers only. -/
theorem loadLanes_fields (tr : Transfer) (ls : List (Nat × Nat)) (s : State) :
    (loadLanes tr ls s).params = s.params ∧ (loadLanes tr ls s).program = s.program ∧
      (loadLanes tr ls s).u = s.u ∧ (loadLanes tr ls s).mem = s.mem ∧
      (loadLanes tr ls s).k = s.k ∧ (loadLanes tr ls s).halted = s.halted ∧
      (loadLanes tr ls s).x.length = s.x.length := by
  induction ls generalizing s with
  | nil => simp [loadLanes]
  | cons l ls ih =>
    have := ih (loadLane tr s l)
    simpa [loadLanes, loadLane] using this

/-- The lanes of a Load write no register outside the list. -/
theorem loadLanes_outside (tr : Transfer) (ls : List (Nat × Nat)) (s : State) (r : Nat)
    (h : ∀ l ∈ ls, r ≠ tr.first + l.2) : (loadLanes tr ls s).x[r]? = s.x[r]? := by
  induction ls generalizing s with
  | nil => rfl
  | cons l ls ih =>
    have hr := h l (by simp)
    have := ih (loadLane tr s l) fun l' hl' => h l' (by simp [hl'])
    rw [show loadLanes tr (l :: ls) s = loadLanes tr ls (loadLane tr s l) from rfl, this]
    simp only [loadLane, setRegister_x]
    rw [List.getElem?_set_ne (by omega)]

/-- The lanes of a Store write the data buffer only, and keep its length. -/
theorem storeLanes_fields (tr : Transfer) (ls : List (Nat × Nat)) (s : State) :
    (storeLanes tr ls s).params = s.params ∧ (storeLanes tr ls s).program = s.program ∧
      (storeLanes tr ls s).u = s.u ∧ (storeLanes tr ls s).x = s.x ∧
      (storeLanes tr ls s).k = s.k ∧ (storeLanes tr ls s).halted = s.halted ∧
      (storeLanes tr ls s).mem.size = s.mem.size := by
  induction ls generalizing s with
  | nil => simp [storeLanes]
  | cons l ls ih =>
    have := ih (storeLane tr s l)
    simpa [storeLanes, storeLane] using this

/-- The lanes of a Store keep the data buffer's canonical form. -/
theorem storeLanes_wf (tr : Transfer) (ls : List (Nat × Nat)) {s : State}
    (h : s.mem.wf = true) : (storeLanes tr ls s).mem.wf = true := by
  induction ls generalizing s with
  | nil => exact h
  | cons l ls ih => exact ih (s := storeLane tr s l) (memWrite_wf _ _ _ h)

/-- The ranks of a mask's lanes are below their count. -/
theorem rank_lt {mask : Nat} {l : Nat × Nat} (h : l ∈ rankedLanes mask) :
    l.1 ∈ lanes mask ∧ l.2 < (lanes mask).length := by
  obtain ⟨j, k⟩ := l
  have := List.mem_zipIdx_iff_getElem?.mp h
  exact ⟨List.mem_of_getElem? this, (List.getElem?_eq_some_iff.mp this).1⟩

/-- An element in range lies in the data buffer as bytes. -/
theorem elementAddress_le {s : State} {F : Format} {o : Int} {j : Nat}
    (h0 : 0 ≤ elementIndex F o j) (h1 : (elementIndex F o j + 1) * F.size ≤ s.mem.size) :
    elementAddress F o j + F.size ≤ s.mem.size := by
  unfold elementAddress
  have hz : (0 : Int) ≤ elementIndex F o j * F.size := Int.mul_nonneg h0 (by omega)
  have : ((elementIndex F o j * F.size).toNat : Int) = elementIndex F o j * F.size :=
    Int.toNat_of_nonneg hz
  have h2 : (elementIndex F o j + 1) * (F.size : Int) = elementIndex F o j * F.size + F.size := by
    ring
  omega

/-- The lanes of a Store leave every byte outside their elements alone. -/
theorem storeLanes_outside (tr : Transfer) (ls : List (Nat × Nat)) {s : State} (b : Nat)
    (hwf : s.mem.wf = true)
    (hin : ∀ l ∈ ls, elementAddress tr.format tr.offset l.1 + tr.format.size ≤ s.mem.size)
    (hb : ∀ l ∈ ls, b < elementAddress tr.format tr.offset l.1 ∨
      elementAddress tr.format tr.offset l.1 + tr.format.size ≤ b) :
    readByte (storeLanes tr ls s).mem b = readByte s.mem b := by
  induction ls generalizing s with
  | nil => rfl
  | cons l ls ih =>
    rw [show storeLanes tr (l :: ls) s = storeLanes tr ls (storeLane tr s l) from rfl,
      ih (s := storeLane tr s l) (memWrite_wf _ _ _ hwf)
        (fun l' hl' => by simpa [storeLane] using hin l' (by simp [hl']))
        (fun l' hl' => hb l' (by simp [hl']))]
    exact readByte_memWrite_of_outside _ _ _ _ hwf (hin l (by simp)) (hb l (by simp))

/-! ## Steps -/

/-- Everything a step that goes on can do: stay halted, or run the fetched instruction
(47 R332). -/
theorem step_next_iff {s t : State} :
    step s = .next t ↔
      (s.halted = true ∧ t = s) ∨
        (s.halted = false ∧ ∃ i, fetch s = .ok i ∧ exec i s = .next t) := by
  unfold step
  cases s.halted with
  | true => simp [eq_comm]
  | false => cases fetch s <;> simp

end Sys2Proof.Machine
end

