-- ==== Sys2Proof/Laws/PerInstr.lean ====
section
/-! SUPPORT. The lengths of encoded words, per instruction (30_encoding.md R81). -/

namespace Sys2Proof.Laws.EncodedLength

/-- Under every configuration, a word the encoder gives has the length of its instruction's form,
and that length is 2, 4, 6 or 8 bytes (R81). -/
def Statement (i : Instr) : Prop :=
  i.length ∈ [2, 4, 6, 8] ∧
    ∀ (P : Params) (O : Buffer), encode P i = .ok O → O.length = i.length

theorem deviceLoad (fc mask : Nat) (reg base off : Operand) :
    Statement (.deviceLoad fc mask reg base off) :=
  ⟨by simp [Instr.length], fun _ _ h => packTransfer_length h⟩

theorem deviceStore (fc mask : Nat) (reg base off : Operand) :
    Statement (.deviceStore fc mask reg base off) :=
  ⟨by simp [Instr.length], fun _ _ h => packTransfer_length h⟩

theorem movHalf (dest src : Operand) : Statement (.movHalf dest src) :=
  ⟨by simp [Instr.length], fun _ _ h => formWord_length h⟩

theorem movShort (dest src : Operand) : Statement (.movShort dest src) :=
  ⟨by simp [Instr.length], fun _ _ h => formWord_length h⟩

theorem movLong (dest src : Operand) : Statement (.movLong dest src) :=
  ⟨by simp [Instr.length], fun _ _ h => formWord_length h⟩

theorem ret (reg : Operand) : Statement (.ret reg) :=
  ⟨by simp [Instr.length], fun _ _ h => packRet_length h⟩

theorem stop : Statement .stop :=
  ⟨by simp [Instr.length], fun _ _ (h : packStop = .ok _) => packFields_length h⟩

theorem wait : Statement .wait :=
  ⟨by simp [Instr.length], fun P _ (h : packWait P = .ok _) => packFields_length h⟩

end Sys2Proof.Laws.EncodedLength
end

