-- ==== Sys2Proof/Tests/Slice0.lean ====
section
/-! SUPPORT. Tests on fixed values: ill-formed terms refused, words written out from the layouts of
30_encoding.md R85–R91, single steps from the spec's examples, and for every statement with
hypotheses a theorem that meets them. -/

namespace Sys2Proof.Tests

open Sys2Proof Sys2Proof.Machine

/-! ## A configuration and small states -/

/-- A legal configuration (R84), not the machine's. -/
def params : Params :=
  ⟨0x11, 0x22, 0x33, 0x0144, ⟨0, 1, 2, 3, 4, 5, 6, 7, 8, 9, 10⟩, .sign⟩

/-- Eight registers, `x[7]` with no value, 32 bytes of data with byte 4 equal to 0x80. -/
def small : State where
  params := params
  program := .list []
  x := [some 0, some 0x11112222, some 3, some 0xFFFFFFFF, some 2, some 5, some 6, none]
  u := []
  mem := ⟨32, [(4, 0x80)]⟩
  k := 0
  halted := false

/-- A state that meets the invariant, on a program. -/
def legal (p : Program) : State :=
  { small with x := List.replicate 256 (some 0), program := p }

/-- The next state of an outcome. -/
def nextOf : Host.Outcome State Fault Refusal → Option State
  | .next t => some t
  | _ => none

/-- The fault of an outcome. -/
def faultOf : Host.Outcome State Fault Refusal → Option Fault
  | .fault f => some f
  | _ => none

theorem next_of_nextOf {o : Host.Outcome State Fault Refusal} (h : (nextOf o).isSome = true) :
    ∃ t, o = .next t := by
  cases o with
  | next t => exact ⟨t, rfl⟩
  | fault _ => simp [nextOf] at h
  | refused _ => simp [nextOf] at h

/-! ## Ill-formed terms (10 R37) -/

theorem smoke_format : (Instr.deviceLoad 16 1 (.r32 1) (.r64 2) (.immS 0)).wf = false := by decide
theorem smoke_mask_zero : (Instr.deviceLoad 2 0 (.r32 1) (.r64 2) (.immS 0)).wf = false := by decide
theorem smoke_mask_wide : (Instr.deviceStore 2 16 (.r32 1) (.r64 2) (.immS 0)).wf = false := by
  decide
theorem smoke_reglist_index : (Instr.deviceLoad 2 1 (.r32 128) (.r64 2) (.immS 0)).wf = false := by
  decide
theorem smoke_reglist_half_index :
    (Instr.deviceLoad 2 1 (.r16h 128) (.r64 2) (.immS 0)).wf = false := by decide
theorem smoke_reglist_kind : (Instr.deviceLoad 2 1 (.u64 1) (.r64 2) (.immS 0)).wf = false := by
  decide
theorem smoke_base_index : (Instr.deviceStore 2 1 (.r32 1) (.r64 128) (.immS 0)).wf = false := by
  decide
theorem smoke_base_kind : (Instr.deviceStore 2 1 (.r32 1) (.r32 2) (.immS 0)).wf = false := by
  decide
theorem smoke_offset_unsigned : (Instr.deviceStore 2 1 (.r32 1) (.r64 2) (.imm 0)).wf = false := by
  decide
theorem smoke_offset_range :
    (Instr.deviceStore 2 1 (.r32 1) (.r64 2) (.immS 16384)).wf = false := by decide
theorem smoke_offset_odd : (Instr.deviceStore 2 1 (.r32 1) (.r64 2) (.immS 2049)).wf = false := by
  decide
theorem smoke_offset_register :
    (Instr.deviceStore 2 1 (.r32 1) (.r64 2) (.r32 256)).wf = false := by decide
theorem smoke_offset_kind : (Instr.deviceStore 2 1 (.r32 1) (.r64 2) (.r16l 1)).wf = false := by
  decide
theorem smoke_half_dest : (Instr.movHalf (.r16l 32) (.imm 0)).wf = false := by decide
theorem smoke_half_dest_kind : (Instr.movHalf (.r32 1) (.imm 0)).wf = false := by decide
theorem smoke_half_imm : (Instr.movHalf (.r16l 1) (.imm 65536)).wf = false := by decide
theorem smoke_short_dest : (Instr.movShort (.r32 128) (.imm 0)).wf = false := by decide
theorem smoke_short_imm : (Instr.movShort (.r32 1) (.imm 65536)).wf = false := by decide
theorem smoke_long_imm : (Instr.movLong (.r32 1) (.imm 4294967296)).wf = false := by decide
theorem smoke_long_negative : (Instr.movLong (.r32 1) (.imm (-1))).wf = false := by decide
theorem smoke_mov_source : (Instr.movShort (.r32 1) (.r32 2)).wf = false := by decide
theorem smoke_ret : (Instr.ret (.r32 128)).wf = false := by decide

/-! ## Words written out bit by bit from the layouts (30 R85–R91) -/

/-- The instruction at the start of a buffer, under the test configuration. -/
def decoded (B : Buffer) : Except Err Instr :=
  match unpackAt params B 0 with
  | .ok (d, _) => .ok d.instr
  | .error e => .error e

/-- R88: key 1100010, flag 00, raw 000111 (r3h), long 0; then the immediate 0x1234. -/
theorem test_decode_movHalf :
    decoded [0b01100010, 0b00001110, 0x34, 0x12] = .ok (.movHalf (.r16h 3) (.imm 0x1234)) := by
  decide

/-- R86, the source's fixture: key 1100010, flag 10, raw low 001100, long 0, immediate 1, raw high
00 at bits 44–45. -/
theorem test_decode_movShort :
    decoded [0b01100010, 0b00011001, 0x01, 0x00, 0x00, 0x00] =
      .ok (.movShort (.r32 6) (.imm 1)) := by decide

/-- R87: flag 10, raw 254 = 11 111110, long 1, immediate 0xDEADBEEF, raw high 11 at bits 60–61. -/
theorem test_decode_movLong :
    decoded [0b01100010, 0b11111101, 0xEF, 0xBE, 0xAD, 0xDE, 0x00, 0b00110000] =
      .ok (.movLong (.r32 127) (.imm 0xDEADBEEF)) := by decide

/-- R85: Store, format 2, mask 1111, r6 (raw 12), base r17_r18 (raw 34), offset 4 = 1 shifted by 2:
the worked example of 45 R267 with key 0100010. -/
theorem test_decode_deviceStore :
    decoded [0b00100010, 0b00110001, 0b00010010, 0b00000111, 0b00100000, 0b11001000, 0b11110010,
      0b00000000] = .ok (.deviceStore 2 0xF (.r32 6) (.r64 17) (.immS 4)) := by decide

/-- R85: Load, format 10 (low bits 010, bit 48), mask 0101, r127 (raw 254), base u127 (raw 254, bit
27), register offset r255 (raw 510) signed (bit 25 is 0, bit 24 is 0). -/
theorem test_decode_deviceLoad :
    decoded [0b00010001, 0b11111001, 0b11101110, 0b00001100, 0b11111111, 0b11000011, 0b01010011,
      0b00000001] = .ok (.deviceLoad 10 0x5 (.r32 127) (.u64 127) (.r32S 255)) := by decide

/-- R89: key 0110011, bits 7–8 00, register 1111111. -/
theorem test_decode_ret : decoded [0b00110011, 0b11111110] = .ok (.ret (.r32 127)) := by decide

/-- R90: the fixed word 0x0088. -/
theorem test_decode_stop : decoded [0x88, 0x00] = .ok .stop := by decide

/-- R91: the configured word 0x0144. -/
theorem test_decode_wait : decoded [0x44, 0x01] = .ok .wait := by decide

/-- 42 R183 and 41 R142: raw 0x800 with shift 3 is the least offset, −16384. -/
theorem test_decode_offset_min :
    decOff ⟨1, 1, 3, 0x800⟩ = .ok (.immS (-16384)) := by decide

/-- A word of the opcode table under the machine's own configuration: Mov and Stop do not depend on
it. -/
theorem test_table_stop : decodeTableWord 16 0x0088 = some .stop := by decide

/-- The first step after the table's word is placed runs it. -/
theorem test_table_stop_runs :
    (nextOf (step (State.reset.withFetchWord 16 0x0088))).map (fun t => (t.k, t.halted)) =
      some (0, true) := by decide

/-! ## Single steps -/

/-- 47 R334: `mov r6h, 0x1234` on `x[6] = 6` keeps the low half. -/
theorem test_movHalf :
    (nextOf (exec (.movHalf (.r16h 6) (.imm 0x1234)) small)).map (fun t => (t.x[6]?, t.k)) =
      some (some (some 0x12340006), 1) := by decide

/-- 47 R343: a half write to a register with no value. -/
theorem test_movHalf_undefined :
    faultOf (exec (.movHalf (.r16l 7) (.imm 1)) small) = some .undefinedRegister := by decide

/-- 47 R334: `mov r6, 1`. -/
theorem test_movShort :
    (nextOf (exec (.movShort (.r32 6) (.imm 1)) small)).map (fun t => (t.x[6]?, t.k)) =
      some (some (some 1), 1) := by decide

/-- 47 R334: a high half as a source is zero-extended. -/
theorem test_movShort_half_source :
    (nextOf (exec (.movShort (.r32 7) (.r16h 1)) small)).map (fun t => t.x[7]?) =
      some (some (some 0x1111)) := by decide

/-- 47 R334: a 32-bit immediate. -/
theorem test_movLong :
    (nextOf (exec (.movLong (.r32 7) (.imm 0xDEADBEEF)) small)).map (fun t => t.x[7]?) =
      some (some (some 0xDEADBEEF)) := by decide

/-- 47 R336: mask 0xA pairs `r4` with element 1 and `r5` with element 3; I32 element 1 is 0x80. -/
theorem test_deviceLoad :
    (nextOf (exec (.deviceLoad 2 0xA (.r32 4) (.r64 2) (.immS 0)) small)).map
      (fun t => (t.x[4]?, t.x[5]?, t.x[6]?, t.k)) =
      some (some (some 0x80), some (some 0), some (some 6), 1) := by decide

/-- 47 R343: a load of RGB9E5 with mask 0xF. -/
theorem test_deviceLoad_no_channel :
    faultOf (exec (.deviceLoad 10 0xF (.r32 1) (.r64 2) (.immS 0)) small) = some .noChannel := by
  decide

/-- 46 R284: storing 0x11112222 as I16 at element 3 writes bytes 22 22 at 6 and 7. -/
theorem test_deviceStore :
    (nextOf (exec (.deviceStore 1 0x1 (.r32 1) (.r64 2) (.immS 3)) small)).map
      (fun t => (t.mem.cells, t.x[1]?, t.k)) =
      some ([(4, 0x80), (6, 0x22), (7, 0x22)], some (some 0x11112222), 1) := by decide

/-- 47 R343: a register offset of 0xFFFFFFFF, signed, is −1. -/
theorem test_deviceStore_negative :
    faultOf (exec (.deviceStore 2 0x1 (.r32 1) (.r64 2) (.r32S 3)) small) = some .elementRange := by
  decide

/-- 47 R338: Ret halts and leaves `k`. -/
theorem test_ret :
    (nextOf (exec (.ret (.r32 7)) small)).map (fun t => (t.k, t.halted)) = some (0, true) := by
  decide

/-- 47 R338: Stop halts and leaves `k`. -/
theorem test_stop :
    (nextOf (exec .stop small)).map (fun t => (t.k, t.halted)) = some (0, true) := by decide

/-- 47 R339: Wait advances `k`. -/
theorem test_wait :
    (nextOf (exec .wait small)).map (fun t => (t.k, t.halted)) = some (1, false) := by decide

/-! ## Converters, the spec's examples -/

/-- 46 R286: S8NORM(0x80). -/
theorem test_s8norm_load : loadNorm s8norm 0x80 = 0xBF810204 := by decide +kernel

/-- 46 R291: 0.5 into channels 0 and 3 of RGB10A2. -/
theorem test_rgb10a2_store :
    storeRgb10a2 0x3F000000 0 0 = 511 ∧ storeRgb10a2 0x3F000000 3 0 = 2 ^ 30 := by decide +kernel

/-- 46 R294: R field 0x7BF is 65024, B field 0x3DF is 64512. -/
theorem test_rg11b10f_load :
    loadRg11b10f 0x7BF 0 = 0x477E0000 ∧ loadRg11b10f (0x3DF * 2 ^ 22) 2 = 0x477C0000 := by
  decide +kernel

/-- 46 R298: the worked encodings. -/
theorem test_enc9e5 :
    enc9e5 0x3F800000 0x3F000000 0x3E800000 = 0x81010100 ∧
      enc9e5 0x7F800000 0xBF800000 0x7FC00000 = 0xF80001FF := by decide +kernel

/-- 46 R300: the exponent bump on 1.999. -/
theorem test_enc9e5_bump : enc9e5 0x3FFFDF3B 0 0 = 0x88000100 := by decide +kernel

/-- 46 R303: alpha of 0.5. -/
theorem test_srgba8_alpha : storeSrgba8 0x3F000000 3 = 127 := by decide +kernel

/-! ## Text, the spec's examples -/

/-- 30 R114: the source's example line. -/
theorem test_print_store :
    Text.printInstr params (.deviceStore 2 0xF (.r32 6) (.r64 17) (.immS 4)) =
      "device_store i32,0xF,r6_r7_r8_r9,r17_r18,4,signed;".toList := by decide

/-- 45 R268: the annotated first line of the worked example. -/
theorem test_annotated :
    Text.annotateText params [0x62, 0x19, 0x01, 0x00, 0x00, 0x00] =
      .ok "0: 62 19 01 00 00 00\tmov r6,1;\n".toList := by decide

/-- 30 R108, 00 R16: the least signed 64-bit immediate, and one below it. -/
theorem test_text_immediate :
    Text.immediate true "9223372036854775808".toList = .ok (.imm (-9223372036854775808)) ∧
      Text.immediate true "9223372036854775809".toList = .error .malformed := by decide

/-! ## Witnesses: values that meet the hypotheses of the statements, clause by clause, at the ends of
their ranges -/

/-- AccessorRefusesIllegalRanges: the widest legal range, one bit more, and an empty range. -/
theorem wit_accessor :
    (0 ≤ 55 ∧ 55 - 0 + 1 ≤ 57 ∧ 55 / 8 - 0 / 8 + 1 ≤ 7) ∧
      ¬(0 ≤ 56 ∧ 56 - 0 + 1 ≤ 57 ∧ 56 / 8 - 0 / 8 + 1 ≤ 7) ∧
      ¬(1 ≤ 0 ∧ 0 - 1 + 1 ≤ 57 ∧ 0 / 8 - 1 / 8 + 1 ≤ 7) := by decide

/-- GetBitsSumsTheBitsOfTheRange, ReadsPastTheEndAreZero: the widest range, one that straddles the
end of one byte, and one wholly past it. -/
theorem wit_getBits :
    accessorOk 0 55 = true ∧ accessorOk 4 11 = true ∧ accessorOk 8 15 = true ∧
      8 * ([0xFF] : Buffer).length ≤ 8 := by decide

/-- SetBitsOrsTheValueIntoTheRange: a value one too large, and the largest that fits. -/
theorem wit_setBits :
    accessorOk 7 8 = true ∧ 2 ^ (8 - 7 + 1) ≤ 4 ∧ 3 < 2 ^ (8 - 7 + 1) ∧ 8 / 8 < (zeros 2).length := by
  decide

/-- SetBitsPastTheEndChangesNothing: an end past the buffer, and a start past it. -/
theorem wit_setBits_past :
    accessorOk 4 11 = true ∧ 255 < 2 ^ (11 - 4 + 1) ∧ 8 * (zeros 1).length ≤ 11 ∧
      accessorOk 8 8 = true ∧ 1 < 2 ^ (8 - 8 + 1) ∧ 8 * (zeros 1).length ≤ 8 := by decide

/-- DisjointFieldsKeepTheirValues, with the ranges on either side. -/
theorem wit_disjoint :
    accessorOk 7 8 = true ∧ 2 < 2 ^ (8 - 7 + 1) ∧ 8 / 8 < (zeros 2).length ∧
      getBits (zeros 2) 7 8 = .ok 0 ∧ 6 < 7 ∧ 8 < 9 := by decide

/-- OperandCodecInverse: each role at the ends of its range. -/
theorem wit_operands :
    encOff (.immS (-16384)) = .ok ⟨1, 1, 3, 0x800⟩ ∧ encOff (.r32S 255) = .ok ⟨0, 0, 0, 510⟩ ∧
      encBase (.u64 127) = .ok ⟨1, 254⟩ ∧ encReg (.r16h 127) = .ok ⟨0, 255⟩ ∧
      encDst (.r16h 31) = .ok ⟨0, 63⟩ ∧ encDst (.r32 127) = .ok ⟨2, 254⟩ ∧
      decBase ⟨0, 254⟩ = .ok (.r64 127) ∧ decReg ⟨1, 254⟩ = .ok (.r32 127) ∧
      decReg ⟨0, 255⟩ = .ok (.r16h 127) ∧ decDst ⟨0, 63⟩ = .ok (.r16h 31) ∧
      decDst ⟨2, 254⟩ = .ok (.r32 127) ∧ decOff ⟨0, 1, 0, 510⟩ = .ok (.r32 255) ∧
      decOff ⟨1, 1, 1, 0xFFF⟩ = .ok (.immS (-2)) ∧
      1 = offsetShift (sext 12 0xFFF * 2 ^ 1) := by decide

/-- CompressTakesExactlyTheFittingOffsets: the greatest offset fits, and the next multiple of 8 does
not. -/
theorem wit_compress :
    (∃ (q : Int) (s : Nat), 16376 = q * 2 ^ s ∧ -2048 ≤ q ∧ q ≤ 2047 ∧ s ≤ 3) ∧
      ¬∃ (q : Int) (s : Nat), 16384 = q * 2 ^ s ∧ -2048 ≤ q ∧ q ≤ 2047 ∧ s ≤ 3 := by
  refine ⟨⟨2047, 3, by decide⟩, ?_⟩
  rintro ⟨q, s, h, -, hq, hs⟩
  interval_cases s <;> omega

/-- One well-formed instruction in canonical form per constructor, operands at the ends of their
ranges. -/
def boundary : List Instr :=
  [.deviceLoad 15 0xF (.r16h 127) (.u64 127) (.immS (-16384)),
    .deviceStore 0 0x1 (.r32 0) (.r64 0) (.r32S 255), .movHalf (.r16h 31) (.imm 65535),
    .movShort (.r32 127) (.imm 65535), .movLong (.r32 0) (.imm 4294967295), .stop, .wait]

/-- DecodeOfEncode, DisassembleOfAssemble, PrintedTextParsesBack. -/
theorem wit_boundary :
    params.valid = true ∧ (∀ i ∈ boundary, i.wf = true ∧ i.canonical = i ∧ ∀ r, i ≠ .ret r) ∧
      (Instr.ret (.r32 127)).wf = true ∧ (Instr.ret (.r32 127)).canonical = .ret (.r32 127) ∧
      (Instr.movLong (.r32 127) (.imm 0)).wf = true := by
  refine ⟨by decide, ?_, by decide, by decide, by decide⟩
  simp only [boundary, List.forall_mem_cons]
  simp [Instr.wf, Instr.canonical, canonicalMov, transferFieldsWF, Operand.isRegList, Operand.isBase,
    Operand.isOffset, Operand.isHalfDest, Operand.isReg128, Operand.isImmBelow, offsetFits]

/-- PackOfDecode and DecodedInstructionsAreWellFormed: a canonical word, a long Mov with a small
immediate, and a Store whose offset 4 is written with shift 0. -/
theorem wit_decode :
    (unpackAt params [0x88, 0x00] 0 = .ok (⟨.stop, [0x88, 0x00]⟩, 2) ∧
      (⟨.stop, [0x88, 0x00]⟩ : Decoded).canonical = true) ∧
    (unpackAt params [0x62, 0x8D, 1, 0, 0, 0, 0, 0] 0 =
        .ok (⟨.movLong (.r32 3) (.imm 1), [0x62, 0x8D, 1, 0, 0, 0, 0, 0]⟩, 8) ∧
      (⟨.movLong (.r32 3) (.imm 1), [0x62, 0x8D, 1, 0, 0, 0, 0, 0]⟩ : Decoded).canonical = false) ∧
    (unpackAt params [0x22, 0x31, 0x42, 0x07, 0x20, 0xC0, 0xF2, 0x00] 0 =
        .ok (⟨.deviceStore 2 0xF (.r32 6) (.r64 17) (.immS 4),
          [0x22, 0x31, 0x42, 0x07, 0x20, 0xC0, 0xF2, 0x00]⟩, 8) ∧
      (⟨.deviceStore 2 0xF (.r32 6) (.r64 17) (.immS 4),
        [0x22, 0x31, 0x42, 0x07, 0x20, 0xC0, 0xF2, 0x00]⟩ : Decoded).canonical = false) := by
  decide

/-- MovPacksLongFromTwoToTheSixteen: either side of `2^16`. -/
theorem wit_mov_long :
    127 < 128 ∧ 0 ≤ (65535 : Imm64).toInt ∧ ¬2 ^ 16 ≤ (65535 : Imm64).toInt ∧
      2 ^ 16 ≤ (65536 : Imm64).toInt ∧ (4294967295 : Imm64).toInt < 2 ^ 32 := by decide

/-- UnknownKeysFailTheStream. -/
theorem wit_unknown_key :
    disassemble params [0x88, 0x00] = .ok [(0, ⟨.stop, [0x88, 0x00]⟩)] ∧
      2 ≤ ([0x7F, 0x00] : Buffer).length ∧ readBits [0x7F, 0x00] 0 6 ∉ params.keys := by decide

/-- TruncatedWordsExceedTheBuffer: one byte, and a 32-bit Mov cut to four (45 R265). -/
theorem wit_truncated :
    ([0x62] : Buffer).length < 0 + 2 ∧ 0 + 2 ≤ ([0x62, 0x19, 0x01, 0x00] : Buffer).length ∧
      wordLength params ((([0x62, 0x19, 0x01, 0x00] : Buffer).drop 0).take 2) 0 = .ok 6 ∧
      ([0x62, 0x19, 0x01, 0x00] : Buffer).length < 0 + 6 := by decide

/-- ReservedMovFlagsAreRefused: flags 1 and 3, and flag 0 with the long flag. -/
theorem wit_reserved_flags :
    (readBits [0xE2, 0x00] 0 6 = 0x62 ∧ readBits [0xE2, 0x00] 7 8 = 1) ∧
    (readBits [0xE2, 0x01] 0 6 = 0x62 ∧ readBits [0xE2, 0x01] 7 8 = 3) ∧
    (readBits [0x62, 0x80] 0 6 = 0x62 ∧ readBits [0x62, 0x80] 7 8 = 0 ∧
      readBits [0x62, 0x80] 15 15 = 1) := by decide

/-- ReservedMovAndRetBitsAreRefused: each unused field of a short and of a long Mov, an odd raw
destination of each, and a Ret word with bit 7 set. -/
theorem wit_reserved_bits :
    params.valid = true ∧
    (readBits [0x62, 0x19, 1, 0, 1, 0] 0 6 = 0x62 ∧ readBits [0x62, 0x19, 1, 0, 1, 0] 7 8 = 2 ∧
      readBits [0x62, 0x19, 1, 0, 1, 0] 15 15 = 0 ∧ readBits [0x62, 0x19, 1, 0, 1, 0] 32 43 ≠ 0) ∧
    readBits [0x62, 0x19, 1, 0, 0, 0x80] 46 47 ≠ 0 ∧
    (readBits [0x62, 0x1B, 1, 0, 0, 0] 7 8 = 2 ∧ readBits [0x62, 0x1B, 1, 0, 0, 0] 32 43 = 0 ∧
      readBits [0x62, 0x1B, 1, 0, 0, 0] 46 47 = 0 ∧
      readBits [0x62, 0x1B, 1, 0, 0, 0] 9 14 % 2 = 1) ∧
    (readBits [0x62, 0x99, 1, 0, 0, 0, 1, 0] 7 8 = 2 ∧
      readBits [0x62, 0x99, 1, 0, 0, 0, 1, 0] 15 15 = 1 ∧
      readBits [0x62, 0x99, 1, 0, 0, 0, 1, 0] 48 59 ≠ 0) ∧
    readBits [0x62, 0x99, 1, 0, 0, 0, 0, 0x80] 62 63 ≠ 0 ∧
    (readBits [0x62, 0x9B, 1, 0, 0, 0, 0, 0] 15 15 = 1 ∧
      readBits [0x62, 0x9B, 1, 0, 0, 0, 0, 0] 48 59 = 0 ∧
      readBits [0x62, 0x9B, 1, 0, 0, 0, 0, 0] 62 63 = 0 ∧
      readBits [0x62, 0x9B, 1, 0, 0, 0, 0, 0] 9 14 % 2 = 1) ∧
    (readBits [0xB3, 0x00] 0 6 = params.opcRet.toNat ∧ readBits [0xB3, 0x00] 7 8 ≠ 0) := by decide

/-- The Store word of the worked example with some of its bits flipped. -/
def flipped (bits : Nat) : Buffer :=
  toBytes 8 (0x00F2C82007123122 ^^^ bits)

/-- TransferWordsAreCheckedInOrder: a word for each of the ten checks, and one that passes. -/
theorem wit_transfer_checks :
    params.valid = true ∧ 0 + 8 ≤ (flipped 0).length ∧
    readBits (flipped 0) 0 6 = params.opcStore.toNat ∧
    readBits (flipped (2 ^ 26)) 26 26 ≠ 1 ∧
    (readBits (flipped (2 ^ 28)) 26 26 = 1 ∧ readBits (flipped (2 ^ 28)) 28 31 ≠ 0) ∧
    (readBits (flipped (2 ^ 44)) 28 31 = 0 ∧ readBits (flipped (2 ^ 44)) 44 46 ≠ 4) ∧
    (readBits (flipped (2 ^ 51)) 44 46 = 4 ∧ readBits (flipped (2 ^ 51)) 50 51 ≠ 0) ∧
    (readBits (flipped (2 ^ 47)) 50 51 = 0 ∧ readBits (flipped (2 ^ 47)) 47 47 ≠ 1) ∧
    (readBits (flipped (2 ^ 63)) 47 47 = 1 ∧ readBits (flipped (2 ^ 63)) 60 63 ≠ 0) ∧
    (readBits (flipped (15 * 2 ^ 52)) 60 63 = 0 ∧ readBits (flipped (15 * 2 ^ 52)) 52 55 = 0) ∧
    decReg (regFieldsOf (flipped (2 ^ 10))) = .error .memregLsb ∧
    decBase (baseFieldsOf (flipped (2 ^ 16))) = .error .baseLsb ∧
    decOff (offsetFieldsOf (flipped (2 ^ 25))) = .error .offsetSignExtend ∧
    decOff (offsetFieldsOf (flipped 0)) = .ok (.immS 4) := by decide

/-- FixedWordsAreExact: the fixed words, and words with their keys that are not. -/
theorem wit_fixed_words :
    (readBits [0x88, 0x00] 0 6 = 0x08 ∧ readBits [0x88, 0x00] 0 15 = 0x0088) ∧
    (readBits [0x08, 0x00] 0 6 = 0x08 ∧ readBits [0x08, 0x00] 0 15 ≠ 0x0088) ∧
    (readBits [0x44, 0x01] 0 6 = params.waitWord.toNat % 128 ∧
      readBits [0x44, 0x01] 0 15 = params.waitWord.toNat) ∧
    (readBits [0x44, 0x00] 0 6 = params.waitWord.toNat % 128 ∧
      readBits [0x44, 0x00] 0 15 ≠ params.waitWord.toNat) := by decide

/-- DisassemblyCoversTheBuffer, AssembleOfDisassemble, StepRunsTheDecodedInstruction: two words, all
canonical. -/
theorem wit_stream :
    disassemble params [0x44, 0x01, 0x88, 0x00] =
        .ok [(0, ⟨.wait, [0x44, 0x01]⟩), (2, ⟨.stop, [0x88, 0x00]⟩)] ∧
      (⟨.wait, [0x44, 0x01]⟩ : Decoded).canonical = true ∧
      (legal (.code [0x44, 0x01, 0x88, 0x00])).halted = false ∧
      (legal (.code [0x44, 0x01, 0x88, 0x00])).x[0]? = some (some 0) := by decide

/-- StepRunsTheListedInstruction, and StepFaultsBeforeRunning clause by clause: a buffer that does
not decode, a nonzero `x[0]` at entry, an `x[0]` with no value, the end of the list. -/
theorem wit_step :
    ((legal (.list [.wait])).halted = false ∧
      (legal (.list [.wait])).x[0]? = some (some 0)) ∧
    disassemble params [0x7F, 0x00] = .error (.unknownOpcode 0x7F 0) ∧
    (programList { legal (.list []) with x := [some 1] } = .ok [] ∧
      ([some 1] : List (Option Word32))[0]? ≠ some (some 0)) ∧
    (programList { legal (.list []) with x := [none] } = .ok [] ∧
      ([none] : List (Option Word32))[0]? ≠ some (some 0)) ∧
    (programList (legal (.list [])) = .ok [] ∧ ([] : List Instr).length ≤ (legal (.list [])).k) := by
  decide

/-- HaltedMachinesStay. -/
theorem wit_halted : ({ small with halted := true } : State).halted = true := by decide

/-- StepKeepsTheInvariant, StepKeepsTheCursorInTheProgram, StepKeepsWhatTheCallerFixed,
StepKeepsRegistersDefined: a legal state whose step stores. -/
theorem wit_step_keeps :
    let s := legal (.list [.deviceStore 2 0x1 (.r32 1) (.r64 2) (.immS 7), .stop])
    s.Inv ∧ s.CursorIn ∧ (∃ t, step s = .next t) ∧ s.x[255]? = some (some 0) := by
  refine ⟨⟨by decide, by decide, by decide +kernel⟩, ⟨_, rfl, by decide⟩,
    next_of_nextOf (by decide), by decide +kernel⟩

/-- OnlyRetAndStopHalt, OnlyStoreWritesMemory: a next state of every kind of instruction. -/
theorem wit_next :
    (∃ t, exec (.ret (.r32 1)) small = .next t) ∧ (∃ t, exec .stop small = .next t) ∧
      (∃ t, exec .wait small = .next t) ∧
      (∃ t, exec (.movHalf (.r16h 1) (.imm 1)) small = .next t) ∧
      (∃ t, exec (.deviceLoad 2 0x1 (.r32 7) (.r64 2) (.immS 7)) small = .next t) ∧
      ∃ t, exec (.deviceStore 2 0x1 (.r32 6) (.r64 2) (.immS 7)) small = .next t := by
  refine ⟨?_, ?_, ?_, ?_, ?_, ?_⟩ <;> exact next_of_nextOf (by decide)

/-- MovWritesItsDestination: every source kind, and for each destination kind the last register that
can take it; a 32-bit destination needs no old value. -/
theorem wit_mov :
    SourceIs small (.imm 0xFFFFFFFF) 0xFFFFFFFF ∧ SourceIs small (.r32 6) 6 ∧
      SourceIs small (.r16l 3) 0xFFFF ∧ SourceIs small (.r16h 3) 0xFFFF ∧
      7 < small.x.length ∧ small.x[7]? = some none ∧ small.x[6]? = some (some 6) ∧
      small.x[0]? = some (some 0) := by
  refine ⟨by unfold SourceIs; decide, by unfold SourceIs; decide, ⟨0xFFFFFFFF, by decide⟩,
    ⟨0xFFFFFFFF, by decide⟩, by decide, by decide, by decide, by decide⟩

/-- MovFaultsOnItsRegisters: the first register that does not exist, and one with no value. -/
theorem wit_mov_faults :
    small.x.length ≤ 8 ∧ small.x[7]? = some none ∧ SourceIs small (.imm 0) 0 := by
  refine ⟨by decide, by decide, by unfold SourceIs; decide⟩

/-- MovFrame: a Mov of each form that goes on. -/
theorem wit_mov_frame :
    (∃ t, exec (.movHalf (.r16l 6) (.imm 1)) small = .next t) ∧
      (∃ t, exec (.movShort (.r32 7) (.imm 1)) small = .next t) ∧
      (∃ t, exec (.movLong (.r32 0) (.imm 65536)) small = .next t) ∧
      destIndex (.r32 7) ≠ some 6 := by
  refine ⟨next_of_nextOf (by decide), next_of_nextOf (by decide), next_of_nextOf (by decide),
    by decide⟩

/-- LoadMovesTheLanesOfTheMask, LoadFrame, StoreFrame: four lanes up to the last byte of the buffer
and the last register, by an immediate offset and by a register one. -/
theorem wit_load :
    formatOfCode small.params 2 = some .i32 ∧ LanesInRange small .i32 4 0xF ∧
      OffsetIs small (.immS 4) 4 ∧ OffsetIs small (.r32S 3) (-1) ∧
      OffsetIs small (.r32 3) 4294967295 ∧ (∀ k < (lanes 0xF).length, 4 + k < small.x.length) ∧
      (∃ t, exec (.deviceLoad 2 0xF (.r32 4) (.r64 2) (.immS 4)) small = .next t) ∧
      ∃ t, exec (.deviceStore 2 0xF (.r32 3) (.r64 2) (.immS 4)) small = .next t := by
  refine ⟨by decide, by unfold LanesInRange; decide, rfl, ⟨0xFFFFFFFF, by decide⟩,
    ⟨0xFFFFFFFF, by decide⟩, by decide, next_of_nextOf (by decide), next_of_nextOf (by decide)⟩

/-- StoreMovesTheLanesOfTheMask: a per-lane format and a packed one, up to the last byte. -/
theorem wit_store :
    small.mem.wf = true ∧ Format.i32.packed = false ∧ LanesInRange small .i32 6 0x3 ∧
      Format.rgb10a2.packed = true ∧ LanesInRange small .rgb10a2 7 0x9 ∧
      1 ≤ (lanes 0x9).length ∧ OffsetIs small (.immS 6) 6 ∧ OffsetIs small (.immS 7) 7 ∧
      ∀ k < (lanes 0x9).length,
        small.x[5 + k]? = some (some ((fun n => if n = 0 then 5 else 6 : Nat → Word32) k)) := by
  refine ⟨by decide, by decide, by unfold LanesInRange; decide, by decide,
    by unfold LanesInRange; decide, by decide, rfl, rfl, by decide⟩

/-- MaskOneStoreWritesOneElement: the last element of the buffer. -/
theorem wit_mask_one :
    small.mem.wf = true ∧ formatOfCode small.params 2 = some .i32 ∧
      small.x[6]? = some (some 6) ∧ OffsetIs small (.immS 7) (7 : Nat) ∧
      (7 + 1) * 4 ≤ small.mem.size := by
  refine ⟨by decide, by decide, by decide, rfl, by decide⟩

/-- TransferFaultsInOrder, clause by clause: an unnamed code; a lane with no channel; a half list; an
offset register that does not exist and one with no value; an element before the buffer and one just
past it; for a Store, a register list that runs into a register with no value and one past the file;
for a Load, one past the file behind a register with no value. -/
theorem wit_transfer_faults :
    formatOfCode small.params 11 = none ∧
    (formatOfCode small.params 10 = some .rgb9e5 ∧ ∃ j ∈ lanes 0x8, Format.rgb9e5.hasChannel j = false) ∧
    ((∀ j ∈ lanes 0x7, Format.rgb9e5.hasChannel j = true) ∧ ∀ n, (Operand.r16l 2).kind ≠ .r32 n) ∧
    (small.x.length ≤ 8 ∧ small.x[7]? = some none) ∧
    (OffsetIs small (.immS (-1)) (-1) ∧ ∃ j ∈ lanes 0x1, elementIndex .i32 (-1) j < 0) ∧
    (OffsetIs small (.immS 8) 8 ∧
      ∃ j ∈ lanes 0x1, (small.mem.size : Int) < (elementIndex .i32 8 j + 1) * Format.i32.size) ∧
    (LanesInRange small .i32 0 0x3 ∧ 1 < (lanes 0x3).length ∧
      (∀ k' < 1, ∃ w, small.x[6 + k']? = some (some w)) ∧ small.x[6 + 1]? = some none ∧
      (∀ k' < 0, ∃ w, small.x[8 + k']? = some (some w)) ∧ small.x.length ≤ 8 + 0) ∧
    (small.x[7 + 0]? = some none ∧ small.x.length ≤ 7 + 1) := by
  refine ⟨by decide, ⟨by decide, 3, by decide⟩, ⟨by decide, by simp⟩, by decide,
    ⟨rfl, 0, by decide⟩, ⟨rfl, 0, by decide⟩,
    ⟨by unfold LanesInRange; decide, by decide, ?_, by decide, by simp, by decide⟩, by decide⟩
  intro k' hk
  interval_cases k'
  exact ⟨6, by decide⟩

/-- RoundingIsNearestEven: the last real below the overflow midpoint that is a multiple of 1/3, and
the midpoint. -/
theorem wit_rounding :
    0 < 3 ∧ (2 ^ 25 - 1) * 2 ^ 103 * 3 - 1 < (2 ^ 25 - 1) * 2 ^ 103 * 3 ∧ 0 < 1 ∧
      (2 ^ 25 - 1) * 2 ^ 103 * 1 ≤ (2 ^ 25 - 1) * 2 ^ 103 := by decide

/-- NormsSurviveLoadThenStore: the last raw value of the narrowest and of the widest format. -/
theorem wit_norms :
    s8norm ∈ [u8norm, s8norm, u16norm, s16norm] ∧ 255 < 2 ^ s8norm.bits ∧
      u16norm ∈ [u8norm, s8norm, u16norm, s16norm] ∧ 65535 < 2 ^ u16norm.bits := by decide

/-- FloatChannelLoadsAreExact: channel 2 of an RG11B10F word with exponent 0, the greatest finite
one, and 31. -/
theorem wit_float_channels :
    2 < 3 ∧ 0x001 * 2 ^ 22 / 2 ^ (11 * 2 + 5) % 2 ^ 5 = 0 ∧
      0x3DF * 2 ^ 22 / 2 ^ (11 * 2 + 5) % 2 ^ 5 = 30 ∧
      0x3E0 * 2 ^ 22 / 2 ^ (11 * 2 + 5) % 2 ^ 5 = 31 := by decide

/-- IntegerFormatsExtendAndTruncate, Rgb10a2StoreWritesOneChannel, Rg11b10fStoreWritesOneChannel: the
last values of each range. -/
theorem wit_formats :
    255 < 2 ^ 8 ∧ 65535 < 2 ^ 16 ∧ 3 < 4 ∧ 2 < 3 ∧ 4294967295 < 2 ^ 32 ∧ (0 ≠ 3) := by decide

/-- Rgb9e5QuantizesWithinHalfAStep: the greatest channel value, zero, and the least subnormal. -/
theorem wit_rgb9e5 :
    f32Val 0x477F8000 = .fin false (65408 * 2 ^ unitBits) ∧ f32Val 0 = .fin false 0 ∧
      f32Val 1 = .fin false 2 := by decide +kernel

/-- AssembledTextPrintsCanonically. -/
theorem wit_text :
    params.valid = true ∧
      Text.assembleText params "mov  r6, 1 ;stop".toList =
        .ok [0x62, 0x19, 0x01, 0x00, 0x00, 0x00, 0x88, 0x00] := by decide

/-- RetPrintsButDoesNotParse: the last register. -/
theorem wit_ret_text : 127 < 128 := by decide

end Sys2Proof.Tests
end

section
/-! SUPPORT. What each decoder answers when it accepts: the operand decoders, the unpackers of the
six word kinds, and one decode step (41_operand_codec.md R140–R149, 42–44, 45_stream_codec.md R261).
-/

namespace Sys2Proof

/-- A sequence of checks answers when its first part answers and the rest answers on that value. -/
theorem except_bind_ok_iff {ε α β : Type} {x : Except ε α} {f : α → Except ε β} {b : β} :
    (x >>= f) = .ok b ↔ ∃ a, x = .ok a ∧ f a = .ok b := by
  cases x <;> simp [bind, Except.bind]

@[simp] theorem check_ok_iff {c : Bool} {f : Field} {u : Unit} : check c f = .ok u ↔ c = true := by
  cases c <;> simp [check]

@[simp] theorem atPlace_ok_iff {α : Type} {p : Place} {r : Except Field α} {a : α} :
    atPlace p r = .ok a ↔ r = .ok a := by
  cases r <;> simp [atPlace]

/-! ## Operand decoders -/

/-- The operand of an accepted register-list field names a register the field can hold (R147). -/
theorem isRegList_of_decReg {f : RegFields} {op : Operand} (hraw : f.raw < 256)
    (h : decReg f = .ok op) : op.isRegList = true := by
  have hn : f.raw / 2 < 128 := by omega
  unfold decReg at h
  split at h
  · obtain ⟨-, -, h⟩ := except_bind_ok_iff.mp h
    cases h
    simpa [Operand.isRegList] using hn
  · cases h
    unfold halfOperand
    split <;> simpa [Operand.isRegList] using hn

/-- The operand of an accepted base field is a pair the field can hold (R145). -/
theorem isBase_of_decBase {f : BaseFields} {op : Operand} (hraw : f.raw < 256)
    (h : decBase f = .ok op) : op.isBase = true := by
  have hn : f.raw / 2 < 128 := by omega
  obtain ⟨-, -, h⟩ := except_bind_ok_iff.mp h
  cases h
  split <;> simpa [Operand.isBase] using hn

/-- Every 12-bit raw offset and 2-bit shift spells an offset an instruction can hold (R183). -/
theorem offsetFits_sext_mul {raw shift : Nat} (hraw : raw < 4096) (hshift : shift < 4) :
    offsetFits (sext 12 raw * 2 ^ shift) = true := by
  have hlo : -2048 ≤ sext 12 raw := by unfold sext; split <;> omega
  have hhi : sext 12 raw ≤ 2047 := by unfold sext; split <;> omega
  have hcases : shift = 0 ∨ shift = 1 ∨ shift = 2 ∨ shift = 3 := by omega
  obtain rfl | rfl | rfl | rfl := hcases <;> simp [offsetFits, hlo, hhi]

/-- The operand of an accepted offset field is a memory offset (R142). -/
theorem isOffset_of_decOff {f : OffsetFields} {op : Operand} (hraw : f.raw < 4096)
    (hshift : f.shift < 4) (h : decOff f = .ok op) : op.isOffset = true := by
  unfold decOff at h
  split at h
  · obtain ⟨-, -, h⟩ := except_bind_ok_iff.mp h
    cases h
    rw [Operand.isOffset, imm64_toInt_offset hraw hshift]
    exact offsetFits_sext_mul hraw hshift
  · obtain ⟨-, -, h⟩ := except_bind_ok_iff.mp h
    obtain ⟨-, -, h⟩ := except_bind_ok_iff.mp h
    obtain ⟨_, hn, h⟩ := except_bind_ok_iff.mp h
    cases h
    exact check_ok_iff.mp hn

/-- A half-register destination field decodes to a half register it can hold (R149). -/
theorem isHalfDest_of_decDst {raw : Nat} {op : Operand} (hraw : raw < 64)
    (h : decDst ⟨0, raw⟩ = .ok op) : op.isHalfDest = true := by
  have hn : raw / 2 < 32 := by omega
  cases h
  unfold halfOperand
  split <;> simpa [Operand.isHalfDest] using hn

/-- A 32-bit destination field decodes to a register it can hold (R149). -/
theorem isReg128_of_decDst {raw : Nat} {op : Operand} (hraw : raw < 256)
    (h : decDst ⟨2, raw⟩ = .ok op) : op.isReg128 = true := by
  have hn : raw / 2 < 128 := by omega
  obtain ⟨-, -, h⟩ := except_bind_ok_iff.mp h
  cases h
  simpa [Operand.isReg128] using hn

/-- The immediate of a Mov word lies below any bound its field's width gives (R212). -/
theorem isImmBelow_ofNat {v bound : Nat} (hv : v < bound) (hb : bound ≤ 2 ^ 63) :
    (Operand.imm (BitVec.ofNat 64 v)).isImmBelow bound = true := by
  rw [Operand.isImmBelow, imm64_toInt_ofNat (by omega)]
  simpa using hv

/-! ## Fields of a word -/

theorem regFieldsOf_raw_lt (W : Buffer) : (regFieldsOf W).raw < 256 := by
  have h1 := readBits_lt W 10 15
  have h2 := readBits_lt W 40 41
  simp only [regFieldsOf]
  omega

theorem baseFieldsOf_raw_lt (W : Buffer) : (baseFieldsOf W).raw < 256 := by
  have h1 := readBits_lt W 16 19
  have h2 := readBits_lt W 36 39
  simp only [baseFieldsOf]
  omega

theorem offsetFieldsOf_raw_lt (W : Buffer) : (offsetFieldsOf W).raw < 4096 := by
  have h1 := readBits_lt W 20 23
  have h2 := readBits_lt W 32 35
  have h3 := readBits_lt W 56 59
  simp only [offsetFieldsOf]
  omega

theorem offsetFieldsOf_shift_lt (W : Buffer) : (offsetFieldsOf W).shift < 4 :=
  readBits_lt W 42 43

theorem formatCodeOf_le (W : Buffer) : formatCodeOf W ≤ 15 := by
  have h1 := readBits_lt W 7 9
  have h2 := readBits_lt W 48 48
  simp only [formatCodeOf]
  omega

/-! ## Unpackers -/

/-- A Load or Store word is accepted exactly when its fixed bits are right and its three operand
fields decode (42 R184). -/
theorem unpackTransfer_ok_iff {make : Nat → Nat → Operand → Operand → Operand → Instr} {W : Buffer}
    {i : Instr} :
    unpackTransfer make W = .ok i ↔
      checkTransferBits W = .ok () ∧ ∃ reg base off, decReg (regFieldsOf W) = .ok reg ∧
        decBase (baseFieldsOf W) = .ok base ∧ decOff (offsetFieldsOf W) = .ok off ∧
        i = make (formatCodeOf W) (readBits W 52 55) reg base off := by
  simp [unpackTransfer, except_bind_ok_iff, pure, Except.pure, eq_comm (b := i), Unique.exists_iff]

/-- The fixed bits are right exactly when each of the seven checks on them passes (42 R181). -/
theorem checkTransferBits_ok_iff {W : Buffer} :
    checkTransferBits W = .ok () ↔
      readBits W 26 26 = 1 ∧ readBits W 28 31 = 0 ∧ readBits W 44 46 = 4 ∧ readBits W 50 51 = 0 ∧
        readBits W 47 47 = 1 ∧ readBits W 60 63 = 0 ∧ readBits W 52 55 ≠ 0 := by
  simp [checkTransferBits, except_bind_ok_iff]

/-- The fields of an accepted Load or Store word are well-formed. -/
theorem transferFieldsWF_of_unpackTransfer
    {make : Nat → Nat → Operand → Operand → Operand → Instr} {W : Buffer} {i : Instr}
    (h : unpackTransfer make W = .ok i) :
    ∃ fc mask reg base off, i = make fc mask reg base off ∧
      transferFieldsWF fc mask reg base off = true := by
  obtain ⟨hbits, reg, base, off, hreg, hbase, hoff, rfl⟩ := unpackTransfer_ok_iff.mp h
  obtain ⟨-, -, -, -, -, -, hmask⟩ := checkTransferBits_ok_iff.mp hbits
  refine ⟨_, _, reg, base, off, rfl, ?_⟩
  have hmask_le : readBits W 52 55 ≤ 15 := Nat.le_of_lt_succ (readBits_lt W 52 55)
  simp [transferFieldsWF, formatCodeOf_le, Nat.one_le_iff_ne_zero, hmask, hmask_le,
    isRegList_of_decReg (regFieldsOf_raw_lt W) hreg,
    isBase_of_decBase (baseFieldsOf_raw_lt W) hbase,
    isOffset_of_decOff (offsetFieldsOf_raw_lt W) (offsetFieldsOf_shift_lt W) hoff]

/-- Everything an accepted Mov word can be: one of the three forms, chosen by the destination flag
and the long flag, with its unused bits 0 (43 R211, R213). -/
theorem unpackMov_ok_iff {W : Buffer} {i : Instr} :
    unpackMov W = .ok i ↔
      (readBits W 7 8 = 0 ∧ ∃ dest, decDst ⟨0, readBits W 9 14⟩ = .ok dest ∧
        i = .movHalf dest (.imm (BitVec.ofNat 64 (readBits W 16 31)))) ∨
      (readBits W 7 8 ≠ 0 ∧ readBits W 15 15 = 0 ∧
        readBits W 32 43 = 0 ∧ readBits W 46 47 = 0 ∧
        ∃ dest, decDst ⟨2, readBits W 9 14 + 64 * readBits W 44 45⟩ = .ok dest ∧
          i = .movShort dest (.imm (BitVec.ofNat 64 (readBits W 16 31)))) ∨
      (readBits W 7 8 ≠ 0 ∧ readBits W 15 15 ≠ 0 ∧
        readBits W 48 59 = 0 ∧ readBits W 62 63 = 0 ∧
        ∃ dest, decDst ⟨2, readBits W 9 14 + 64 * readBits W 60 61⟩ = .ok dest ∧
          i = .movLong dest (.imm (BitVec.ofNat 64 (readBits W 16 47)))) := by
  unfold unpackMov
  split
  · next hflag => simp [hflag, except_bind_ok_iff, pure, Except.pure, eq_comm (b := i)]
  · next hflag =>
    split
    · next hlong => simp [hflag, hlong, except_bind_ok_iff, pure, Except.pure, eq_comm (b := i)]
    · next hlong => simp [hflag, hlong, except_bind_ok_iff, pure, Except.pure, eq_comm (b := i)]

/-- A register field of a 32-bit Mov destination, 6 bits and 2 bits, fits 8 bits (30 R87, R88). -/
theorem destField_lt (W : Buffer) {hi : Nat} :
    readBits W 9 14 + 64 * readBits W hi (hi + 1) < 256 := by
  have h1 := readBits_lt W 9 14
  have h2 := readBits_lt W hi (hi + 1)
  rw [show hi + 1 + 1 - hi = 2 by omega] at h2
  omega

/-- An accepted Mov word is a well-formed instruction. -/
theorem wf_of_unpackMov {W : Buffer} {i : Instr} (h : unpackMov W = .ok i) : i.wf = true := by
  obtain ⟨-, dest, hdest, rfl⟩ | ⟨-, -, -, -, dest, hdest, rfl⟩ | ⟨-, -, -, -, dest, hdest, rfl⟩ :=
    unpackMov_ok_iff.mp h
  · exact Bool.and_eq_true_iff.mpr ⟨isHalfDest_of_decDst (readBits_lt W 9 14) hdest,
      isImmBelow_ofNat (readBits_lt W 16 31) (by decide)⟩
  · exact Bool.and_eq_true_iff.mpr ⟨isReg128_of_decDst (destField_lt W) hdest,
      isImmBelow_ofNat (readBits_lt W 16 31) (by decide)⟩
  · exact Bool.and_eq_true_iff.mpr ⟨isReg128_of_decDst (destField_lt W) hdest,
      isImmBelow_ofNat (readBits_lt W 16 47) (by decide)⟩

/-- An accepted Ret word names one of 128 registers, and its reserved bits are 0 (44 R241). -/
theorem unpackRet_ok_iff {W : Buffer} {i : Instr} :
    unpackRet W = .ok i ↔ readBits W 7 8 = 0 ∧ i = .ret (.r32 (readBits W 9 15)) := by
  simp [unpackRet, except_bind_ok_iff, pure, Except.pure, eq_comm (b := i)]

theorem unpackStop_ok_iff {W : Buffer} {i : Instr} :
    unpackStop W = .ok i ↔ readBits W 0 15 = stopWord ∧ i = .stop := by
  simp [unpackStop, except_bind_ok_iff, pure, Except.pure, eq_comm (b := i)]

theorem unpackWait_ok_iff {P : Params} {W : Buffer} {i : Instr} :
    unpackWait P W = .ok i ↔ readBits W 0 15 = P.waitWord.toNat ∧ i = .wait := by
  simp [unpackWait, except_bind_ok_iff, pure, Except.pure, eq_comm (b := i)]

/-- Whatever an unpacker accepts is a well-formed instruction (10 R37). -/
theorem wf_of_unpackKind {P : Params} {W : Buffer} {kind : WordKind} {i : Instr}
    (h : unpackKind P W kind = .ok i) : i.wf = true := by
  cases kind with
  | load | store =>
    obtain ⟨fc, mask, reg, base, off, rfl, hwf⟩ := transferFieldsWF_of_unpackTransfer h
    exact hwf
  | mov => exact wf_of_unpackMov h
  | ret =>
    obtain ⟨-, rfl⟩ := unpackRet_ok_iff.mp h
    exact decide_eq_true (readBits_lt W 9 15)
  | stop =>
    obtain ⟨-, rfl⟩ := unpackStop_ok_iff.mp h
    rfl
  | wait =>
    obtain ⟨-, rfl⟩ := unpackWait_ok_iff.mp h
    rfl

/-! ## Lengths -/

theorem Instr.length_mem (i : Instr) : i.length ∈ [2, 4, 6, 8] := by
  cases i <;> simp [Instr.length]

/-- The length comes from the first 16 bits alone (30 R103). -/
theorem wordLength_congr {P : Params} {A B : Buffer} {c : Nat}
    (h : ∀ i ≤ 15, bitAt A i = bitAt B i) : wordLength P A c = wordLength P B c := by
  have hread : ∀ s e, e ≤ 15 → readBits A s e = readBits B s e := fun s e he =>
    readBits_congr fun i _ hi => h i (by omega)
  simp only [wordLength, hread _ 6, hread _ 8, hread _ 15, Nat.le_refl, Nat.reduceLeDiff]

/-- The two bytes that give a word its length read as the word's own first two. -/
theorem wordLength_take_two (P : Params) (B : Buffer) (c : Nat) {n : Nat} (hn : 2 ≤ n) :
    wordLength P (B.take 2) c = wordLength P (B.take n) c := by
  apply wordLength_congr
  intro i hi
  have hbyte : i / 8 < 2 := by omega
  simp [bitAt, hbyte, Nat.lt_of_lt_of_le hbyte hn]

/-- The length read from a Mov word's flags. -/
theorem wordLength_mov_ok_iff {P : Params} {W : Buffer} {c n : Nat}
    (hk : wordKind P (readBits W 0 6) = some .mov) :
    wordLength P W c = .ok n ↔
      (readBits W 7 8 = 0 ∧ readBits W 15 15 = 0 ∧ n = 4) ∨
        (readBits W 7 8 = 2 ∧ n = 6 + 2 * readBits W 15 15) := by
  have hflag := readBits_lt W 7 8
  have hlong := readBits_lt W 15 15
  simp only [wordLength, hk]
  split
  · simp; omega
  · split
    · simp; omega
    · split <;> simp <;> omega

/-- A word has at least the two bytes that its length is read from (30 R103). -/
theorem two_le_of_wordLength {P : Params} {H : Buffer} {c n : Nat}
    (h : wordLength P H c = .ok n) : 2 ≤ n := by
  cases hk : wordKind P (readBits H 0 6) with
  | none => simp [wordLength, hk] at h
  | some kind =>
    cases kind with
    | mov =>
      rw [wordLength_mov_ok_iff hk] at h
      omega
    | load | store | ret | stop | wait =>
      simp [wordLength, hk] at h
      omega

/-- The length read from a word's first 16 bits is that of the instruction the word decodes to. -/
theorem wordLength_eq_length {P : Params} {W : Buffer} {c n : Nat} {kind : WordKind} {i : Instr}
    (hk : wordKind P (readBits W 0 6) = some kind) (hn : wordLength P W c = .ok n)
    (h : unpackKind P W kind = .ok i) : n = i.length := by
  cases kind with
  | mov =>
    have hlong := readBits_lt W 15 15
    rw [wordLength_mov_ok_iff hk] at hn
    obtain ⟨hf, -, -, -, rfl⟩ | ⟨hf, hl, -, -, -, -, rfl⟩ | ⟨hf, hl, -, -, -, -, rfl⟩ :=
      unpackMov_ok_iff.mp h <;>
    · simp only [Instr.length]
      omega
  | load | store =>
    obtain ⟨-, -, -, -, -, -, -, rfl⟩ := unpackTransfer_ok_iff.mp h
    simpa [wordLength, hk, Instr.length, eq_comm] using hn
  | ret =>
    obtain ⟨-, rfl⟩ := unpackRet_ok_iff.mp h
    simpa [wordLength, hk, Instr.length, eq_comm] using hn
  | stop =>
    obtain ⟨-, rfl⟩ := unpackStop_ok_iff.mp h
    simpa [wordLength, hk, Instr.length, eq_comm] using hn
  | wait =>
    obtain ⟨-, rfl⟩ := unpackWait_ok_iff.mp h
    simpa [wordLength, hk, Instr.length, eq_comm] using hn

/-! ## One decode step -/

/-- Everything a decode step that accepts can do: a word of `n` bytes at the cursor, inside the
buffer, of a known kind, whose unpacker accepts it (45 R261). -/
theorem unpackAt_ok_iff {P : Params} {B : Buffer} {c n : Nat} {d : Decoded} :
    unpackAt P B c = .ok (d, n) ↔
      2 ≤ (B.drop c).length ∧ wordLength P ((B.drop c).take 2) c = .ok n ∧
        n ≤ (B.drop c).length ∧ d.span = (B.drop c).take n ∧
        ∃ kind, wordKind P (readBits d.span 0 6) = some kind ∧
          unpackKind P d.span kind = .ok d.instr := by
  unfold unpackAt
  dsimp only
  constructor
  · intro h
    split at h
    · cases h
    · next htwo =>
      split at h
      · cases h
      · next m hlen =>
        split at h
        · cases h
        · next hin =>
          split at h
          · cases h
          · next kind hkind =>
            split at h
            · cases h
            · next i hi =>
              cases h
              exact ⟨Nat.not_lt.mp htwo, hlen, Nat.not_lt.mp hin, rfl, kind, hkind,
                atPlace_ok_iff.mp hi⟩
  · rintro ⟨htwo, hlen, hin, hspan, kind, hkind, hinstr⟩
    rw [if_neg (Nat.not_lt.mpr htwo)]
    simp only [hlen, if_neg (Nat.not_lt.mpr hin), ← hspan, hkind, hinstr, atPlace]

/-- A word a decode step accepts has the length of its instruction's form (30 R81). -/
theorem length_of_unpackAt {P : Params} {B : Buffer} {c n : Nat} {d : Decoded}
    (h : unpackAt P B c = .ok (d, n)) : n = d.instr.length := by
  obtain ⟨-, hlen, -, hspan, kind, hkind, hinstr⟩ := unpackAt_ok_iff.mp h
  rw [wordLength_take_two P _ c (two_le_of_wordLength hlen), ← hspan] at hlen
  exact wordLength_eq_length hkind hlen hinstr

/-- Settles O12: the checks of the decode step and of the unpackers are what well-formedness asks,
and the length read from the first 16 bits is that of the form the unpacker chooses. -/
theorem decodedInstructionsAreWellFormed : Obligations.DecodedInstructionsAreWellFormed := by
  intro P B c n d h
  have hn := length_of_unpackAt h
  obtain ⟨htwo, -, hin, hspan, kind, -, hinstr⟩ := unpackAt_ok_iff.mp h
  rw [List.length_drop] at htwo hin
  exact ⟨wf_of_unpackKind hinstr, hspan, by omega, hn, hn ▸ d.instr.length_mem⟩

end Sys2Proof
end

section
/-! SUPPORT. What a step that goes on can do to the state, and what every step keeps
(10_state.md R40, R44, R45, 47_reference_execution.md R332–R339); the state at reset (10 R46). -/

namespace Sys2Proof.Machine

/-! ## What an instruction can do -/

/-- The five ways an instruction that goes on can change the state: a Mov sets one register that
exists, a Load moves lanes into registers, a Store moves lanes into the data buffer, a Wait only
advances, Ret and Stop halt (47 R334–R339). -/
inductive Effect (s : State) : State → Prop where
  | moved (n : Nat) (w : Word32) (hn : n < s.x.length) : Effect s (advance (setRegister s n w))
  | loaded (tr : Transfer) (ls : List (Nat × Nat)) : Effect s (advance (loadLanes tr ls s))
  | stored (tr : Transfer) (ls : List (Nat × Nat)) : Effect s (advance (storeLanes tr ls s))
  | waited : Effect s (advance s)
  | halted : Effect s (halt s)

theorem effect_of_moveOp {s t : State} {dest src : Operand} (h : moveOp s dest src = .ok t) :
    Effect s t := by
  obtain ⟨n, w, -, hn, rfl⟩ := moveOp_ok h
  exact .moved n w hn

theorem effect_of_exec {i : Instr} {s t : State} (h : exec i s = .next t) : Effect s t := by
  cases i with
  | deviceLoad fc mask reg base off =>
    obtain ⟨tr, -, rfl⟩ := loadOp_ok_iff.mp (toOutcome_eq_next.mp h)
    exact .loaded tr _
  | deviceStore fc mask reg base off =>
    obtain ⟨tr, -, rfl⟩ := storeOp_ok_iff.mp (toOutcome_eq_next.mp h)
    exact .stored tr _
  | movHalf dest src | movShort dest src | movLong dest src =>
    exact effect_of_moveOp (toOutcome_eq_next.mp h)
  | ret | stop =>
    cases h
    exact .halted
  | wait =>
    cases h
    exact .waited

/-! ## What every step keeps -/

/-- What the caller fixes is the same in both states: the configuration, the program, the uniforms,
the data buffer's length and the number of registers (10 R40, 20_memory.md R74, 47 R330). -/
structure SameFixed (s t : State) : Prop where
  params : t.params = s.params
  program : t.program = s.program
  u : t.u = s.u
  size : t.mem.size = s.mem.size
  registers : t.x.length = s.x.length

theorem Effect.sameFixed {s t : State} (h : Effect s t) : SameFixed s t := by
  cases h with
  | moved n w hn => exact ⟨rfl, rfl, rfl, rfl, by simp⟩
  | loaded tr ls =>
    obtain ⟨hparams, hprogram, hu, hmem, -, -, hx⟩ := loadLanes_fields tr ls s
    exact ⟨hparams, hprogram, hu, congrArg Memory.size hmem, hx⟩
  | stored tr ls =>
    obtain ⟨hparams, hprogram, hu, hx, -, -, hsize⟩ := storeLanes_fields tr ls s
    exact ⟨hparams, hprogram, hu, hsize, congrArg List.length hx⟩
  | waited => exact ⟨rfl, rfl, rfl, rfl, rfl⟩
  | halted => exact ⟨rfl, rfl, rfl, rfl, rfl⟩

theorem step_sameFixed {s t : State} (h : step s = .next t) : SameFixed s t := by
  obtain ⟨-, rfl⟩ | ⟨-, i, -, hexec⟩ := step_next_iff.mp h
  · exact ⟨rfl, rfl, rfl, rfl, rfl⟩
  · exact (effect_of_exec hexec).sameFixed

/-! ## Registers that hold a value -/

/-- Register `r` exists and holds a value (10 R45). -/
def Defined (s : State) (r : Nat) : Prop :=
  ∃ v, s.x[r]? = some (some v)

theorem Defined.setRegister {s : State} {r : Nat} (h : Defined s r) (n : Nat) (w : Word32) :
    Defined (setRegister s n w) r := by
  obtain ⟨v, hv⟩ := h
  by_cases hr : n = r
  · subst hr
    have hlt := (List.getElem?_eq_some_iff.mp hv).1
    exact ⟨w, by simp [hlt]⟩
  · exact ⟨v, by simp [hr, hv]⟩

theorem Defined.loadLanes {s : State} {r : Nat} (h : Defined s r) (tr : Transfer)
    (ls : List (Nat × Nat)) : Defined (loadLanes tr ls s) r := by
  induction ls generalizing s with
  | nil => exact h
  | cons l ls ih => exact ih (s := loadLane tr s l) (h.setRegister _ _)

theorem Effect.defined {s t : State} {r : Nat} (h : Effect s t) (hr : Defined s r) :
    Defined t r := by
  cases h with
  | moved n w hn => exact hr.setRegister n w
  | loaded tr ls => exact hr.loadLanes tr ls
  | stored tr ls =>
    obtain ⟨-, -, -, hx, -⟩ := storeLanes_fields tr ls s
    obtain ⟨v, hv⟩ := hr
    exact ⟨v, by rw [advance_x, hx, hv]⟩
  | waited => exact hr
  | halted => exact hr

/-! ## The cursor -/

theorem Effect.k_le {s t : State} (h : Effect s t) : t.k ≤ s.k + 1 := by
  cases h with
  | moved n w hn => exact Nat.le_refl _
  | loaded tr ls =>
    obtain ⟨-, -, -, -, hk, -⟩ := loadLanes_fields tr ls s
    exact Nat.succ_le_succ (Nat.le_of_eq hk)
  | stored tr ls =>
    obtain ⟨-, -, -, -, hk, -⟩ := storeLanes_fields tr ls s
    exact Nat.succ_le_succ (Nat.le_of_eq hk)
  | waited => exact Nat.le_refl _
  | halted => exact Nat.le_succ _

/-- The program's list depends on the configuration and the program alone. -/
theorem SameFixed.programList_eq {s t : State} (h : SameFixed s t) :
    programList t = programList s := by
  unfold programList
  rw [h.program, h.params]

/-- Everything a fetch that answers can do: the program decodes, the entry check passes, and the
instruction stands at the cursor (47 R331, R332). -/
theorem fetch_ok_iff {s : State} {i : Instr} :
    fetch s = .ok i ↔ ∃ L, programList s = .ok L ∧ entryOk s = true ∧ L[s.k]? = some i := by
  unfold fetch
  cases programList s with
  | error f => simp
  | ok L => cases entryOk s <;> cases hi : L[s.k]? <;> simp [hi]

/-- An instruction is fetched only while the cursor is before the end of the list. -/
theorem cursor_lt_of_fetch {s : State} {i : Instr} (h : fetch s = .ok i) :
    ∃ L, programList s = .ok L ∧ s.k < L.length := by
  obtain ⟨L, hL, -, hi⟩ := fetch_ok_iff.mp h
  exact ⟨L, hL, (List.getElem?_eq_some_iff.mp hi).1⟩

/-! ## The statements -/

/-- Settles O33: no effect of an instruction touches what the caller fixed. -/
theorem stepKeepsWhatTheCallerFixed : Obligations.StepKeepsWhatTheCallerFixed := by
  intro s t h
  obtain ⟨hparams, hprogram, hu, hsize, hregisters⟩ := step_sameFixed h
  exact ⟨hparams, hprogram, hu, hsize, hregisters⟩

/-- Settles O34: a register is written only with a value. -/
theorem stepKeepsRegistersDefined : Obligations.StepKeepsRegistersDefined := by
  intro s t r v h hv
  obtain ⟨-, rfl⟩ | ⟨-, i, -, hexec⟩ := step_next_iff.mp h
  · exact ⟨v, hv⟩
  · exact (effect_of_exec hexec).defined ⟨v, hv⟩

/-- Settles O32: a step moves the cursor by at most one, and only from an instruction of the list,
which it does not change. -/
theorem stepKeepsTheCursorInTheProgram : Obligations.StepKeepsTheCursorInTheProgram := by
  intro s t hin h
  obtain ⟨-, rfl⟩ | ⟨-, i, hfetch, hexec⟩ := step_next_iff.mp h
  · exact hin
  · have heffect := effect_of_exec hexec
    obtain ⟨L, hL, hlt⟩ := cursor_lt_of_fetch hfetch
    exact ⟨L, heffect.sameFixed.programList_eq.trans hL, Nat.le_trans heffect.k_le hlt⟩

/-! ## Reset -/

/-- At reset register `i` holds 0 when it exists (10 R46). -/
theorem reset_x_getElem? {i : Nat} (h : i < State.resetRegisters) :
    State.reset.x[i]? = some (some 0) :=
  List.getElem?_replicate_of_lt h

theorem reset_inv : State.reset.Inv :=
  ⟨Config.params.ok, rfl, Nat.le_of_eq List.length_replicate.symm⟩

/-- No instruction can be fetched at reset: the program is the empty buffer (47 R332). -/
theorem fetch_reset : fetch State.reset = .error .endOfProgram := by
  have hlist : programList State.reset = .ok [] := rfl
  have hzero : State.reset.x[0]? = some (some 0) := reset_x_getElem? (by decide)
  have hentry : entryOk State.reset = true := by simp [entryOk, hzero]
  simp [fetch, hlist, hentry]

/-- Settles O24. -/
theorem resetLeavesTheStartOfACall : Obligations.ResetLeavesTheStartOfACall :=
  ⟨rfl, rfl, reset_x_getElem? (by decide), rfl, reset_inv⟩

/-- Settles O25: the empty program has no instruction for the first step. -/
theorem resetRunsNothing : Obligations.ResetRunsNothing := by
  refine ⟨fun i hi => reset_x_getElem? hi, fun a => rfl, ?_⟩
  have hrunning : State.reset.halted = false := rfl
  simp [step, hrunning, fetch_reset]

end Sys2Proof.Machine
end

section
/-! SUPPORT. The operand codec both ways: what each transform answers, the ranges of its fields, and
that decoding and encoding invert each other (41_operand_codec.md R140–R150, 42_load_store.md
R183). -/

namespace Sys2Proof

/-- A check and what follows it answer exactly when the condition holds and the rest answers. -/
@[simp] theorem check_bind_ok_iff {p : Prop} [Decidable p] {f : Field} {α : Type}
    {k : Unit → Except Field α} {b : α} :
    (check (decide p) f >>= k) = .ok b ↔ p ∧ k () = .ok b := by
  by_cases hp : p <;> simp [check, hp, bind, Except.bind]

@[simp] theorem check_true_bind {f : Field} {α : Type} {k : Unit → Except Field α} :
    (check true f >>= k) = k () :=
  rfl

/-! ## The operand codec -/

theorem halfOperand_even (n : Nat) : halfOperand (2 * n) = .r16l n := by
  simp [halfOperand]

theorem halfOperand_odd (n : Nat) : halfOperand (2 * n + 1) = .r16h n := by
  have hodd : (2 * n + 1) % 2 = 1 := by omega
  have hhalf : (2 * n + 1) / 2 = n := by omega
  simp [halfOperand, hodd, hhalf]

/-- Every half-register number is that of the low or of the high half of one register (00 R17). -/
theorem halfOperand_cases (raw : Nat) :
    (∃ n, raw = 2 * n ∧ halfOperand raw = .r16l n) ∨
      ∃ n, raw = 2 * n + 1 ∧ halfOperand raw = .r16h n := by
  obtain hr | hr : raw = 2 * (raw / 2) ∨ raw = 2 * (raw / 2) + 1 := by omega
  · exact .inl ⟨raw / 2, hr, (congrArg halfOperand hr).trans (halfOperand_even _)⟩
  · exact .inr ⟨raw / 2, hr, (congrArg halfOperand hr).trans (halfOperand_odd _)⟩

theorem encReg_lt {op : Operand} {f : RegFields} (h : encReg op = .ok f) :
    f.is32 < 2 ∧ f.raw < 256 := by
  obtain ⟨kind, se⟩ := op
  cases kind with
  | r32 n | r16l n | r16h n =>
    obtain ⟨hn, h⟩ := check_bind_ok_iff.mp h
    cases h
    constructor <;> dsimp only <;> omega
  | imm v | r64 n | u64 n => cases h

/-- A register list encodes to exactly the fields that decode to it (R146, R147). -/
theorem encReg_ok_iff {op : Operand} {f : RegFields} (hse : op.se = false) :
    encReg op = .ok f ↔ f.is32 < 2 ∧ f.raw < 256 ∧ decReg f = .ok op := by
  obtain ⟨is32, raw⟩ := f
  constructor
  · intro h
    obtain ⟨h32, hraw⟩ := encReg_lt h
    refine ⟨h32, hraw, ?_⟩
    obtain ⟨kind, se⟩ := op
    obtain rfl : se = false := hse
    cases kind with
    | r32 n | r16l n | r16h n =>
      obtain ⟨-, h⟩ := check_bind_ok_iff.mp h
      cases h
      simp [decReg, check, halfOperand_even, halfOperand_odd, bind, Except.bind, pure, Except.pure]
    | imm v | r64 n | u64 n => cases h
  · rintro ⟨h32, hraw, h⟩
    dsimp only at h32 hraw
    unfold decReg at h
    split at h
    · next hone =>
      obtain ⟨heven, h⟩ := check_bind_ok_iff.mp h
      obtain rfl : is32 = 1 := hone
      cases h
      have hlt : raw / 2 < 128 := by omega
      have hraw' : 2 * (raw / 2) = raw := by dsimp only at heven; omega
      simp [encReg, hlt, hraw', pure, Except.pure]
    · next hone =>
      obtain rfl : is32 = 0 := by dsimp only at hone; omega
      cases h
      obtain ⟨n, rfl, hop⟩ | ⟨n, rfl, hop⟩ := halfOperand_cases raw
      all_goals
        have hlt : n < 128 := by omega
        simp [encReg, hop, hlt, pure, Except.pure]

theorem encBase_lt {op : Operand} {f : BaseFields} (h : encBase op = .ok f) :
    f.uni < 2 ∧ f.raw < 256 := by
  obtain ⟨kind, se⟩ := op
  cases kind with
  | r64 n | u64 n =>
    obtain ⟨hn, h⟩ := check_bind_ok_iff.mp h
    cases h
    constructor <;> dsimp only <;> omega
  | imm v | r32 n | r16l n | r16h n => cases h

/-- A memory base encodes to exactly the fields that decode to it (R144, R145). -/
theorem encBase_ok_iff {op : Operand} {f : BaseFields} (hse : op.se = false) :
    encBase op = .ok f ↔ f.uni < 2 ∧ f.raw < 256 ∧ decBase f = .ok op := by
  obtain ⟨uni, raw⟩ := f
  constructor
  · intro h
    obtain ⟨huni, hraw⟩ := encBase_lt h
    refine ⟨huni, hraw, ?_⟩
    obtain ⟨kind, se⟩ := op
    obtain rfl : se = false := hse
    cases kind with
    | r64 n | u64 n =>
      obtain ⟨-, h⟩ := check_bind_ok_iff.mp h
      cases h
      simp [decBase, pure, Except.pure]
    | imm v | r32 n | r16l n | r16h n => cases h
  · rintro ⟨huni, hraw, h⟩
    obtain ⟨heven, h⟩ := check_bind_ok_iff.mp h
    dsimp only at huni hraw heven
    have hlt : raw / 2 < 128 := by omega
    have hraw' : 2 * (raw / 2) = raw := by omega
    obtain rfl | rfl : uni = 0 ∨ uni = 1 := by omega
    all_goals
      cases h
      simp [encBase, hlt, hraw', pure, Except.pure]

/-- A destination's fields fit: 8 raw bits with flag 2, 6 raw bits with flag 0 (R148). -/
def DestFields.Fits (f : DestFields) : Prop :=
  (f.flag = 2 ∧ f.raw < 256) ∨ (f.flag = 0 ∧ f.raw < 64)

theorem encDst_fits {op : Operand} {f : DestFields} (h : encDst op = .ok f) : f.Fits := by
  obtain ⟨kind, se⟩ := op
  cases kind with
  | r32 n | r16l n | r16h n =>
    obtain ⟨hn, h⟩ := check_bind_ok_iff.mp h
    cases h
    simp [DestFields.Fits]
    omega
  | imm v | r64 n | u64 n => cases h

/-- A destination encodes to exactly the fields that decode to it (R148, R149). -/
theorem encDst_ok_iff {op : Operand} {f : DestFields} (hse : op.se = false) :
    encDst op = .ok f ↔ f.Fits ∧ decDst f = .ok op := by
  obtain ⟨flag, raw⟩ := f
  constructor
  · intro h
    refine ⟨encDst_fits h, ?_⟩
    obtain ⟨kind, se⟩ := op
    obtain rfl : se = false := hse
    cases kind with
    | r32 n | r16l n | r16h n =>
      obtain ⟨-, h⟩ := check_bind_ok_iff.mp h
      cases h
      simp [decDst, check, halfOperand_even, halfOperand_odd, bind, Except.bind, pure, Except.pure]
    | imm v | r64 n | u64 n => cases h
  · rintro ⟨⟨hflag, hraw⟩ | ⟨hflag, hraw⟩, h⟩
    all_goals
      dsimp only at hflag hraw
      subst hflag
    · obtain ⟨heven, h⟩ := check_bind_ok_iff.mp h
      cases h
      have hlt : raw / 2 < 128 := by omega
      have hraw' : 2 * (raw / 2) = raw := by dsimp only at heven; omega
      simp [encDst, hlt, hraw', pure, Except.pure]
    · cases h
      obtain ⟨n, rfl, hop⟩ | ⟨n, rfl, hop⟩ := halfOperand_cases raw
      all_goals
        have hlt : n < 32 := by omega
        simp [encDst, hop, hlt, pure, Except.pure]

/-! ## Offsets -/

/-- What `compress` answers spells the offset again: the raw value and the shift fit their fields
(R183). -/
theorem compress_ok {v : Int} {shift raw : Nat} (h : compress v = .ok (shift, raw)) :
    shift < 4 ∧ raw < 4096 ∧ sext 12 raw * 2 ^ shift = v := by
  simp only [compress] at h
  split at h
  · next hq =>
    cases h
    have hraw : sext 12 ((v / 2 ^ offsetShift v) % 4096).toNat = v / 2 ^ offsetShift v := by
      simp only [sext]
      split <;> omega
    rw [hraw]
    refine ⟨?_, by omega, ?_⟩
    · unfold offsetShift
      split_ifs <;> omega
    · apply Int.ediv_mul_cancel
      unfold offsetShift
      split_ifs <;> omega
  · cases h

/-- Every offset an instruction can hold compresses (R183). -/
theorem compress_of_offsetFits {v : Int} (h : offsetFits v = true) :
    ∃ shift raw, compress v = .ok (shift, raw) := by
  have hq : -2048 ≤ v / 2 ^ offsetShift v ∧ v / 2 ^ offsetShift v ≤ 2047 := by
    simp [offsetFits] at h
    unfold offsetShift
    split_ifs <;> omega
  exact ⟨_, _, by rw [compress, if_pos hq]⟩

/-- An offset's fields fit their bits (R141). -/
structure OffsetFields.Fits (f : OffsetFields) : Prop where
  isImm : f.isImm < 2
  sebit : f.sebit < 2
  shift : f.shift < 4
  raw : f.raw < 4096

theorem encOff_imm_ok_iff {v : Imm64} {f : OffsetFields} :
    encOff ⟨.imm v, true⟩ = .ok f ↔
      f.isImm = 1 ∧ f.sebit = 1 ∧ compress v.toInt = .ok (f.shift, f.raw) := by
  obtain ⟨isImm, sebit, shift, raw⟩ := f
  simp only [encOff, except_bind_ok_iff, pure, Except.pure, Except.ok.injEq, OffsetFields.mk.injEq]
  constructor
  · rintro ⟨⟨s, r⟩, hc, rfl, rfl, rfl, rfl⟩
    exact ⟨rfl, rfl, hc⟩
  · rintro ⟨rfl, rfl, hc⟩
    exact ⟨_, hc, rfl, rfl, rfl, rfl⟩

theorem encOff_r32_ok_iff {n : Nat} {se : Bool} {f : OffsetFields} :
    encOff ⟨.r32 n, se⟩ = .ok f ↔ n < 256 ∧ f = ⟨0, if se then 0 else 1, 0, 2 * n⟩ := by
  simp [encOff, except_bind_ok_iff, pure, Except.pure, eq_comm (b := f)]

/-- Only two kinds of offset encode: a sign-extended immediate and a 32-bit register (R141). -/
theorem offset_cases_of_encOff {op : Operand} {f : OffsetFields} (h : encOff op = .ok f) :
    (∃ v, op = ⟨.imm v, true⟩) ∨ ∃ n se, op = ⟨.r32 n, se⟩ := by
  obtain ⟨kind, se⟩ := op
  cases kind with
  | imm v =>
    cases se with
    | true => exact .inl ⟨v, rfl⟩
    | false => cases h
  | r32 n => exact .inr ⟨n, se, rfl⟩
  | r16l n | r16h n | r64 n | u64 n => cases h

theorem encOff_fits {op : Operand} {f : OffsetFields} (h : encOff op = .ok f) : f.Fits := by
  obtain ⟨v, rfl⟩ | ⟨n, se, rfl⟩ := offset_cases_of_encOff h
  · obtain ⟨himm, hse, hc⟩ := encOff_imm_ok_iff.mp h
    obtain ⟨hshift, hraw, -⟩ := compress_ok hc
    exact ⟨by omega, by omega, hshift, hraw⟩
  · obtain ⟨hn, rfl⟩ := encOff_r32_ok_iff.mp h
    exact ⟨by simp, by cases se <;> simp, by simp, by dsimp only; omega⟩

/-- An offset decodes from what it encodes to, its `se` included (R142, R150). -/
theorem decOff_of_encOff {op : Operand} {f : OffsetFields} (h : encOff op = .ok f) :
    decOff f = .ok op := by
  obtain ⟨v, rfl⟩ | ⟨n, se, rfl⟩ := offset_cases_of_encOff h
  · obtain ⟨himm, hse, hc⟩ := encOff_imm_ok_iff.mp h
    obtain ⟨-, -, hv⟩ := compress_ok hc
    simp [decOff, himm, hse, hv, pure, Except.pure]
  · obtain ⟨hn, rfl⟩ := encOff_r32_ok_iff.mp h
    cases se <;> simp [decOff, hn, pure, Except.pure]

/-- An accepted offset field encodes back to itself exactly when it is canonical: an immediate has
the shift and raw value `compress` gives (R150, 30_encoding.md R100). -/
theorem encOff_ok_iff_of_decOff {op : Operand} {f : OffsetFields} (hf : f.Fits)
    (h : decOff f = .ok op) :
    encOff op = .ok f ↔ ∀ v, op.kind = .imm v → compress v.toInt = .ok (f.shift, f.raw) := by
  obtain ⟨isImm, sebit, shift, raw⟩ := f
  obtain ⟨himm, hsebit, hshift, hraw⟩ := hf
  dsimp only at himm hsebit hshift hraw
  unfold decOff at h
  split at h
  · next hone =>
    obtain ⟨hse, h⟩ := check_bind_ok_iff.mp h
    obtain rfl : isImm = 1 := hone
    obtain rfl : sebit = 1 := hse
    cases h
    simp [encOff_imm_ok_iff]
  · next hone =>
    obtain ⟨hzero, h⟩ := check_bind_ok_iff.mp h
    obtain ⟨heven, h⟩ := check_bind_ok_iff.mp h
    obtain ⟨hlt, h⟩ := check_bind_ok_iff.mp h
    obtain rfl : shift = 0 := hzero
    cases h
    dsimp only at hone heven hlt
    obtain rfl : isImm = 0 := by omega
    have hraw' : 2 * (raw / 2) = raw := by omega
    obtain rfl | rfl : sebit = 0 ∨ sebit = 1 := by omega
    all_goals simp [encOff_r32_ok_iff, hlt, hraw']

end Sys2Proof
end

section
/-! SUPPORT. Words field by field: ranges that tile a word determine it, and a packer gives exactly
the word whose fields read as it wrote them (40_bitfield_accessor.md R135); the packer of Load and
Store (42_load_store.md R182). -/

namespace Sys2Proof

/-! ## Words and the ranges that tile them -/

/-- Two buffers of one length with the same bits are the same. -/
theorem eq_of_bitAt {A B : Buffer} (hlen : A.length = B.length)
    (h : ∀ i < 8 * A.length, bitAt A i = bitAt B i) : A = B := by
  have hpow : (256 : Nat) ^ A.length = 2 ^ (8 * A.length) := by
    rw [show (256 : Nat) = 2 ^ 8 from rfl, ← Nat.pow_mul]
  have hA : leNat A < 2 ^ (8 * A.length) := hpow ▸ leNat_lt A
  have hB : leNat B < 2 ^ (8 * A.length) := hpow ▸ hlen ▸ leNat_lt B
  have hnum : leNat A = leNat B := by
    apply Nat.eq_of_testBit_eq
    intro i
    by_cases hi : i < 8 * A.length
    · rw [← bitAt_eq_testBit, ← bitAt_eq_testBit, h i hi]
    · have hle : 2 ^ (8 * A.length) ≤ 2 ^ i := Nat.pow_le_pow_right (by omega) (by omega)
      rw [Nat.testBit_eq_false_of_lt (hA.trans_le hle),
        Nat.testBit_eq_false_of_lt (hB.trans_le hle)]
  rw [← toBytes_leNat A, ← toBytes_leNat B, hnum, hlen]

/-- Two buffers that read the same on a range have the same bits there. -/
theorem bitAt_eq_of_readBits {A B : Buffer} {s e i : Nat} (h : readBits A s e = readBits B s e)
    (hs : s ≤ i) (he : i ≤ e) : bitAt A i = bitAt B i := by
  have hbit := congrArg (fun v => v.testBit (i - s)) h
  have hlt : i - s < e + 1 - s := by omega
  simpa [testBit_readBits, hlt, hs] using hbit

/-- The range of a write. -/
def FieldWrite.range (w : FieldWrite) : Nat × Nat :=
  (w.lo, w.hi)

/-- Ranges the accessor takes that do not meet and together make up a word of `n` bytes. -/
structure Tiles (n : Nat) (rs : List (Nat × Nat)) : Prop where
  inside : ∀ r ∈ rs, accessorOk r.1 r.2 = true ∧ r.2 / 8 < n
  apart : rs.Pairwise fun a b => a.2 < b.1 ∨ b.2 < a.1
  cover : ∀ i < 8 * n, ∃ r ∈ rs, r.1 ≤ i ∧ i ≤ r.2

/-- A word is determined by what it reads on ranges that tile it. -/
theorem Tiles.eq_of_readBits {n : Nat} {rs : List (Nat × Nat)} (ht : Tiles n rs) {A B : Buffer}
    (hA : A.length = n) (hB : B.length = n)
    (h : ∀ r ∈ rs, readBits A r.1 r.2 = readBits B r.1 r.2) : A = B := by
  refine eq_of_bitAt (hA.trans hB.symm) fun i hi => ?_
  obtain ⟨r, hr, hlo, hhi⟩ := ht.cover i (hA ▸ hi)
  exact bitAt_eq_of_readBits (h r hr) hlo hhi

/-- What a word of `n` bytes reads when a packer made it: each written field its value, each gap
between the fields 0. -/
structure ReadsAs (n : Nat) (ws : List FieldWrite) (gaps : List (Nat × Nat)) (W : Buffer) :
    Prop where
  length : W.length = n
  fields : ∀ w ∈ ws, readBits W w.lo w.hi = w.value
  gaps : ∀ g ∈ gaps, readBits W g.1 g.2 = 0

section
variable {n : Nat} {ws : List FieldWrite} {gaps : List (Nat × Nat)} {W : Buffer}

theorem packFields_readsAs (ht : Tiles n (ws.map FieldWrite.range ++ gaps))
    (hv : ∀ w ∈ ws, w.value < 2 ^ (w.hi - w.lo + 1)) :
    ∃ W, packFields n ws = .ok W ∧ ReadsAs n ws gaps W := by
  obtain ⟨hfields, -, hmeet⟩ := List.pairwise_append.mp ht.apart
  have hfits : ∀ w ∈ ws, w.fits n := fun w hw => by
    obtain ⟨hok, hin⟩ :=
      ht.inside w.range (List.mem_append_left _ (List.mem_map_of_mem hw))
    exact ⟨hok, hv w hw, hin⟩
  obtain ⟨W, hW, hlen, hread, hzero⟩ := packFields_ok hfits (List.pairwise_map.mp hfields)
  refine ⟨W, hW, hlen, hread, fun g hg => hzero _ _ fun w hw => ?_⟩
  exact (hmeet w.range (List.mem_map_of_mem hw) g hg).symm

/-- Everything a packer of tiling fields can do: it gives the one word that reads as written. -/
theorem packFields_ok_iff (ht : Tiles n (ws.map FieldWrite.range ++ gaps))
    (hv : ∀ w ∈ ws, w.value < 2 ^ (w.hi - w.lo + 1)) :
    packFields n ws = .ok W ↔ ReadsAs n ws gaps W := by
  obtain ⟨O, hO, hreads⟩ := packFields_readsAs ht hv
  constructor
  · intro h
    cases hO.symm.trans h
    exact hreads
  · intro h
    have : O = W := by
      refine ht.eq_of_readBits hreads.length h.length fun r hr => ?_
      obtain hr | hr := List.mem_append.mp hr
      · obtain ⟨w, hw, rfl⟩ := List.mem_map.mp hr
        exact (hreads.fields w hw).trans (h.fields w hw).symm
      · exact (hreads.gaps r hr).trans (h.gaps r hr).symm
    rw [hO, this]

end

/-! ## Load and Store -/

/-- The bits of a Load or Store word that `pack_ls` does not write (30_encoding.md R85). -/
def transferGaps : List (Nat × Nat) :=
  [(28, 31), (50, 51)]

theorem transferWrites_tile (key fc mask : Nat) (r : RegFields) (b : BaseFields)
    (o : OffsetFields) :
    Tiles 8 ((transferWrites key fc mask r b o).map FieldWrite.range ++ transferGaps) := by
  have hranges : (transferWrites key fc mask r b o).map FieldWrite.range ++ transferGaps =
      (transferWrites 0 0 0 ⟨0, 0⟩ ⟨0, 0⟩ ⟨0, 0, 0, 0⟩).map FieldWrite.range ++ transferGaps := rfl
  rw [hranges]
  exact ⟨by decide, by decide, by decide⟩

/-- Fields that fit the layout of a Load or Store word (R85). -/
structure TransferFit (key fc mask : Nat) (r : RegFields) (b : BaseFields) (o : OffsetFields) :
    Prop where
  key : key < 128
  fc : fc ≤ 15
  mask_pos : 1 ≤ mask
  mask_le : mask ≤ 15
  is32 : r.is32 < 2
  reg : r.raw < 256
  uni : b.uni < 2
  base : b.raw < 256
  off : o.Fits

theorem transferWrites_value_lt {key fc mask : Nat} {r : RegFields} {b : BaseFields}
    {o : OffsetFields} (h : TransferFit key fc mask r b o) :
    ∀ w ∈ transferWrites key fc mask r b o, w.value < 2 ^ (w.hi - w.lo + 1) := by
  obtain ⟨hkey, hfc, -, hmask, his32, hreg, huni, hbase, himm, hsebit, hshift, hraw⟩ := h
  simp [transferWrites]
  omega

/-- What the field reads of a Load or Store word say: its key, its fixed bits and the values of its
structured fields (42 R184). -/
structure TransferWord (key fc mask : Nat) (r : RegFields) (b : BaseFields) (o : OffsetFields)
    (W : Buffer) : Prop where
  length : W.length = 8
  key : readBits W 0 6 = key
  bits : checkTransferBits W = .ok ()
  fc : formatCodeOf W = fc
  mask : readBits W 52 55 = mask
  reg : regFieldsOf W = r
  base : baseFieldsOf W = b
  off : offsetFieldsOf W = o

theorem formatCodeOf_eq_iff {W : Buffer} {fc : Nat} :
    formatCodeOf W = fc ↔ readBits W 7 9 = fc % 8 ∧ readBits W 48 48 = fc / 8 := by
  have h7 := readBits_lt W 7 9
  rw [formatCodeOf]
  omega

theorem regFieldsOf_eq_iff {W : Buffer} {r : RegFields} :
    regFieldsOf W = r ↔
      readBits W 10 15 = r.raw % 64 ∧ readBits W 40 41 = r.raw / 64 ∧
        readBits W 49 49 = r.is32 := by
  have h10 := readBits_lt W 10 15
  obtain ⟨is32, raw⟩ := r
  simp only [regFieldsOf, RegFields.mk.injEq]
  omega

theorem baseFieldsOf_eq_iff {W : Buffer} {b : BaseFields} :
    baseFieldsOf W = b ↔
      readBits W 16 19 = b.raw % 16 ∧ readBits W 36 39 = b.raw / 16 ∧
        readBits W 27 27 = b.uni := by
  have h16 := readBits_lt W 16 19
  obtain ⟨uni, raw⟩ := b
  simp only [baseFieldsOf, BaseFields.mk.injEq]
  omega

/-- The packer writes the high 4 bits of the offset and the zeros above them as one field
(42 R182). -/
theorem offsetFieldsOf_eq_iff {W : Buffer} {o : OffsetFields} (ho : o.raw < 4096) :
    offsetFieldsOf W = o ∧ readBits W 60 63 = 0 ↔
      readBits W 20 23 = o.raw % 16 ∧ readBits W 32 35 = o.raw / 16 % 16 ∧
        readBits W 56 63 = o.raw / 256 ∧ readBits W 24 24 = o.isImm ∧
        readBits W 25 25 = o.sebit ∧ readBits W 42 43 = o.shift := by
  have hlow := readBits_sub W (lo := 56) (hi := 63) (s := 56) (e := 59) (by decide) (by decide)
  have hhigh := readBits_sub W (lo := 56) (hi := 63) (s := 60) (e := 63) (by decide) (by decide)
  norm_num at hlow hhigh
  have h20 := readBits_lt W 20 23
  have h32 := readBits_lt W 32 35
  have h56 := readBits_lt W 56 63
  obtain ⟨isImm, sebit, shift, raw⟩ := o
  simp only [offsetFieldsOf, OffsetFields.mk.injEq] at ho ⊢
  omega

theorem transferWord_iff_readsAs {key fc mask : Nat} {r : RegFields} {b : BaseFields}
    {o : OffsetFields} {W : Buffer} (hmask : 1 ≤ mask) (ho : o.raw < 4096) :
    TransferWord key fc mask r b o W ↔
      ReadsAs 8 (transferWrites key fc mask r b o) transferGaps W := by
  constructor
  · rintro ⟨hlen, hkey, hbits, hfc, hm, hreg, hbase, hoff⟩
    obtain ⟨h26, h28, h44, h50, h47, h60, -⟩ := checkTransferBits_ok_iff.mp hbits
    obtain ⟨h7, h48⟩ := formatCodeOf_eq_iff.mp hfc
    obtain ⟨h10, h40, h49⟩ := regFieldsOf_eq_iff.mp hreg
    obtain ⟨h16, h36, h27⟩ := baseFieldsOf_eq_iff.mp hbase
    obtain ⟨h20, h32, h56, h24, h25, h42⟩ := (offsetFieldsOf_eq_iff ho).mp ⟨hoff, h60⟩
    refine ⟨hlen, ?_, by simp [transferGaps, h28, h50]⟩
    simp [transferWrites, *]
  · rintro ⟨hlen, hfields, hgaps⟩
    simp only [transferWrites, transferGaps, List.forall_mem_cons] at hfields hgaps
    obtain ⟨hkey, h7, h48, h10, h40, h49, h16, h36, h27, h20, h32, h56, h24, h25, h42, h26, h44,
      h47, hm, -⟩ := hfields
    obtain ⟨h28, h50, -⟩ := hgaps
    obtain ⟨hoff, h60⟩ := (offsetFieldsOf_eq_iff ho).mpr ⟨h20, h32, h56, h24, h25, h42⟩
    exact ⟨hlen, hkey, checkTransferBits_ok_iff.mpr ⟨h26, h28, h44, h50, h47, h60, by omega⟩,
      formatCodeOf_eq_iff.mpr ⟨h7, h48⟩, hm, regFieldsOf_eq_iff.mpr ⟨h10, h40, h49⟩,
      baseFieldsOf_eq_iff.mpr ⟨h16, h36, h27⟩, hoff⟩

/-- The packer of a Load or Store gives the one word that reads as its fields (42 R182). -/
theorem packFields_transfer_ok_iff {key fc mask : Nat} {r : RegFields} {b : BaseFields}
    {o : OffsetFields} {W : Buffer} (h : TransferFit key fc mask r b o) :
    packFields 8 (transferWrites key fc mask r b o) = .ok W ↔
      TransferWord key fc mask r b o W :=
  (packFields_ok_iff (transferWrites_tile ..) (transferWrites_value_lt h)).trans
    (transferWord_iff_readsAs h.mask_pos h.off.raw).symm

theorem exists_packFields_transfer {key fc mask : Nat} {r : RegFields} {b : BaseFields}
    {o : OffsetFields} (h : TransferFit key fc mask r b o) :
    ∃ W, packFields 8 (transferWrites key fc mask r b o) = .ok W := by
  obtain ⟨W, hW, -⟩ := packFields_readsAs (transferWrites_tile ..) (transferWrites_value_lt h)
  exact ⟨W, hW⟩

/-- The self-check passes exactly the words whose fixed bits are right (60_exceptions.md R366). -/
theorem transferSelfCheck_ok_iff {O W : Buffer} :
    transferSelfCheck O = .ok W ↔ checkTransferBits O = .ok () ∧ O = W := by
  unfold transferSelfCheck
  split <;> simp_all

/-- The fields of a Load or Store whose numbers are in range and whose operands encode. -/
theorem transferFit_of_enc {key fc mask : Nat} {reg base off : Operand} {r : RegFields}
    {b : BaseFields} {o : OffsetFields} (hkey : key < 128) (hfc : fc ≤ 15)
    (hmask : 1 ≤ mask ∧ mask ≤ 15) (hr : encReg reg = .ok r) (hb : encBase base = .ok b)
    (ho : encOff off = .ok o) : TransferFit key fc mask r b o :=
  ⟨hkey, hfc, hmask.1, hmask.2, (encReg_lt hr).1, (encReg_lt hr).2, (encBase_lt hb).1,
    (encBase_lt hb).2, encOff_fits ho⟩

/-- `pack_ls` on fields in range whose operands encode gives their word: the self-check passes. -/
theorem packTransfer_of_enc {key fc mask : Nat} {reg base off : Operand} {r : RegFields}
    {b : BaseFields} {o : OffsetFields} (hkey : key < 128) (hfc : fc ≤ 15)
    (hmask : 1 ≤ mask ∧ mask ≤ 15) (hr : encReg reg = .ok r) (hb : encBase base = .ok b)
    (ho : encOff off = .ok o) :
    packTransfer key fc mask reg base off = packFields 8 (transferWrites key fc mask r b o) := by
  have hfit := transferFit_of_enc hkey hfc hmask hr hb ho
  obtain ⟨W, hW⟩ := exists_packFields_transfer hfit
  have hbits := ((packFields_transfer_ok_iff hfit).mp hW).bits
  have hself : transferSelfCheck W = .ok W := transferSelfCheck_ok_iff.mpr ⟨hbits, rfl⟩
  simp [packTransfer, hfc, hmask, hr, hb, ho, hW, hself, bind, Except.bind, pure, Except.pure,
    check]

/-- Everything `pack_ls` can do: numbers in range, operands that encode, and the one word that reads
as they say (42 R182). -/
theorem packTransfer_ok_iff {key fc mask : Nat} {reg base off : Operand} {W : Buffer}
    (hkey : key < 128) :
    packTransfer key fc mask reg base off = .ok W ↔
      encReg reg = .ok (regFieldsOf W) ∧ encBase base = .ok (baseFieldsOf W) ∧
        encOff off = .ok (offsetFieldsOf W) ∧
        TransferWord key fc mask (regFieldsOf W) (baseFieldsOf W) (offsetFieldsOf W) W := by
  constructor
  · intro h
    have hfields := h
    unfold packTransfer at hfields
    split at hfields
    · cases hfields
    · next r b o henc =>
      obtain ⟨hfc, henc⟩ := check_bind_ok_iff.mp henc
      obtain ⟨hmask, henc⟩ := check_bind_ok_iff.mp henc
      obtain ⟨_, hr, henc⟩ := except_bind_ok_iff.mp henc
      obtain ⟨_, hb, henc⟩ := except_bind_ok_iff.mp henc
      obtain ⟨_, ho, henc⟩ := except_bind_ok_iff.mp henc
      cases henc
      rw [packTransfer_of_enc hkey hfc hmask hr hb ho] at h
      have hword :=
        (packFields_transfer_ok_iff (transferFit_of_enc hkey hfc hmask hr hb ho)).mp h
      rw [hword.reg, hword.base, hword.off]
      exact ⟨hr, hb, ho, hword⟩
  · rintro ⟨hr, hb, ho, hword⟩
    have hfc : fc ≤ 15 := hword.fc ▸ formatCodeOf_le W
    have hmask : 1 ≤ mask ∧ mask ≤ 15 := by
      obtain ⟨-, -, -, -, -, -, hne⟩ := checkTransferBits_ok_iff.mp hword.bits
      have hlt := readBits_lt W 52 55
      have := hword.mask
      omega
    rw [packTransfer_of_enc hkey hfc hmask hr hb ho]
    exact (packFields_transfer_ok_iff (transferFit_of_enc hkey hfc hmask hr hb ho)).mpr hword

end Sys2Proof
end

section
/-! SUPPORT. The packers of Mov, Ret, Stop and Wait, field by field (43_move.md R211–R213,
44_ret_stop_wait.md R241–R245). -/

namespace Sys2Proof

/-! ## Mov -/

/-- The structured instruction of a form (43_move.md R211). -/
def MovForm.make : MovForm → Operand → Operand → Instr
  | .half => .movHalf
  | .short => .movShort
  | .long => .movLong

/-- The destination flag of a form's words (R211). -/
def MovForm.flag : MovForm → Nat
  | .half => 0
  | .short => 2
  | .long => 2

/-- The long flag of a form's words (R211). -/
def MovForm.longFlag : MovForm → Nat
  | .half => 0
  | .short => 0
  | .long => 1

/-- The last bit of a form's immediate field, which begins at bit 16 (30_encoding.md R86–R88). -/
def MovForm.immEnd : MovForm → Nat
  | .half => 31
  | .short => 31
  | .long => 47

/-- The first immediate too large for a form (43 R212). -/
def MovForm.immBound (form : MovForm) : Nat :=
  if form = .long then 2 ^ 32 else 2 ^ 16

/-- The high bits of a form's raw destination (30 R86–R88). -/
def MovForm.destHigh (form : MovForm) (W : Buffer) : Nat :=
  match form with
  | .half => 0
  | .short => readBits W 44 45
  | .long => readBits W 60 61

/-- The unused bits of a form's words (30 R87, R88). -/
def MovForm.gaps : MovForm → List (Nat × Nat)
  | .half => []
  | .short => [(32, 43), (46, 47)]
  | .long => [(48, 59), (62, 63)]

/-- The destination fields of a Mov word of a form (43 R213). -/
def movDestOf (form : MovForm) (W : Buffer) : DestFields :=
  ⟨form.flag, readBits W 9 14 + 64 * form.destHigh W⟩

/-- The immediate of a Mov word of a form (43 R213). -/
def movImmOf (form : MovForm) (W : Buffer) : Nat :=
  readBits W 16 form.immEnd

/-- A word with the key, the flags and the unused bits of a Mov form (30 R86–R88). -/
structure MovWord (form : MovForm) (W : Buffer) : Prop where
  length : W.length = form.length
  key : readBits W 0 6 = movKey
  flag : readBits W 7 8 = form.flag
  long : readBits W 15 15 = form.longFlag
  gaps : ∀ g ∈ form.gaps, readBits W g.1 g.2 = 0

theorem encode_make (P : Params) (form : MovForm) (dest src : Operand) :
    encode P (form.make dest src) = movWord (formFields form dest src) := by
  cases form <;> rfl

theorem movWrites_tile (form : MovForm) (d : DestFields) (v : Nat) :
    Tiles form.length ((movWrites form d v).map FieldWrite.range ++ form.gaps) := by
  have hranges : (movWrites form d v).map FieldWrite.range ++ form.gaps =
      (movWrites form ⟨0, 0⟩ 0).map FieldWrite.range ++ form.gaps := by
    cases form <;> rfl
  rw [hranges]
  cases form <;> exact ⟨by decide, by decide, by decide⟩

/-- A form's fields fit its layout. -/
structure MovFit (form : MovForm) (d : DestFields) (v : Nat) : Prop where
  dest : d.Fits
  flag : d.flag = form.flag
  imm : v < form.immBound

theorem movWrites_value_lt {form : MovForm} {d : DestFields} {v : Nat} (h : MovFit form d v) :
    ∀ w ∈ movWrites form d v, w.value < 2 ^ (w.hi - w.lo + 1) := by
  obtain ⟨hd, hflag, hv⟩ := h
  cases form <;>
  · simp [DestFields.Fits, MovForm.flag, MovForm.immBound] at hd hflag hv
    simp [movWrites, movKey]
    omega

theorem movDestOf_eq_iff {form : MovForm} {d : DestFields} {W : Buffer} (hd : d.Fits)
    (hflag : d.flag = form.flag) :
    movDestOf form W = d ↔
      readBits W 9 14 = d.raw % 64 ∧ form.destHigh W = d.raw / 64 := by
  have h9 := readBits_lt W 9 14
  obtain ⟨flag, raw⟩ := d
  simp only [movDestOf, DestFields.mk.injEq]
  dsimp only at hflag
  omega

theorem movWrites_read_iff {form : MovForm} {d : DestFields} {v : Nat} {W : Buffer}
    (h : MovFit form d v) :
    (∀ w ∈ movWrites form d v, readBits W w.lo w.hi = w.value) ↔
      readBits W 0 6 = movKey ∧ readBits W 7 8 = d.flag ∧ readBits W 9 14 = d.raw % 64 ∧
        readBits W 15 15 = form.longFlag ∧ movImmOf form W = v ∧ form.destHigh W = d.raw / 64 := by
  cases form with
  | half =>
    have hhigh : 0 = d.raw / 64 := by
      have hd := h.dest
      have hflag := h.flag
      simp only [DestFields.Fits, MovForm.flag] at hd hflag
      omega
    simp [movWrites, MovForm.longFlag, movImmOf, MovForm.immEnd, MovForm.destHigh, ← hhigh]
  | short | long =>
    simp [movWrites, MovForm.longFlag, movImmOf, MovForm.immEnd, MovForm.destHigh]

theorem movWord_iff_readsAs {form : MovForm} {d : DestFields} {v : Nat} {W : Buffer}
    (h : MovFit form d v) :
    MovWord form W ∧ movDestOf form W = d ∧ movImmOf form W = v ↔
      ReadsAs form.length (movWrites form d v) form.gaps W := by
  rw [movDestOf_eq_iff h.dest h.flag]
  constructor
  · rintro ⟨⟨hlen, hkey, hflag, hlong, hgaps⟩, ⟨h9, hhigh⟩, himm⟩
    exact ⟨hlen, (movWrites_read_iff h).mpr ⟨hkey, hflag.trans h.flag.symm, h9, hlong, himm, hhigh⟩,
      hgaps⟩
  · rintro ⟨hlen, hfields, hgaps⟩
    obtain ⟨hkey, hflag, h9, hlong, himm, hhigh⟩ := (movWrites_read_iff h).mp hfields
    exact ⟨⟨hlen, hkey, hflag.trans h.flag, hlong, hgaps⟩, ⟨h9, hhigh⟩, himm⟩

/-- The packer of a Mov form gives the one word that reads as its fields (43 R212). -/
theorem packFields_mov_ok_iff {form : MovForm} {d : DestFields} {v : Nat} {W : Buffer}
    (h : MovFit form d v) :
    packFields form.length (movWrites form d v) = .ok W ↔
      MovWord form W ∧ movDestOf form W = d ∧ movImmOf form W = v :=
  (packFields_ok_iff (movWrites_tile ..) (movWrites_value_lt h)).trans (movWord_iff_readsAs h).symm

/-- A Mov source encodes exactly when it is the immediate of a number below the bound (43 R212). -/
theorem encMovImm_ok_iff {src : Operand} {bound v : Nat} (hb : bound ≤ 2 ^ 63) :
    encMovImm src bound = .ok v ↔ v < bound ∧ src.kind = .imm (BitVec.ofNat 64 v) := by
  obtain ⟨kind, se⟩ := src
  cases kind with
  | imm u =>
    simp only [encMovImm, check_bind_ok_iff, pure, Except.pure, Except.ok.injEq,
      OperandKind.imm.injEq]
    constructor
    · rintro ⟨⟨h0, hlt⟩, rfl⟩
      refine ⟨by omega, BitVec.eq_of_toInt_eq ?_⟩
      rw [imm64_toInt_ofNat (by omega)]
      omega
    · rintro ⟨hv, rfl⟩
      rw [imm64_toInt_ofNat (by omega)]
      omega
  | r16l n | r16h n | r32 n | r64 n | u64 n => simp [encMovImm]

/-- Everything a Mov packed in a form can do: a destination with the form's flag, an immediate
within the form's bound. -/
theorem formFields_ok_iff {form form' : MovForm} {dest src : Operand} {d : DestFields} {v : Nat} :
    formFields form dest src = .ok (form', d, v) ↔
      form' = form ∧ encDst dest = .ok d ∧ d.flag = form.flag ∧
        encMovImm src form.immBound = .ok v := by
  have hflag : (if form = .half then decide (d.flag = 0) else decide (d.flag = 2)) = true ↔
      d.flag = form.flag := by
    cases form <;> exact decide_eq_true_iff
  simp only [formFields, except_bind_ok_iff, check_ok_iff, pure, Except.pure, Except.ok.injEq,
    Prod.mk.injEq]
  constructor
  · rintro ⟨_, hd, _, hf, _, hv, rfl, rfl, rfl⟩
    exact ⟨rfl, hd, hflag.mp hf, hv⟩
  · rintro ⟨rfl, hd, hf, hv⟩
    exact ⟨_, hd, (), hflag.mpr hf, _, hv, rfl, rfl, rfl⟩

theorem immBound_le (form : MovForm) : form.immBound ≤ 2 ^ 63 := by
  cases form <;> decide

theorem movImmOf_lt (form : MovForm) (W : Buffer) : movImmOf form W < form.immBound := by
  cases form
  · exact readBits_lt W 16 31
  · exact readBits_lt W 16 31
  · exact readBits_lt W 16 47

theorem movFit_of_formFields {form : MovForm} {dest src : Operand} {d : DestFields} {v : Nat}
    (h : formFields form dest src = .ok (form, d, v)) : MovFit form d v := by
  obtain ⟨-, hd, hflag, hv⟩ := formFields_ok_iff.mp h
  exact ⟨encDst_fits hd, hflag, ((encMovImm_ok_iff (immBound_le form)).mp hv).1⟩

/-- Everything the encoder of a Mov form can do: a destination and an immediate that encode, and the
one word that reads as they say (43 R212). -/
theorem movWord_ok_iff {form : MovForm} {dest src : Operand} {W : Buffer} :
    movWord (formFields form dest src) = .ok W ↔
      MovWord form W ∧ encDst dest = .ok (movDestOf form W) ∧
        src.kind = .imm (BitVec.ofNat 64 (movImmOf form W)) := by
  constructor
  · intro h
    obtain ⟨form', d, v, hf, -⟩ := movWord_length h
    obtain rfl := formFields_form hf
    obtain ⟨-, hd, -, hv⟩ := formFields_ok_iff.mp hf
    rw [hf] at h
    obtain ⟨hword, rfl, rfl⟩ := (packFields_mov_ok_iff (movFit_of_formFields hf)).mp h
    exact ⟨hword, hd, ((encMovImm_ok_iff (immBound_le _)).mp hv).2⟩
  · rintro ⟨hword, hd, hsrc⟩
    have hv := (encMovImm_ok_iff (immBound_le form)).mpr ⟨movImmOf_lt form W, hsrc⟩
    have hf := formFields_ok_iff.mpr ⟨rfl, hd, rfl, hv⟩
    rw [hf]
    exact (packFields_mov_ok_iff (movFit_of_formFields hf)).mpr ⟨hword, rfl, rfl⟩

theorem exists_movWord {form : MovForm} {dest src : Operand} {d : DestFields} {v : Nat}
    (h : formFields form dest src = .ok (form, d, v)) :
    ∃ W, movWord (formFields form dest src) = .ok W := by
  obtain ⟨W, hW, -⟩ :=
    packFields_readsAs (movWrites_tile form d v) (movWrites_value_lt (movFit_of_formFields h))
  exact ⟨W, by rw [h]; exact hW⟩

/-! ## Ret, Stop and Wait -/

theorem word16_tile : Tiles 2 ([(0, 15)] ++ []) :=
  ⟨by decide, by decide, by decide⟩

theorem packFields_word16_ok_iff {v : Nat} {W : Buffer} (hv : v < 2 ^ 16) :
    packFields 2 [⟨0, 15, v⟩] = .ok W ↔ W.length = 2 ∧ readBits W 0 15 = v := by
  rw [packFields_ok_iff word16_tile (by simpa using hv)]
  constructor
  · rintro ⟨hlen, hfields, -⟩
    exact ⟨hlen, by simpa using hfields⟩
  · rintro ⟨hlen, hread⟩
    exact ⟨hlen, by simpa using hread, by simp⟩

theorem exists_packFields_word16 {v : Nat} (hv : v < 2 ^ 16) :
    ∃ W, packFields 2 [⟨0, 15, v⟩] = .ok W := by
  obtain ⟨W, hW, -⟩ := packFields_readsAs (ws := [⟨0, 15, v⟩]) word16_tile (by simpa using hv)
  exact ⟨W, hW⟩

theorem packStop_ok_iff {W : Buffer} :
    packStop = .ok W ↔ W.length = 2 ∧ readBits W 0 15 = stopWord :=
  packFields_word16_ok_iff (by decide)

theorem packWait_ok_iff {P : Params} {W : Buffer} :
    packWait P = .ok W ↔ W.length = 2 ∧ readBits W 0 15 = P.waitWord.toNat :=
  packFields_word16_ok_iff P.waitWord.isLt

/-- The field writes of a Ret word (44 R241). -/
def retWrites (P : Params) (n : Nat) : List FieldWrite :=
  [⟨0, 6, P.opcRet.toNat⟩, ⟨9, 15, n⟩]

theorem retWrites_tile (P : Params) (n : Nat) :
    Tiles 2 ((retWrites P n).map FieldWrite.range ++ [(7, 8)]) := by
  have hranges : (retWrites P n).map FieldWrite.range ++ [(7, 8)] = [(0, 6), (9, 15), (7, 8)] := rfl
  rw [hranges]
  exact ⟨by decide, by decide, by decide⟩

theorem retWrites_value_lt {P : Params} {n : Nat} (hn : n < 128) :
    ∀ w ∈ retWrites P n, w.value < 2 ^ (w.hi - w.lo + 1) := by
  have hkey := P.opcRet.isLt
  simp [retWrites]
  omega

/-- Everything `pack_ret` can do: a 32-bit register below 128, and the one word that names it
(44 R241). -/
theorem packRet_ok_iff {P : Params} {reg : Operand} {W : Buffer} :
    packRet P reg = .ok W ↔
      W.length = 2 ∧ readBits W 0 6 = P.opcRet.toNat ∧ readBits W 7 8 = 0 ∧
        reg.kind = .r32 (readBits W 9 15) := by
  have hword : ∀ n < 128, packFields 2 (retWrites P n) = .ok W ↔
      W.length = 2 ∧ readBits W 0 6 = P.opcRet.toNat ∧ readBits W 7 8 = 0 ∧
        readBits W 9 15 = n := by
    intro n hn
    rw [packFields_ok_iff (retWrites_tile P n) (retWrites_value_lt hn)]
    constructor
    · rintro ⟨hlen, hfields, hgaps⟩
      simp [retWrites] at hfields hgaps
      exact ⟨hlen, hfields.1, hgaps, hfields.2⟩
    · rintro ⟨hlen, hkey, hgap, hreg⟩
      exact ⟨hlen, by simp [retWrites, hkey, hreg], by simp [hgap]⟩
  obtain ⟨kind, se⟩ := reg
  have hlt := readBits_lt W 9 15
  cases kind with
  | r32 n =>
    by_cases hn : n < 128
    · simp only [packRet, if_pos hn, OperandKind.r32.injEq, eq_comm (a := n)]
      exact hword n hn
    · simp only [packRet, if_neg hn, OperandKind.r32.injEq, reduceCtorEq, false_iff]
      rintro ⟨-, -, -, rfl⟩
      exact hn hlt
  | imm v | r16l n | r16h n | r64 n | u64 n => simp [packRet]

end Sys2Proof
end

section
/-! SUPPORT. The key table, and what it is for a word to decode to an instruction (30_encoding.md
R83, R84, 45_stream_codec.md R261). -/

namespace Sys2Proof

/-! ## The key table -/

/-- The key of each row of the table (30_encoding.md R83). -/
def WordKind.key (P : Params) : WordKind → Nat
  | .load => P.opcLoad.toNat
  | .store => P.opcStore.toNat
  | .mov => movKey
  | .ret => P.opcRet.toNat
  | .stop => stopWord % 128
  | .wait => P.waitWord.toNat % 128

theorem key_of_wordKind {P : Params} {key : Nat} {kind : WordKind}
    (h : wordKind P key = some kind) : key = kind.key P := by
  unfold wordKind at h
  split_ifs at h <;> cases h <;> assumption

theorem mem_keys (P : Params) (kind : WordKind) : kind.key P ∈ P.keys := by
  cases kind <;> simp [Params.keys, WordKind.key, movKey, stopWord]

/-- The keys of a legal configuration are pairwise distinct (R84). -/
theorem key_injective {P : Params} (hP : P.valid = true) {kind kind' : WordKind}
    (h : kind.key P = kind'.key P) : kind = kind' := by
  have hkeys : ([.load, .store, .mov, .ret, .stop, .wait].map (WordKind.key P)).Nodup :=
    of_decide_eq_true (Bool.and_eq_true_iff.mp hP).1
  have hall : ∀ k : WordKind, k ∈ [WordKind.load, .store, .mov, .ret, .stop, .wait] := by
    intro k
    cases k <;> decide
  exact List.inj_on_of_nodup_map hkeys (hall kind) (hall kind') h

/-- A key in no row has no kind, whatever the configuration (30 R95). -/
theorem wordKind_eq_none_iff {P : Params} {key : Nat} :
    wordKind P key = none ↔ key ∉ P.keys := by
  simp only [Params.keys, List.mem_cons, List.not_mem_nil, or_false, not_or]
  unfold wordKind
  split_ifs <;> simp_all [movKey, stopWord]

/-- Under a legal configuration every row's key selects the row (R83, R84). -/
theorem wordKind_key {P : Params} (hP : P.valid = true) (kind : WordKind) :
    wordKind P (kind.key P) = some kind := by
  cases hk : wordKind P (kind.key P) with
  | none => exact absurd (mem_keys P kind) (wordKind_eq_none_iff.mp hk)
  | some kind' => rw [key_injective hP (key_of_wordKind hk)]

/-- The key is the low 7 bits of the first 16 (30 R82). -/
theorem readBits_zero_six (W : Buffer) : readBits W 0 6 = readBits W 0 15 % 128 := by
  simpa using readBits_sub W (lo := 0) (hi := 15) (s := 0) (e := 6) (by decide) (by decide)

/-! ## Words that decode -/

/-- A word's length does not depend on the offset it stands at. -/
theorem wordLength_at {P : Params} {H : Buffer} {c n : Nat} (h : wordLength P H c = .ok n)
    (c' : Nat) : wordLength P H c' = .ok n := by
  unfold wordLength at h ⊢
  dsimp only at h ⊢
  cases hk : wordKind P (readBits H 0 6) with
  | none => simp [hk] at h
  | some kind =>
    cases kind with
    | mov =>
      simp only [hk] at h ⊢
      split_ifs at h ⊢ <;> exact h
    | load | store | ret | stop | wait => simpa [hk] using h

/-- The bytes `W` are one whole word that the decoder reads as `i` (45_stream_codec.md R261). -/
structure Decodes (P : Params) (W : Buffer) (i : Instr) : Prop where
  length : ∀ c, wordLength P W c = .ok W.length
  instr : ∃ kind, wordKind P (readBits W 0 6) = some kind ∧ unpackKind P W kind = .ok i

/-- A decode step accepts exactly the words that decode, wherever they stand (R261). -/
theorem unpackAt_ok_iff_decodes {P : Params} {B : Buffer} {c n : Nat} {d : Decoded} :
    unpackAt P B c = .ok (d, n) ↔
      n = d.span.length ∧ Decodes P d.span d.instr ∧ ∃ rest, B.drop c = d.span ++ rest := by
  rw [unpackAt_ok_iff]
  constructor
  · rintro ⟨-, hlen, hin, hspan, hkind⟩
    have hn : n = d.span.length := by rw [hspan, List.length_take, Nat.min_eq_left hin]
    rw [wordLength_take_two P _ c (two_le_of_wordLength hlen), ← hspan] at hlen
    exact ⟨hn, ⟨fun c' => hn ▸ wordLength_at hlen c', hkind⟩, (B.drop c).drop n,
      by rw [hspan, List.take_append_drop]⟩
  · rintro ⟨rfl, ⟨hlen, hkind⟩, rest, hdrop⟩
    have htwo := two_le_of_wordLength (hlen c)
    have htake : (d.span ++ rest).take d.span.length = d.span := List.take_left
    rw [hdrop, wordLength_take_two P _ c htwo, htake]
    refine ⟨?_, hlen c, ?_, rfl, hkind⟩ <;>
    · rw [List.length_append]
      omega

/-- A word that decodes does so at any offset of any buffer that holds it there. -/
theorem Decodes.unpackAt {P : Params} {W : Buffer} {i : Instr} (h : Decodes P W i)
    (before after : Buffer) :
    Sys2Proof.unpackAt P (before ++ W ++ after) before.length = .ok (⟨i, W⟩, W.length) :=
  unpackAt_ok_iff_decodes.mpr ⟨rfl, h, after, by rw [List.append_assoc, List.drop_left]⟩

/-- A word decodes to one instruction. -/
theorem Decodes.unique {P : Params} {W : Buffer} {i j : Instr} (hi : Decodes P W i)
    (hj : Decodes P W j) : i = j := by
  obtain ⟨kind, hkind, hi⟩ := hi.instr
  obtain ⟨kind', hkind', hj⟩ := hj.instr
  cases hkind.symm.trans hkind'
  cases hi.symm.trans hj
  rfl

/-- A word of a kind other than Mov decodes when it has the kind's length and its unpacker accepts
it. -/
theorem decodes_of_unpackKind {P : Params} {W : Buffer} {i : Instr} {kind : WordKind}
    (hP : P.valid = true) (hkey : readBits W 0 6 = kind.key P) (hmov : kind ≠ .mov)
    (hlen : W.length = i.length) (h : unpackKind P W kind = .ok i) : Decodes P W i := by
  have hk : wordKind P (readBits W 0 6) = some kind := hkey ▸ wordKind_key hP kind
  have hn : ∃ n, wordLength P W 0 = .ok n := by
    cases kind with
    | mov => exact absurd rfl hmov
    | load | store => exact ⟨8, by simp only [wordLength, hk]⟩
    | ret | stop | wait => exact ⟨2, by simp only [wordLength, hk]⟩
  obtain ⟨n, hn⟩ := hn
  refine ⟨fun c => ?_, kind, hk, h⟩
  rw [hlen, ← wordLength_eq_length hk hn h]
  exact wordLength_at hn c

/-- A Mov word decodes exactly when it has the key, flags and zero bits of a form and its
destination field decodes (43_move.md R213). -/
theorem decodes_mov_iff {P : Params} {W : Buffer} {i : Instr}
    (hk : wordKind P (readBits W 0 6) = some .mov) :
    Decodes P W i ↔ ∃ form dest, MovWord form W ∧ decDst (movDestOf form W) = .ok dest ∧
      i = form.make dest (.imm (BitVec.ofNat 64 (movImmOf form W))) := by
  have hkey : readBits W 0 6 = movKey := key_of_wordKind hk
  constructor
  · rintro ⟨hlen, kind, hk', h⟩
    cases hk.symm.trans hk'
    have hlen := (wordLength_mov_ok_iff hk).mp (hlen 0)
    obtain ⟨hf, dest, hdest, rfl⟩ | ⟨hf, hl, h32, h46, dest, hdest, rfl⟩ |
      ⟨hf, hl, h48, h62, dest, hdest, rfl⟩ := unpackMov_ok_iff.mp h
    · have hform : W.length = 4 ∧ readBits W 15 15 = 0 := by omega
      exact ⟨.half, dest, ⟨hform.1, hkey, hf, hform.2, by simp [MovForm.gaps]⟩, hdest, rfl⟩
    · have hform : W.length = 6 ∧ readBits W 7 8 = 2 := by omega
      exact ⟨.short, dest, ⟨hform.1, hkey, hform.2, hl, by simp [MovForm.gaps, h32, h46]⟩, hdest,
        rfl⟩
    · have hlong := readBits_lt W 15 15
      have hform : W.length = 8 ∧ readBits W 7 8 = 2 ∧ readBits W 15 15 = 1 := by omega
      exact ⟨.long, dest, ⟨hform.1, hkey, hform.2.1, hform.2.2, by simp [MovForm.gaps, h48, h62]⟩,
        hdest, rfl⟩
  · rintro ⟨form, dest, ⟨hlen, -, hflag, hlong, hgaps⟩, hdest, rfl⟩
    refine ⟨fun c => (wordLength_mov_ok_iff hk).mpr ?_, .mov, hk, unpackMov_ok_iff.mpr ?_⟩
    · rw [hlen, hflag, hlong]
      cases form <;> decide
    · cases form with
      | half => exact .inl ⟨hflag, dest, hdest, rfl⟩
      | short =>
        exact .inr (.inl ⟨by simp [hflag, MovForm.flag], hlong, hgaps (32, 43) (by decide),
          hgaps (46, 47) (by decide), dest, hdest, rfl⟩)
      | long =>
        exact .inr (.inr ⟨by simp [hflag, MovForm.flag], by simp [hlong, MovForm.longFlag],
          hgaps (48, 59) (by decide), hgaps (62, 63) (by decide), dest, hdest, rfl⟩)

end Sys2Proof
end

section
/-! SUPPORT. Well-formed instructions are what the encoder takes, and the two laws of 30_encoding.md
R102 between the packers and the decode step. -/

namespace Sys2Proof

/-! ## Well-formed is what encodes -/

theorem isRegList_iff {op : Operand} :
    op.isRegList = true ↔ op.se = false ∧ ∃ f, encReg op = .ok f := by
  obtain ⟨kind, se⟩ := op
  cases se <;> cases kind <;>
    simp [Operand.isRegList, encReg, pure, Except.pure]

theorem isBase_iff {op : Operand} :
    op.isBase = true ↔ op.se = false ∧ ∃ f, encBase op = .ok f := by
  obtain ⟨kind, se⟩ := op
  cases se <;> cases kind <;>
    simp [Operand.isBase, encBase, pure, Except.pure]

theorem isOffset_iff {op : Operand} : op.isOffset = true ↔ ∃ f, encOff op = .ok f := by
  constructor
  · intro h
    obtain ⟨kind, se⟩ := op
    cases kind with
    | imm v =>
      cases se with
      | true =>
        obtain ⟨shift, raw, hc⟩ := compress_of_offsetFits h
        exact ⟨⟨1, 1, shift, raw⟩, encOff_imm_ok_iff.mpr ⟨rfl, rfl, hc⟩⟩
      | false => cases h
    | r32 n => exact ⟨_, encOff_r32_ok_iff.mpr ⟨of_decide_eq_true h, rfl⟩⟩
    | r16l n | r16h n | r64 n | u64 n => cases se <;> cases h
  · rintro ⟨f, h⟩
    have hf := encOff_fits h
    exact isOffset_of_decOff hf.raw hf.shift (decOff_of_encOff h)

theorem isHalfDest_iff {op : Operand} :
    op.isHalfDest = true ↔ op.se = false ∧ ∃ f, encDst op = .ok f ∧ f.flag = 0 := by
  obtain ⟨kind, se⟩ := op
  cases se <;> cases kind <;>
    simp [Operand.isHalfDest, encDst, pure, Except.pure]

theorem isReg128_iff {op : Operand} :
    op.isReg128 = true ↔ op.se = false ∧ ∃ f, encDst op = .ok f ∧ f.flag = 2 := by
  obtain ⟨kind, se⟩ := op
  cases se <;> cases kind <;>
    simp [Operand.isReg128, encDst, pure, Except.pure]

theorem isImmBelow_iff {op : Operand} {bound : Nat} :
    op.isImmBelow bound = true ↔ op.se = false ∧ ∃ v, encMovImm op bound = .ok v := by
  obtain ⟨kind, se⟩ := op
  cases se <;> cases kind <;>
    simp [Operand.isImmBelow, encMovImm, except_bind_ok_iff, pure, Except.pure]

/-- The operands whose `se` flag the encoding does not hold have it off (10_state.md R37). -/
def Instr.Plain : Instr → Prop
  | .deviceLoad _ _ reg base _ => reg.se = false ∧ base.se = false
  | .deviceStore _ _ reg base _ => reg.se = false ∧ base.se = false
  | .movHalf dest src => dest.se = false ∧ src.se = false
  | .movShort dest src => dest.se = false ∧ src.se = false
  | .movLong dest src => dest.se = false ∧ src.se = false
  | .ret reg => reg.se = false
  | .stop => True
  | .wait => True

/-- The destinations of a form (43_move.md R211). -/
def MovForm.isDest : MovForm → Operand → Bool
  | .half => Operand.isHalfDest
  | .short => Operand.isReg128
  | .long => Operand.isReg128

theorem MovForm.isDest_iff {form : MovForm} {op : Operand} :
    form.isDest op = true ↔ op.se = false ∧ ∃ f, encDst op = .ok f ∧ f.flag = form.flag := by
  cases form
  · exact isHalfDest_iff
  · exact isReg128_iff
  · exact isReg128_iff

theorem wf_make (form : MovForm) (dest src : Operand) :
    (form.make dest src).wf = (form.isDest dest && src.isImmBelow form.immBound) := by
  cases form <;> rfl

theorem plain_make_iff {form : MovForm} {dest src : Operand} :
    (form.make dest src).Plain ↔ dest.se = false ∧ src.se = false := by
  cases form <;> exact Iff.rfl

theorem wf_make_iff {form : MovForm} {dest src : Operand} :
    (form.make dest src).wf = true ↔
      (form.make dest src).Plain ∧ ∃ d v, formFields form dest src = .ok (form, d, v) := by
  rw [wf_make, Bool.and_eq_true, MovForm.isDest_iff, isImmBelow_iff, plain_make_iff]
  simp only [formFields_ok_iff, true_and]
  constructor
  · rintro ⟨⟨hdest, d, hd, hflag⟩, hsrc, v, hv⟩
    exact ⟨⟨hdest, hsrc⟩, d, v, hd, hflag, hv⟩
  · rintro ⟨⟨hdest, hsrc⟩, d, v, hd, hflag, hv⟩
    exact ⟨⟨hdest, d, hd, hflag⟩, hsrc, v, hv⟩

theorem transferFieldsWF_iff {key fc mask : Nat} {reg base off : Operand} (hkey : key < 128) :
    transferFieldsWF fc mask reg base off = true ↔
      (reg.se = false ∧ base.se = false) ∧ ∃ W, packTransfer key fc mask reg base off = .ok W := by
  simp only [transferFieldsWF, Bool.and_eq_true, decide_eq_true_eq, isRegList_iff, isBase_iff,
    isOffset_iff]
  constructor
  · rintro ⟨⟨⟨⟨⟨hfc, h1⟩, h15⟩, hreg, r, hr⟩, hbase, b, hb⟩, o, ho⟩
    rw [packTransfer_of_enc hkey hfc ⟨h1, h15⟩ hr hb ho]
    exact ⟨⟨hreg, hbase⟩,
      exists_packFields_transfer (transferFit_of_enc hkey hfc ⟨h1, h15⟩ hr hb ho)⟩
  · rintro ⟨⟨hreg, hbase⟩, W, hW⟩
    obtain ⟨hr, hb, ho, hword⟩ := (packTransfer_ok_iff hkey).mp hW
    obtain ⟨-, -, -, -, -, -, hmask⟩ := checkTransferBits_ok_iff.mp hword.bits
    have hfc := hword.fc ▸ formatCodeOf_le W
    have hm := hword.mask
    have hlt := readBits_lt W 52 55
    exact ⟨⟨⟨⟨⟨hfc, by omega⟩, by omega⟩, hreg, _, hr⟩, hbase, _, hb⟩, _, ho⟩

theorem wf_ret_iff {P : Params} {reg : Operand} :
    (Instr.ret reg).wf = true ↔ reg.se = false ∧ ∃ W, packRet P reg = .ok W := by
  have hword : ∀ n < 128, ∃ W, packFields 2 (retWrites P n) = .ok W := fun n hn => by
    obtain ⟨W, hW, -⟩ := packFields_readsAs (retWrites_tile P n) (retWrites_value_lt hn)
    exact ⟨W, hW⟩
  obtain ⟨kind, se⟩ := reg
  cases kind with
  | r32 n =>
    by_cases hn : n < 128
    · have hW : ∃ W, packRet P ⟨.r32 n, se⟩ = .ok W := by
        simpa only [packRet, retWrites, if_pos hn] using hword n hn
      cases se <;> simp [Instr.wf, Operand.isReg128, hn, hW]
    · cases se <;> simp [Instr.wf, Operand.isReg128, packRet, hn]
  | imm v | r16l n | r16h n | r64 n | u64 n =>
    cases se <;> simp [Instr.wf, Operand.isReg128, packRet]

/-- Well-formed instructions are exactly the ones the encoder takes, with `se` off wherever the
encoding does not hold it (10 R37, 30 R101). -/
theorem wf_iff_encode {P : Params} {i : Instr} :
    i.wf = true ↔ i.Plain ∧ ∃ W, encode P i = .ok W := by
  have hmov : ∀ (form : MovForm) (dest src : Operand), (form.make dest src).wf = true ↔
      (form.make dest src).Plain ∧ ∃ W, encode P (form.make dest src) = .ok W := by
    intro form dest src
    rw [wf_make_iff, encode_make]
    refine and_congr_right fun _ => ⟨fun ⟨d, v, h⟩ => exists_movWord h, fun ⟨W, h⟩ => ?_⟩
    obtain ⟨form', d, v, hf, -⟩ := movWord_length h
    exact ⟨d, v, formFields_form hf ▸ hf⟩
  cases i with
  | deviceLoad fc mask reg base off => exact transferFieldsWF_iff P.opcLoad.isLt
  | deviceStore fc mask reg base off => exact transferFieldsWF_iff P.opcStore.isLt
  | movHalf dest src => exact hmov .half dest src
  | movShort dest src => exact hmov .short dest src
  | movLong dest src => exact hmov .long dest src
  | ret reg => exact wf_ret_iff
  | stop => exact iff_of_true rfl ⟨trivial, exists_packFields_word16 (v := stopWord) (by decide)⟩
  | wait => exact iff_of_true rfl ⟨trivial, exists_packFields_word16 P.waitWord.isLt⟩

/-! ## Decoding what was encoded -/

/-- A Load or Store word that packs decodes to what it was packed from (42_load_store.md R184). -/
theorem unpackTransfer_of_packTransfer
    {make : Nat → Nat → Operand → Operand → Operand → Instr} {key fc mask : Nat}
    {reg base off : Operand} {W : Buffer} (hkey : key < 128)
    (hse : reg.se = false ∧ base.se = false)
    (h : packTransfer key fc mask reg base off = .ok W) :
    W.length = 8 ∧ readBits W 0 6 = key ∧
      unpackTransfer make W = .ok (make fc mask reg base off) := by
  obtain ⟨hr, hb, ho, hword⟩ := (packTransfer_ok_iff hkey).mp h
  obtain ⟨-, -, hr⟩ := (encReg_ok_iff hse.1).mp hr
  obtain ⟨-, -, hb⟩ := (encBase_ok_iff hse.2).mp hb
  refine ⟨hword.length, hword.key, unpackTransfer_ok_iff.mpr
    ⟨hword.bits, reg, base, off, hr, hb, decOff_of_encOff ho, ?_⟩⟩
  rw [hword.fc, hword.mask]

theorem decodes_of_movWord {P : Params} {form : MovForm} {dest src : Operand} {W : Buffer}
    (hP : P.valid = true) (hplain : (form.make dest src).Plain)
    (h : movWord (formFields form dest src) = .ok W) : Decodes P W (form.make dest src) := by
  obtain ⟨hdest, hsrc⟩ := plain_make_iff.mp hplain
  obtain ⟨hword, hd, himm⟩ := movWord_ok_iff.mp h
  have hk : wordKind P (readBits W 0 6) = some .mov := hword.key ▸ wordKind_key hP .mov
  refine (decodes_mov_iff hk).mpr ⟨form, dest, hword, ((encDst_ok_iff hdest).mp hd).2, ?_⟩
  rw [show src = ⟨src.kind, src.se⟩ from rfl, himm, hsrc]

/-- The word of a well-formed instruction decodes to it (30 R102, first law). -/
theorem decodes_of_encode {P : Params} {i : Instr} {W : Buffer} (hP : P.valid = true)
    (hplain : i.Plain) (h : encode P i = .ok W) : Decodes P W i := by
  cases i with
  | deviceLoad fc mask reg base off =>
    obtain ⟨hlen, hkey, hunpack⟩ := unpackTransfer_of_packTransfer P.opcLoad.isLt hplain h
    exact decodes_of_unpackKind (kind := .load) hP hkey (by decide) hlen hunpack
  | deviceStore fc mask reg base off =>
    obtain ⟨hlen, hkey, hunpack⟩ := unpackTransfer_of_packTransfer P.opcStore.isLt hplain h
    exact decodes_of_unpackKind (kind := .store) hP hkey (by decide) hlen hunpack
  | movHalf dest src => exact decodes_of_movWord (form := .half) hP hplain h
  | movShort dest src => exact decodes_of_movWord (form := .short) hP hplain h
  | movLong dest src => exact decodes_of_movWord (form := .long) hP hplain h
  | ret reg =>
    obtain ⟨hlen, hkey, hgap, hreg⟩ := packRet_ok_iff.mp h
    refine decodes_of_unpackKind (kind := .ret) hP hkey (by decide) hlen
      (unpackRet_ok_iff.mpr ⟨hgap, ?_⟩)
    rw [show reg = ⟨reg.kind, reg.se⟩ from rfl, hreg, show reg.se = false from hplain]
  | stop =>
    obtain ⟨hlen, hread⟩ := packStop_ok_iff.mp h
    refine decodes_of_unpackKind (kind := .stop) hP ?_ (by decide) hlen
      (unpackStop_ok_iff.mpr ⟨hread, rfl⟩)
    rw [readBits_zero_six, hread]
    rfl
  | wait =>
    obtain ⟨hlen, hread⟩ := packWait_ok_iff.mp h
    refine decodes_of_unpackKind (kind := .wait) hP ?_ (by decide) hlen
      (unpackWait_ok_iff.mpr ⟨hread, rfl⟩)
    rw [readBits_zero_six, hread]
    rfl

/-- Settles O10: a well-formed instruction encodes, and its word reads back as its fields. -/
theorem decodeOfEncode : Obligations.DecodeOfEncode := by
  intro P i before after hP hwf
  obtain ⟨hplain, W, hW⟩ := (wf_iff_encode (P := P)).mp hwf
  have hdec := decodes_of_encode hP hplain hW
  have hat := hdec.unpackAt before after
  exact ⟨W, hW, length_of_unpackAt hat, hat⟩

/-! ## Canonical words -/

/-- The form the packer chooses for a Mov: half for a half-register destination, else long exactly
when the immediate is `2^16` or more (43_move.md R214). -/
def movFormOf (dest src : Operand) : MovForm :=
  match dest.kind, src.kind with
  | .r16l _, _ => .half
  | .r16h _, _ => .half
  | _, .imm v => if 2 ^ 16 ≤ v.toInt then .long else .short
  | _, _ => .short

theorem canonicalMov_eq_make (dest src : Operand) :
    canonicalMov dest src = (movFormOf dest src).make dest src := by
  obtain ⟨kind, se⟩ := dest
  obtain ⟨kind', se'⟩ := src
  cases kind with
  | r16l n | r16h n => rfl
  | imm u | r32 n | r64 n | u64 n =>
    cases kind' with
    | imm v =>
      simp only [canonicalMov, movFormOf]
      split <;> rfl
    | r16l m | r16h m | r32 m | r64 m | u64 m => rfl

theorem canonical_make (form : MovForm) (dest src : Operand) :
    (form.make dest src).canonical = (movFormOf dest src).make dest src := by
  cases form <;> exact canonicalMov_eq_make dest src

/-- The form `pack_mov` chooses from the encoded fields is the one the operands ask for. -/
theorem movFormOf_of_enc {dest src : Operand} {d : DestFields} {v : Nat} (hd : encDst dest = .ok d)
    (hv : v < 2 ^ 32) (hsrc : src.kind = .imm (BitVec.ofNat 64 v)) :
    movFormOf dest src = if d.flag ≠ 2 then .half else if 2 ^ 16 ≤ v then .long else .short := by
  have himm : (BitVec.ofNat 64 v).toInt = v := imm64_toInt_ofNat (by omega)
  obtain ⟨kind, se⟩ := dest
  cases kind with
  | r32 n =>
    obtain ⟨-, hd⟩ := check_bind_ok_iff.mp hd
    cases hd
    simp only [movFormOf, hsrc, himm, ne_eq, not_true_eq_false, if_false]
    norm_cast
  | r16l n | r16h n =>
    obtain ⟨-, hd⟩ := check_bind_ok_iff.mp hd
    cases hd
    rfl
  | imm u | r64 n | u64 n => cases hd

/-- An immediate that fits a form fits the bound `pack_mov` sets by the destination flag. -/
theorem lt_packBound {form : MovForm} {flag v : Nat} (hflag : flag = form.flag)
    (hv : v < form.immBound) : v < if flag = 2 then 2 ^ 32 else 2 ^ 16 := by
  subst hflag
  cases form
  · exact hv
  · exact hv.trans (by decide)
  · exact hv

theorem packBound_le (flag : Nat) : (if flag = 2 then 2 ^ 32 else 2 ^ 16) ≤ 2 ^ 63 := by
  split <;> decide

theorem exists_movFields {form : MovForm} {dest src : Operand} {d : DestFields} {v : Nat}
    (h : formFields form dest src = .ok (form, d, v)) :
    ∃ form', movFields dest src = .ok (form', d, v) := by
  obtain ⟨-, hd, hflag, hv⟩ := formFields_ok_iff.mp h
  obtain ⟨hv, hsrc⟩ := (encMovImm_ok_iff (immBound_le form)).mp hv
  have himm := (encMovImm_ok_iff (packBound_le d.flag)).mpr ⟨lt_packBound hflag hv, hsrc⟩
  simp only [movFields, hd, himm, bind, Except.bind, pure, Except.pure]
  exact ⟨_, rfl⟩

/-- `pack_mov` packs in the form the operands ask for (43 R212). -/
theorem movFields_ok_iff {dest src : Operand} {form : MovForm} {d : DestFields} {v : Nat} :
    movFields dest src = .ok (form, d, v) ↔
      form = movFormOf dest src ∧ formFields form dest src = .ok (form, d, v) := by
  have hfields : movFields dest src = .ok (form, d, v) ↔ encDst dest = .ok d ∧
      encMovImm src (if d.flag = 2 then 2 ^ 32 else 2 ^ 16) = .ok v ∧
        (if d.flag ≠ 2 then .half else if 2 ^ 16 ≤ v then .long else .short) = form := by
    simp only [movFields, except_bind_ok_iff, pure, Except.pure, Except.ok.injEq, Prod.mk.injEq]
    constructor
    · rintro ⟨_, hd, _, hv, hform, rfl, rfl⟩
      exact ⟨hd, hv, hform⟩
    · rintro ⟨hd, hv, hform⟩
      exact ⟨_, hd, _, hv, hform, rfl, rfl⟩
  rw [hfields, formFields_ok_iff, encMovImm_ok_iff (packBound_le d.flag),
    encMovImm_ok_iff (immBound_le form)]
  constructor
  · rintro ⟨hd, ⟨hv, hsrc⟩, rfl⟩
    refine ⟨(movFormOf_of_enc hd (by split at hv <;> omega) hsrc).symm, rfl, hd, ?_, ?_, hsrc⟩ <;>
    obtain ⟨hflag, -⟩ | ⟨hflag, -⟩ := encDst_fits hd <;>
    by_cases hlong : 65536 ≤ v <;>
    simp [hflag, hlong, MovForm.flag, MovForm.immBound] at hv ⊢ <;>
    omega
  · rintro ⟨hform, -, hd, hflag, hv, hsrc⟩
    have hbounds := lt_packBound hflag hv
    have hchosen := movFormOf_of_enc hd (by split at hbounds <;> omega) hsrc
    exact ⟨hd, ⟨hbounds, hsrc⟩, (hform.trans hchosen).symm⟩

/-- The packer gives exactly the encoding of the canonical twin (45_stream_codec.md R263,
30 R101). -/
theorem pack_ok_iff {P : Params} {i : Instr} {W : Buffer} :
    pack P i = .ok W ↔ encode P i.canonical = .ok W := by
  have hmov : ∀ dest src : Operand,
      packMov dest src = .ok W ↔ encode P (canonicalMov dest src) = .ok W := by
    intro dest src
    rw [canonicalMov_eq_make, encode_make]
    constructor
    · intro h
      obtain ⟨form, d, v, hf, -⟩ := movWord_length h
      obtain ⟨rfl, hf'⟩ := movFields_ok_iff.mp hf
      rwa [hf', ← hf]
    · intro h
      obtain ⟨form, d, v, hf, -⟩ := movWord_length h
      obtain rfl := formFields_form hf
      rwa [packMov, movFields_ok_iff.mpr ⟨rfl, hf⟩, ← hf]
  cases i with
  | movHalf dest src | movShort dest src | movLong dest src => exact hmov dest src
  | deviceLoad | deviceStore | ret | stop | wait => exact Iff.rfl

theorem canonical_plain {i : Instr} (h : i.Plain) : i.canonical.Plain := by
  have hmov : ∀ dest src : Operand, dest.se = false ∧ src.se = false →
      (canonicalMov dest src).Plain := fun dest src h => by
    rw [canonicalMov_eq_make]
    exact plain_make_iff.mpr h
  cases i with
  | movHalf dest src | movShort dest src | movLong dest src => exact hmov dest src h
  | deviceLoad | deviceStore | ret | stop | wait => exact h

/-- Every well-formed instruction packs, in whatever form it is written (43 R214, 30 R101). -/
theorem exists_pack {P : Params} {i : Instr} (h : i.wf = true) : ∃ W, pack P i = .ok W := by
  have hmov : ∀ (form : MovForm) (dest src : Operand), (form.make dest src).wf = true →
      ∃ W, packMov dest src = .ok W := by
    intro form dest src h
    obtain ⟨-, d, v, hf⟩ := wf_make_iff.mp h
    obtain ⟨form', hm⟩ := exists_movFields hf
    obtain ⟨W, hW⟩ := exists_movWord (movFields_ok_iff.mp hm).2
    rw [(movFields_ok_iff.mp hm).2, ← hm] at hW
    exact ⟨W, hW⟩
  cases i with
  | movHalf dest src => exact hmov .half dest src h
  | movShort dest src => exact hmov .short dest src h
  | movLong dest src => exact hmov .long dest src h
  | deviceLoad | deviceStore | ret | stop | wait => exact (wf_iff_encode (P := P).mp h).2

/-- What the packer gives for a well-formed instruction decodes to its canonical twin (30 R101). -/
theorem decodes_of_pack {P : Params} {i : Instr} {W : Buffer} (hP : P.valid = true) (hi : i.Plain)
    (h : pack P i = .ok W) : Decodes P W i.canonical :=
  decodes_of_encode hP (canonical_plain hi) (pack_ok_iff.mp h)

theorem Decodes.plain {P : Params} {W : Buffer} {i : Instr} (h : Decodes P W i) : i.Plain := by
  obtain ⟨kind, -, hunpack⟩ := h.instr
  exact (wf_iff_encode (P := P).mp (wf_of_unpackKind hunpack)).1

theorem movDestOf_fits (form : MovForm) (W : Buffer) : (movDestOf form W).Fits := by
  cases form
  · exact .inr ⟨rfl, readBits_lt W 9 14⟩
  · exact .inl ⟨rfl, destField_lt W⟩
  · exact .inl ⟨rfl, destField_lt W⟩

/-- The offset field of a word is the one `compress` gives for the immediate offset of its
instruction, if it has one (30 R100). -/
def OffsetCanonical (W : Buffer) : Instr → Prop
  | .deviceLoad _ _ _ _ off => ∀ v, off.kind = .imm v →
    compress v.toInt = .ok ((offsetFieldsOf W).shift, (offsetFieldsOf W).raw)
  | .deviceStore _ _ _ _ off => ∀ v, off.kind = .imm v →
    compress v.toInt = .ok ((offsetFieldsOf W).shift, (offsetFieldsOf W).raw)
  | _ => True

/-- A word is canonical when its Mov is in the packer's form and its offset is compressed (R100). -/
theorem Decoded.canonical_iff {i : Instr} {W : Buffer} :
    (⟨i, W⟩ : Decoded).canonical = true ↔ i.canonical = i ∧ OffsetCanonical W i := by
  cases i with
  | deviceLoad fc mask reg base off | deviceStore fc mask reg base off =>
    obtain ⟨kind, se⟩ := off
    cases kind <;> simp [Decoded.canonical, Instr.canonical, OffsetCanonical]
  | movHalf | movShort | movLong | ret | stop | wait =>
    simp [Decoded.canonical, OffsetCanonical]

theorem offsetFieldsOf_fits (W : Buffer) : (offsetFieldsOf W).Fits :=
  ⟨readBits_lt W 24 24, readBits_lt W 25 25, offsetFieldsOf_shift_lt W, offsetFieldsOf_raw_lt W⟩

/-- An accepted Load or Store word is the packing of its fields exactly when its offset field is
canonical (30 R100, R102). -/
theorem packTransfer_iff_of_unpackTransfer {key : Nat} {reg base off : Operand} {W : Buffer}
    (hkey : key < 128) (hlen : W.length = 8) (hk : readBits W 0 6 = key)
    (hbits : checkTransferBits W = .ok ()) (hse : reg.se = false ∧ base.se = false)
    (hr : decReg (regFieldsOf W) = .ok reg) (hb : decBase (baseFieldsOf W) = .ok base)
    (ho : decOff (offsetFieldsOf W) = .ok off) :
    packTransfer key (formatCodeOf W) (readBits W 52 55) reg base off = .ok W ↔
      ∀ v, off.kind = .imm v →
        compress v.toInt = .ok ((offsetFieldsOf W).shift, (offsetFieldsOf W).raw) := by
  have hreg := (encReg_ok_iff hse.1).mpr ⟨readBits_lt W 49 49, regFieldsOf_raw_lt W, hr⟩
  have hbase := (encBase_ok_iff hse.2).mpr ⟨readBits_lt W 27 27, baseFieldsOf_raw_lt W, hb⟩
  rw [packTransfer_ok_iff hkey, encOff_ok_iff_of_decOff (offsetFieldsOf_fits W) ho]
  constructor
  · rintro ⟨-, -, hoff, -⟩
    exact hoff
  · intro hoff
    exact ⟨hreg, hbase, hoff, ⟨hlen, hk, hbits, rfl, rfl, rfl, rfl, rfl⟩⟩

/-- An accepted word is the encoding of its instruction exactly when its offset field is canonical
(30 R102, second law). -/
theorem encode_ok_iff_of_decodes {P : Params} {W : Buffer} {i : Instr} (h : Decodes P W i) :
    encode P i = .ok W ↔ OffsetCanonical W i := by
  have hplain := h.plain
  obtain ⟨kind, hk, hunpack⟩ := h.instr
  have hkey := key_of_wordKind hk
  have hlen := wordLength_eq_length hk (h.length 0) hunpack
  cases kind with
  | load =>
    obtain ⟨hbits, reg, base, off, hr, hb, ho, rfl⟩ := unpackTransfer_ok_iff.mp hunpack
    exact packTransfer_iff_of_unpackTransfer P.opcLoad.isLt hlen hkey hbits hplain hr hb ho
  | store =>
    obtain ⟨hbits, reg, base, off, hr, hb, ho, rfl⟩ := unpackTransfer_ok_iff.mp hunpack
    exact packTransfer_iff_of_unpackTransfer P.opcStore.isLt hlen hkey hbits hplain hr hb ho
  | mov =>
    obtain ⟨form, dest, hword, hdest, rfl⟩ := (decodes_mov_iff hk).mp h
    have hd := (encDst_ok_iff (plain_make_iff.mp hplain).1).mpr ⟨movDestOf_fits form W, hdest⟩
    rw [encode_make, movWord_ok_iff]
    exact iff_of_true ⟨hword, hd, rfl⟩ (by cases form <;> trivial)
  | ret =>
    obtain ⟨hgap, rfl⟩ := unpackRet_ok_iff.mp hunpack
    exact iff_of_true (packRet_ok_iff (reg := .r32 _).mpr ⟨hlen, hkey, hgap, rfl⟩) trivial
  | stop =>
    obtain ⟨hread, rfl⟩ := unpackStop_ok_iff.mp hunpack
    exact iff_of_true (packStop_ok_iff.mpr ⟨hlen, hread⟩) trivial
  | wait =>
    obtain ⟨hread, rfl⟩ := unpackWait_ok_iff.mp hunpack
    exact iff_of_true (packWait_ok_iff.mpr ⟨hlen, hread⟩) trivial

/-- A word that decodes packs back to itself exactly when it is canonical (30 R100, R102). -/
theorem pack_ok_iff_canonical {P : Params} {W : Buffer} {i : Instr} (hP : P.valid = true)
    (h : Decodes P W i) : pack P i = .ok W ↔ (⟨i, W⟩ : Decoded).canonical = true := by
  rw [pack_ok_iff, Decoded.canonical_iff]
  constructor
  · intro hpack
    have htwin : i.canonical = i :=
      (decodes_of_encode hP (canonical_plain h.plain) hpack).unique h
    rw [htwin] at hpack
    exact ⟨htwin, (encode_ok_iff_of_decodes h).mp hpack⟩
  · rintro ⟨htwin, hoff⟩
    rw [htwin]
    exact (encode_ok_iff_of_decodes h).mpr hoff

/-- Settles O11: a word packs to itself exactly when it is canonical; what it packs to decodes to
the canonical twin in any case. -/
theorem packOfDecode : Obligations.PackOfDecode := by
  intro P B c n d hP h
  have hwf := (decodedInstructionsAreWellFormed P B c n d h).1
  obtain ⟨-, hdec, -⟩ := unpackAt_ok_iff_decodes.mp h
  refine ⟨(pack_ok_iff_canonical hP hdec).mpr, fun hnot => ?_⟩
  obtain ⟨W, hW⟩ := exists_pack (P := P) hwf
  refine ⟨W, hW, ?_, ?_⟩
  · rintro rfl
    have hcanonical := (pack_ok_iff_canonical hP hdec).mp hW
    rw [hnot] at hcanonical
    cases hcanonical
  · simpa using (decodes_of_pack hP hdec.plain hW).unpackAt [] []

end Sys2Proof
end

section
/-! SUPPORT. What the decode step and the whole decode answer when a word is refused, and what they
answer on a word whose kind is known (30_encoding.md R95, R97, R103, 45_stream_codec.md R261,
R262). -/

namespace Sys2Proof

/-! ## Words refused and accepted by the decode step -/

/-- The two bytes that give a word its length read as the buffer does there. -/
theorem wordLength_drop_take_two (P : Params) (B : Buffer) (c : Nat) :
    wordLength P ((B.drop c).take 2) c = wordLength P (B.drop c) c := by
  apply wordLength_congr
  intro i hi
  have hbyte : i / 8 < 2 := by omega
  simp [bitAt, hbyte]

/-- The first `n` bytes of a buffer read as the buffer does on every range inside them. -/
theorem readBits_take {B : Buffer} {n s e : Nat} (hn : n ≤ B.length) (he : e < 8 * n) :
    readBits (B.take n) s e = readBits B s e := by
  conv_rhs => rw [← List.take_append_drop n B]
  exact (readBits_append _ _ (by rwa [List.length_take, Nat.min_eq_left hn])).symm

/-- A word whose first two bytes give no length is refused with that error (45 R261 step 2). -/
theorem unpackAt_error_of_wordLength {P : Params} {B : Buffer} {c : Nat} {e : Err}
    (htwo : c + 2 ≤ B.length) (h : wordLength P (B.drop c) c = .error e) :
    unpackAt P B c = .error e := by
  have hlong : ¬(B.drop c).length < 2 := by rw [List.length_drop]; omega
  simp only [unpackAt, if_neg hlong, wordLength_drop_take_two, h]

/-- A word of a known length and kind, inside the buffer, is what its unpacker makes of it
(R261 steps 3 and 4). -/
theorem unpackAt_eq_of_wordLength {P : Params} {B : Buffer} {c n : Nat} {kind : WordKind}
    (hin : c + n ≤ B.length) (hlen : wordLength P (B.drop c) c = .ok n)
    (hk : wordKind P (readBits (B.drop c) 0 6) = some kind) :
    unpackAt P B c = atPlace (.offset c)
      ((unpackKind P ((B.drop c).take n) kind).map fun i => (⟨i, (B.drop c).take n⟩, n)) := by
  have htwo := two_le_of_wordLength hlen
  have hfits : n ≤ (B.drop c).length := by rw [List.length_drop]; omega
  have hread : readBits ((B.drop c).take n) 0 6 = readBits (B.drop c) 0 6 :=
    readBits_take hfits (by omega)
  simp only [unpackAt, if_neg (Nat.not_lt.mpr (htwo.trans hfits)), wordLength_drop_take_two, hlen,
    if_neg (Nat.not_lt.mpr hfits), hread, hk]
  cases unpackKind P ((B.drop c).take n) kind <;> rfl

theorem unpackStop_eq (W : Buffer) :
    unpackStop W = if readBits W 0 15 = stopWord then .ok .stop else .error .stopWord := by
  by_cases h : readBits W 0 15 = stopWord <;> simp [unpackStop, check, h]

theorem unpackWait_eq (P : Params) (W : Buffer) :
    unpackWait P W =
      if readBits W 0 15 = P.waitWord.toNat then .ok .wait else .error .waitWord := by
  by_cases h : readBits W 0 15 = P.waitWord.toNat <;> simp [unpackWait, check, h]

/-- Settles O20: the unpackers of Stop and Wait test the whole word. -/
theorem fixedWordsAreExact : Obligations.FixedWordsAreExact := by
  intro P B c hP htwo
  have hread : readBits ((B.drop c).take 2) 0 15 = readBits (B.drop c) 0 15 :=
    readBits_take (by rw [List.length_drop]; omega) (by decide)
  constructor
  · intro hkey
    have hk : wordKind P (readBits (B.drop c) 0 6) = some .stop := hkey ▸ wordKind_key hP .stop
    have hlen : wordLength P (B.drop c) c = .ok 2 := by simp only [wordLength, hk]
    rw [unpackAt_eq_of_wordLength htwo hlen hk, unpackKind, unpackStop_eq, hread, stopWord]
    split <;> rfl
  · intro hkey
    have hk : wordKind P (readBits (B.drop c) 0 6) = some .wait := hkey ▸ wordKind_key hP .wait
    have hlen : wordLength P (B.drop c) c = .ok 2 := by simp only [wordLength, hk]
    rw [unpackAt_eq_of_wordLength htwo hlen hk, unpackKind, unpackWait_eq, hread]
    split <;> rfl

/-- Settles O17: the flags stand in the first two bytes, and the length is read from them first. -/
theorem reservedMovFlagsAreRefused : Obligations.ReservedMovFlagsAreRefused := by
  intro P B c htwo hkey
  have hk : wordKind P (readBits (B.drop c) 0 6) = some .mov := by
    rw [hkey]
    rfl
  constructor
  · intro hflag
    apply unpackAt_error_of_wordLength htwo
    simp only [wordLength, hk, if_pos hflag]
  · intro hflag hlong
    apply unpackAt_error_of_wordLength htwo
    simp [wordLength, hk, hflag, hlong]

/-- Settles O9: the keys of Mov and Stop are tested before those of the configuration, so that the
decode step computes on their words under any configuration. -/
theorem writtenWordsDecode : Obligations.WrittenWordsDecode :=
  ⟨fun _ => ⟨rfl, rfl, rfl⟩, by decide, by decide, by decide⟩

/-! ## The stream -/

/-- `out` lists the instructions of `B` from offset `c` to its end, each where the one before it
ends (45 R262, 10_state.md R34). -/
inductive Stream (P : Params) (B : Buffer) : Nat → List (Nat × Decoded) → Prop where
  | done {c : Nat} (h : B.length ≤ c) : Stream P B c []
  | word {c n : Nat} {d : Decoded} {out : List (Nat × Decoded)}
    (h : unpackAt P B c = .ok (d, n)) (rest : Stream P B (c + n) out) : Stream P B c ((c, d) :: out)

/-- An accepted word is not empty and lies in its buffer. -/
theorem bounds_of_unpackAt {P : Params} {B : Buffer} {c n : Nat} {d : Decoded}
    (h : unpackAt P B c = .ok (d, n)) : 2 ≤ n ∧ c + n ≤ B.length := by
  obtain ⟨-, -, hin, -, hn⟩ := decodedInstructionsAreWellFormed P B c n d h
  simp only [List.mem_cons, List.not_mem_nil, or_false] at hn
  omega

/-- With fuel for every byte left, the decode loop lists the stream (45 R262). -/
theorem disassembleFrom_ok_iff {P : Params} {B : Buffer} {fuel c : Nat}
    {out : List (Nat × Decoded)} (hfuel : B.length ≤ c + fuel) :
    disassembleFrom P B fuel c = .ok out ↔ Stream P B c out := by
  induction fuel generalizing c out with
  | zero =>
    simp only [disassembleFrom, Except.ok.injEq]
    constructor
    · rintro rfl
      exact .done hfuel
    · rintro (h | ⟨h, rest⟩)
      · rfl
      · have := bounds_of_unpackAt h
        omega
  | succ fuel ih =>
    unfold disassembleFrom
    split
    · next hend =>
      constructor
      · rintro h
        cases h
        exact .done hend
      · rintro (h | ⟨h, rest⟩)
        · rfl
        · have := bounds_of_unpackAt h
          omega
    · next hend =>
      cases hd : unpackAt P B c with
      | error e =>
        simp only [reduceCtorEq, false_iff]
        rintro (h | ⟨h, rest⟩)
        · exact hend h
        · cases hd.symm.trans h
      | ok dn =>
        obtain ⟨d, n⟩ := dn
        have hbounds := bounds_of_unpackAt hd
        have hrest : ∀ out', disassembleFrom P B fuel (c + n) = .ok out' ↔
            Stream P B (c + n) out' := fun out' => ih (by omega)
        constructor
        · intro h
          cases ho : disassembleFrom P B fuel (c + n) with
          | error e => simp [ho] at h
          | ok out' =>
            simp only [ho, Except.ok.injEq] at h
            subst h
            exact .word hd ((hrest out').mp ho)
        · rintro (h | ⟨h, rest⟩)
          · exact absurd h hend
          · cases hd.symm.trans h
            simp only [(hrest _).mpr rest]

theorem disassemble_ok_iff {P : Params} {B : Buffer} {out : List (Nat × Decoded)} :
    disassemble P B = .ok out ↔ Stream P B 0 out :=
  disassembleFrom_ok_iff (by omega)

/-- A word decodes where it stands whatever bytes follow the buffer. -/
theorem unpackAt_append {P : Params} {A : Buffer} {c n : Nat} {d : Decoded}
    (h : unpackAt P A c = .ok (d, n)) (W : Buffer) : unpackAt P (A ++ W) c = .ok (d, n) := by
  obtain ⟨hn, hdec, rest, hdrop⟩ := unpackAt_ok_iff_decodes.mp h
  refine unpackAt_ok_iff_decodes.mpr ⟨hn, hdec, rest ++ W.drop (c - A.length), ?_⟩
  rw [List.drop_append, hdrop, List.append_assoc]

/-- After a stream that decodes, an error of the next word is the result of the whole decode
(45 R262). -/
theorem Stream.error_append {P : Params} {A W : Buffer} {c : Nat} {out : List (Nat × Decoded)}
    {e : Err} (h : Stream P A c out) (hW : W ≠ [])
    (he : unpackAt P (A ++ W) A.length = .error e) (hc : c ≤ A.length) {fuel : Nat}
    (hfuel : A.length < c + fuel) : disassembleFrom P (A ++ W) fuel c = .error e := by
  have hlen : A.length < (A ++ W).length := by
    have := List.length_pos_iff.mpr hW
    rw [List.length_append]
    omega
  induction h generalizing fuel with
  | done hend =>
    obtain ⟨fuel, rfl⟩ : ∃ f, fuel = f + 1 := ⟨fuel - 1, by omega⟩
    obtain rfl := Nat.le_antisymm hc hend
    simp only [disassembleFrom, if_neg (Nat.not_le.mpr hlen), he]
  | word hd rest ih =>
    obtain ⟨fuel, rfl⟩ : ∃ f, fuel = f + 1 := ⟨fuel - 1, by omega⟩
    have hbounds := bounds_of_unpackAt hd
    simp only [disassembleFrom, unpackAt_append hd W, ih (by omega) (fuel := fuel) (by omega)]
    rw [if_neg (by omega)]

/-- Settles O15: the key is looked up first in the decode step, and the words before it decode as
they do without it. -/
theorem unknownKeysFailTheStream : Obligations.UnknownKeysFailTheStream := by
  intro P A W out hA htwo hkey
  have hstep : unpackAt P (A ++ W) A.length =
      .error (.unknownOpcode (readBits W 0 6) A.length) := by
    apply unpackAt_error_of_wordLength
    · rw [List.length_append]
      omega
    · simp only [List.drop_left, wordLength, wordKind_eq_none_iff.mpr hkey]
  have hW : W ≠ [] := by
    rintro rfl
    cases htwo
  have hfuel : A.length < 0 + (A ++ W).length := by
    rw [List.length_append]
    omega
  exact ⟨hstep, (disassemble_ok_iff.mp hA).error_append hW hstep (Nat.zero_le _) hfuel⟩

end Sys2Proof
end

section
/-! SUPPORT. The invariant of a legal state under a step (10_state.md R44, 47_reference_execution.md
R330, R332). -/

namespace Sys2Proof.Machine

theorem Effect.inv {s t : State} (h : Effect s t) (hs : s.Inv) : t.Inv := by
  obtain ⟨hvalid, hwf, hx⟩ := hs
  have hfixed := h.sameFixed
  refine ⟨hfixed.params ▸ hvalid, ?_, hfixed.registers ▸ hx⟩
  cases h with
  | moved n w hn => exact hwf
  | loaded tr ls =>
    obtain ⟨-, -, -, hmem, -⟩ := loadLanes_fields tr ls s
    rwa [advance_mem, hmem]
  | stored tr ls => exact storeLanes_wf tr ls hwf
  | waited => exact hwf
  | halted => exact hwf

/-- Settles O31: no effect of an instruction touches the configuration or the register count, and
only a Store writes the data buffer, byte by byte in canonical form. -/
theorem stepKeepsTheInvariant : Obligations.StepKeepsTheInvariant := by
  intro s t hs h
  obtain ⟨-, rfl⟩ | ⟨-, i, -, hexec⟩ := step_next_iff.mp h
  · exact hs
  · exact (effect_of_exec hexec).inv hs

end Sys2Proof.Machine
end

section
/-! SUPPORT. An assembled list disassembles to itself, and what the parser answers is in the
packer's form (45_stream_codec.md R263, R266, R269, 30_encoding.md R109, R110). -/

namespace Sys2Proof

/-- An instruction in the packer's form, with `se` off wherever the encoding does not hold it. -/
def Instr.Packable (i : Instr) : Prop :=
  i.Plain ∧ i.canonical = i

theorem assembleFrom_cons_ok_iff {P : Params} {k : Nat} {i : Instr} {L : List Instr} {B : Buffer} :
    assembleFrom P k (i :: L) = .ok B ↔
      ∃ O B', pack P i = .ok O ∧ assembleFrom P (k + 1) L = .ok B' ∧ B = O ++ B' := by
  rw [assembleFrom]
  cases pack P i with
  | error e => simp
  | ok O => cases assembleFrom P (k + 1) L <;> simp [eq_comm]

/-- What `assemble` makes of instructions in the packer's form is a stream of them, wherever it
stands (45 R266). -/
theorem stream_of_assembleFrom {P : Params} (hP : P.valid = true) {k : Nat} {L : List Instr}
    {B : Buffer} (h : assembleFrom P k L = .ok B) (hL : ∀ i ∈ L, i.Packable) (before : Buffer) :
    ∃ out, Stream P (before ++ B) before.length out ∧ (out.map fun e => e.2.instr) = L := by
  induction L generalizing k B before with
  | nil =>
    cases h
    exact ⟨[], .done (by simp), rfl⟩
  | cons i L ih =>
    obtain ⟨O, B', hO, hB', rfl⟩ := assembleFrom_cons_ok_iff.mp h
    obtain ⟨hplain, hcanonical⟩ := hL i (by simp)
    have hdec := decodes_of_pack hP hplain hO
    rw [hcanonical] at hdec
    obtain ⟨out, hout, hmap⟩ := ih hB' (fun j hj => hL j (by simp [hj])) (before ++ O)
    rw [List.append_assoc, List.length_append] at hout
    have hword := hdec.unpackAt before B'
    rw [List.append_assoc] at hword
    exact ⟨(before.length, ⟨i, O⟩) :: out, .word hword hout, by simp [hmap]⟩

/-- A list in the packer's form that assembles disassembles to itself (45 R266). -/
theorem disassemble_of_assemble {P : Params} (hP : P.valid = true) {L : List Instr} {B : Buffer}
    (h : assemble P L = .ok B) (hL : ∀ i ∈ L, i.Packable) :
    ∃ out, disassemble P B = .ok out ∧ (out.map fun e => e.2.instr) = L := by
  obtain ⟨out, hout, hmap⟩ := stream_of_assembleFrom hP h hL []
  exact ⟨out, disassemble_ok_iff.mpr hout, hmap⟩

theorem canonicalMov_packable {dest src : Operand} (hdest : dest.se = false)
    (hsrc : src.se = false) : (canonicalMov dest src).Packable := by
  rw [canonicalMov_eq_make]
  exact ⟨plain_make_iff.mpr ⟨hdest, hsrc⟩, canonical_make ..⟩

end Sys2Proof

namespace Sys2Proof.Text

/-! ## What the parser answers -/

@[simp] theorem onToken_ok_iff {α : Type} {line : Nat} {token : List Char}
    {r : Except TokenError α} {a : α} : onToken line token r = .ok a ↔ r = .ok a := by
  cases r with
  | ok b => simp [onToken]
  | error e => cases e <;> simp [onToken]

theorem se_of_immediate {neg : Bool} {ds : List Char} {op : Operand}
    (h : immediate neg ds = .ok op) : op.se = false := by
  unfold immediate at h
  split at h
  · cases h
  · next n _ =>
    dsimp only at h
    generalize (if neg then -(n : Int) else n) = v at h
    split at h <;> cases h
    rfl

/-- An operand token never turns sign extension on (30 R108). -/
theorem se_of_operandToken {t : List Char} {op : Operand} (h : operandToken t = .ok op) :
    op.se = false := by
  unfold operandToken at h
  split at h
  · obtain ⟨n, -, h⟩ := except_bind_ok_iff.mp h
    split at h
    · cases h
      rfl
    · cases h
      rfl
    · cases h
      rfl
    · obtain ⟨m, -, h⟩ := except_bind_ok_iff.mp h
      cases h
      rfl
    · cases h
  · obtain ⟨n, -, h⟩ := except_bind_ok_iff.mp h
    split at h
    · obtain ⟨m, -, h⟩ := except_bind_ok_iff.mp h
      cases h
      rfl
    · cases h
  · exact se_of_immediate h
  · exact se_of_immediate h

theorem se_of_registerListToken {mask : Nat} {t : List Char} {op : Operand}
    (h : registerListToken mask t = .ok op) : op.se = false := by
  obtain ⟨ops, hops, h⟩ := except_bind_ok_iff.mp h
  split at h
  · cases h
  · next first rest =>
    split at h
    · cases h
      cases hparts : splitChars (fun c => c = '_') t with
      | nil => simp [hparts, pure, Except.pure] at hops
      | cons w ws =>
        rw [hparts, List.mapM_cons] at hops
        obtain ⟨op, hop, hops⟩ := except_bind_ok_iff.mp hops
        obtain ⟨rest', -, hops⟩ := except_bind_ok_iff.mp hops
        cases hops
        exact se_of_operandToken hop
    · cases h

theorem parseTransfer_ok {P : Params} {make : Nat → Nat → Operand → Operand → Operand → Instr}
    {line : Nat} {mnemonic : List Char} {ts : List (List Char)} {i : Instr}
    (h : parseTransfer P make line mnemonic ts = .ok i) :
    ∃ fc mask reg base off, i = make fc mask reg base off ∧ reg.se = false ∧ base.se = false := by
  unfold parseTransfer at h
  split at h
  · split at h
    · cases h
    · obtain ⟨mask, -, h⟩ := except_bind_ok_iff.mp h
      obtain ⟨reg, hreg, h⟩ := except_bind_ok_iff.mp h
      obtain ⟨base, hbase, h⟩ := except_bind_ok_iff.mp h
      obtain ⟨off, -, h⟩ := except_bind_ok_iff.mp h
      obtain ⟨se, -, h⟩ := except_bind_ok_iff.mp h
      cases h
      exact ⟨_, mask, reg, base, _, rfl, se_of_registerListToken (onToken_ok_iff.mp hreg),
        se_of_operandToken (onToken_ok_iff.mp hbase)⟩
  · cases h

theorem parseMov_ok {line : Nat} {ts : List (List Char)} {i : Instr}
    (h : parseMov line ts = .ok i) :
    ∃ dest src, i = canonicalMov dest src ∧ dest.se = false ∧ src.se = false := by
  unfold parseMov at h
  split at h
  · obtain ⟨dest, hdest, h⟩ := except_bind_ok_iff.mp h
    obtain ⟨src, hsrc, h⟩ := except_bind_ok_iff.mp h
    cases h
    exact ⟨dest, src, rfl, se_of_operandToken (onToken_ok_iff.mp hdest),
      se_of_operandToken (onToken_ok_iff.mp hsrc)⟩
  · cases h

/-- A line that parses gives an instruction in the packer's form (30 R109, R110). -/
theorem packable_of_parseTokens {P : Params} {line : Nat} {ts : List (List Char)} {i : Instr}
    (h : parseTokens P line ts = .ok i) : i.Packable := by
  unfold parseTokens at h
  split at h
  · cases h
  · split at h
    · cases h
    · split_ifs at h
      · obtain ⟨dest, src, rfl, hdest, hsrc⟩ := parseMov_ok h
        exact canonicalMov_packable hdest hsrc
      · obtain ⟨fc, mask, reg, base, off, rfl, hse⟩ := parseTransfer_ok h
        exact ⟨hse, rfl⟩
      · obtain ⟨fc, mask, reg, base, off, rfl, hse⟩ := parseTransfer_ok h
        exact ⟨hse, rfl⟩
      · cases h
        exact ⟨trivial, rfl⟩
      · cases h
        exact ⟨trivial, rfl⟩

theorem packable_of_parseLines {P : Params} {n : Nat} {ls : List (List Char)} {L : List Instr}
    (h : parseLines P n ls = .ok L) : ∀ i ∈ L, i.Packable := by
  induction ls generalizing n L with
  | nil =>
    cases h
    simp
  | cons l ls ih =>
    unfold parseLines at h
    split at h
    · exact ih h
    · obtain ⟨i, hi, h⟩ := except_bind_ok_iff.mp h
      obtain ⟨rest, hrest, h⟩ := except_bind_ok_iff.mp h
      cases h
      exact List.forall_mem_cons.mpr ⟨packable_of_parseTokens hi, ih hrest⟩

theorem assembleText_ok_iff {P : Params} {t : List Char} {B : Buffer} :
    assembleText P t = .ok B ↔ ∃ L, parse P t = .ok L ∧ assemble P L = .ok B := by
  unfold assembleText
  cases parse P t <;> simp

/-- Settles O59: what the parser answers is in the packer's form, and such a list comes back from
its assembled bytes. -/
theorem assembledTextPrintsCanonically : Obligations.AssembledTextPrintsCanonically := by
  intro P t B hP h
  obtain ⟨L, hparse, hB⟩ := assembleText_ok_iff.mp h
  obtain ⟨out, hout, hmap⟩ := disassemble_of_assemble hP hB (packable_of_parseLines hparse)
  exact ⟨L, hparse, by simp only [disassembleText, hout, hmap]⟩

end Sys2Proof.Text
end

section
/-! SUPPORT. Splitting what was joined, the characters of printed tokens, and that printed numbers
and operands read back (30_encoding.md R105–R108, R114). -/

namespace Sys2Proof.Text

/-! ## Splitting what was joined -/

section
variable {sep : Char → Bool}

theorem splitChars_append {w rest : List Char} {c : Char} (hw : ∀ d ∈ w, sep d = false)
    (hc : sep c = true) : splitChars sep (w ++ c :: rest) = w :: splitChars sep rest := by
  induction w with
  | nil => simp [splitChars, hc]
  | cons d w ih =>
    rw [List.cons_append, splitChars, if_neg (by simp [hw d]), ih fun e he => hw e (by simp [he])]

theorem splitChars_of_forall {w : List Char} (hw : ∀ d ∈ w, sep d = false) :
    splitChars sep w = [w] := by
  induction w with
  | nil => rfl
  | cons d w ih =>
    rw [splitChars, if_neg (by simp [hw d]), ih fun e he => hw e (by simp [he])]

/-- Words without a separator, joined by one, split into the words again. -/
theorem splitChars_joinWith {c : Char} (hc : sep c = true) {ws : List (List Char)} (hne : ws ≠ [])
    (hws : ∀ w ∈ ws, ∀ d ∈ w, sep d = false) : splitChars sep (joinWith c ws) = ws := by
  induction ws with
  | nil => exact absurd rfl hne
  | cons w ws ih =>
    obtain ⟨hw, hws⟩ := List.forall_mem_cons.mp hws
    cases ws with
    | nil => exact splitChars_of_forall hw
    | cons w' ws =>
      rw [joinWith, splitChars_append hw hc, ih (by simp) hws]
      simp

end

theorem mem_joinWith {c d : Char} {ws : List (List Char)} (h : d ∈ joinWith c ws) :
    d = c ∨ ∃ w ∈ ws, d ∈ w := by
  induction ws with
  | nil => simp [joinWith] at h
  | cons w ws ih =>
    cases ws with
    | nil => exact .inr ⟨w, by simp, h⟩
    | cons w' ws =>
      obtain h | h := List.mem_append.mp h
      · exact .inr ⟨w, by simp, h⟩
      · obtain rfl | h := List.mem_cons.mp h
        · exact .inl rfl
        · obtain rfl | ⟨v, hv, hd⟩ := ih h
          · exact .inl rfl
          · exact .inr ⟨v, by simp [hv], hd⟩

/-! ## Words -/

/-- The characters that end a token or a line (R105, R106). -/
def isBreak (c : Char) : Bool :=
  c = ',' || c = ' ' || c = '\t' || c = ';' || c = '\n'

/-- A token as the printer writes it: not empty, no character of it ends a token or a line. -/
structure IsWord (w : List Char) : Prop where
  ne_nil : w ≠ []
  clean : ∀ c ∈ w, isBreak c = false

theorem IsWord.append {v w : List Char} (hv : IsWord v) (hw : ∀ c ∈ w, isBreak c = false) :
    IsWord (v ++ w) :=
  ⟨by simp [hv.ne_nil], fun c hc => (List.mem_append.mp hc).elim (hv.clean c) (hw c)⟩

theorem IsWord.cons {c : Char} {w : List Char} (hc : isBreak c = false)
    (hw : ∀ c ∈ w, isBreak c = false) : IsWord (c :: w) :=
  ⟨by simp, List.forall_mem_cons.mpr ⟨hc, hw⟩⟩

/-! ## Numbers -/

/-- The model's digit test is the library's. -/
theorem isDigit_of_isDigit {c : Char} (h : c.isDigit = true) : isDigit c = true := by
  simp only [Char.isDigit, Bool.and_eq_true, decide_eq_true_eq] at h
  obtain ⟨hlo, hhi⟩ := h
  simp only [isDigit, Bool.and_eq_true, decide_eq_true_eq]
  exact ⟨UInt32.le_iff_toNat_le.mp hlo, UInt32.le_iff_toNat_le.mp hhi⟩

theorem isBreak_of_isDigit {c : Char} (h : isDigit c = true) : isBreak c = false := by
  by_contra hbreak
  simp only [isBreak, Bool.not_eq_false, Bool.or_eq_true, decide_eq_true_eq] at hbreak
  obtain (((rfl | rfl) | rfl) | rfl) | rfl := hbreak <;> cases h

theorem isDigit_of_mem_printNat {n : Nat} {c : Char} (h : c ∈ printNat n) : isDigit c = true :=
  isDigit_of_isDigit (Nat.isDigit_of_mem_toDigits (by decide) (by decide) h)

theorem printNat_isWord (n : Nat) : IsWord (printNat n) :=
  ⟨Nat.toDigits_ne_nil, fun _ hc => isBreak_of_isDigit (isDigit_of_mem_printNat hc)⟩

/-- A printed number reads back. -/
theorem decimal_printNat (n : Nat) : decimal (printNat n) = some n := by
  rw [decimal, if_pos ⟨Nat.toDigits_ne_nil, List.all_eq_true.mpr fun _ => isDigit_of_mem_printNat⟩]
  exact congrArg some Nat.ofDigitChars_ten_toDigits

theorem index_printNat {n : Nat} (h : n < 2 ^ 31) : index (printNat n) = .ok n := by
  simp only [index, decimal_printNat, if_pos h]

/-- What follows an index does not begin with a digit. -/
def StopsIndex (cs : List Char) : Prop :=
  ∀ c ∈ cs.head?, isDigit c = false

theorem leadingIndex_printNat {n : Nat} (h : n < 2 ^ 31) {cs : List Char} (hcs : StopsIndex cs) :
    leadingIndex (printNat n ++ cs) = .ok n := by
  have htake : cs.takeWhile isDigit = [] := by
    cases cs with
    | nil => rfl
    | cons c cs => simp [hcs c rfl]
  rw [leadingIndex, List.takeWhile_append_of_pos fun _ => isDigit_of_mem_printNat, htake,
    List.append_nil, index_printNat h]

theorem afterIndex_printNat (n : Nat) {cs : List Char} (hcs : StopsIndex cs) :
    afterIndex (printNat n ++ cs) = cs := by
  rw [afterIndex, List.dropWhile_append_of_pos fun _ => isDigit_of_mem_printNat]
  cases cs with
  | nil => rfl
  | cons c cs => simp [hcs c rfl]

/-! ## Operands -/

/-- The indices of an operand, the second of a pair among them, are ones the text can spell
(R108). -/
def Spellable (op : Operand) : Prop :=
  match op.kind with
  | .imm _ => True
  | .r32 n => n < 2 ^ 31
  | .r16l n => n < 2 ^ 31
  | .r16h n => n < 2 ^ 31
  | .r64 n => n + 1 < 2 ^ 31
  | .u64 n => n + 1 < 2 ^ 31

theorem stopsIndex_nil : StopsIndex [] := by
  simp [StopsIndex]

theorem stopsIndex_cons {c : Char} {cs : List Char} (h : isDigit c = false) :
    StopsIndex (c :: cs) := by
  simp [StopsIndex, h]

theorem pairIndex_printNat {n : Nat} (h : n + 1 < 2 ^ 31) :
    pairIndex n (printNat (n + 1)) = .ok n := by
  simp [pairIndex, index_printNat h, bind, Except.bind, pure, Except.pure]

/-- An immediate whose digits are those of its magnitude reads back. -/
theorem immediate_printNat {neg : Bool} {v : Imm64}
    (hv : v.toInt = if neg then -(v.toInt.natAbs : Int) else v.toInt.natAbs) :
    immediate neg (printNat v.toInt.natAbs) = .ok (.imm v) := by
  have hlo := BitVec.le_toInt v
  have hhi := BitVec.toInt_lt (x := v)
  simp only [immediate, decimal_printNat, ← hv]
  rw [if_pos ⟨hlo, hhi⟩, BitVec.ofInt_toInt]

/-- A number is no register, uniform or negative number: its first character is a digit. -/
theorem operandToken_printNat (n : Nat) :
    operandToken (printNat n) = immediate false (printNat n) := by
  cases hn : printNat n with
  | nil => exact absurd hn Nat.toDigits_ne_nil
  | cons c cs =>
    have hc : isDigit c = true := isDigit_of_mem_printNat (n := n) (by simp [hn])
    unfold operandToken
    split
    · next heq =>
      cases heq
      cases hc
    · next heq =>
      cases heq
      cases hc
    · next heq =>
      cases heq
      cases hc
    · rfl

theorem operandToken_printInt (v : Imm64) : operandToken (printInt v.toInt) = .ok (.imm v) := by
  unfold printInt
  split
  · next hneg =>
    have hv := immediate_printNat (neg := true) (v := v) (by rw [if_pos rfl]; omega)
    simpa only [operandToken] using hv
  · next hneg =>
    rw [operandToken_printNat]
    exact immediate_printNat (by rw [if_neg Bool.false_ne_true]; omega)

/-- A printed operand reads back, with `se` off (R108, R114). -/
theorem operandToken_printOperand {op : Operand} (h : Spellable op) :
    operandToken (printOperand op) = .ok ⟨op.kind, false⟩ := by
  obtain ⟨kind, se⟩ := op
  cases kind with
  | imm v => exact operandToken_printInt v
  | r32 n =>
    have hl := leadingIndex_printNat h stopsIndex_nil
    have ha := afterIndex_printNat n stopsIndex_nil
    rw [List.append_nil] at hl ha
    simp [printOperand, operandToken, hl, ha, bind, Except.bind, pure, Except.pure]
  | r16l n =>
    have hs : StopsIndex ['l'] := stopsIndex_cons rfl
    simp [printOperand, operandToken, leadingIndex_printNat h hs, afterIndex_printNat n hs, bind,
      Except.bind, pure, Except.pure]
  | r16h n =>
    have hs : StopsIndex ['h'] := stopsIndex_cons rfl
    simp [printOperand, operandToken, leadingIndex_printNat h hs, afterIndex_printNat n hs, bind,
      Except.bind, pure, Except.pure]
  | r64 n =>
    have hs : StopsIndex ('_' :: 'r' :: printNat (n + 1)) := stopsIndex_cons rfl
    simp [printOperand, operandToken, leadingIndex_printNat (Nat.lt_of_succ_lt h) hs,
      afterIndex_printNat n hs, pairIndex_printNat h, bind, Except.bind, pure, Except.pure]
  | u64 n =>
    have hs : StopsIndex ('_' :: 'u' :: printNat (n + 1)) := stopsIndex_cons rfl
    simp [printOperand, operandToken, leadingIndex_printNat (Nat.lt_of_succ_lt h) hs,
      afterIndex_printNat n hs, pairIndex_printNat h, bind, Except.bind, pure, Except.pure]

theorem printOperand_isWord (op : Operand) : IsWord (printOperand op) := by
  have hnat : ∀ n, ∀ c ∈ printNat n, isBreak c = false := fun n => (printNat_isWord n).clean
  have hpair : ∀ (c : Char) (n : Nat), isBreak c = false →
      IsWord (c :: printNat n ++ '_' :: c :: printNat (n + 1)) := fun c n hc =>
    (IsWord.cons hc (hnat n)).append
      (List.forall_mem_cons.mpr ⟨rfl, List.forall_mem_cons.mpr ⟨hc, hnat _⟩⟩)
  obtain ⟨kind, se⟩ := op
  cases kind with
  | imm v =>
    simp only [printOperand, printInt]
    split
    · exact .cons rfl (hnat _)
    · exact printNat_isWord _
  | r32 n => exact .cons rfl (hnat n)
  | r16l n | r16h n => exact (IsWord.cons rfl (hnat n)).append (by simp [isBreak])
  | r64 n => exact hpair 'r' n rfl
  | u64 n => exact hpair 'u' n rfl

end Sys2Proof.Text
end

section
/-! SUPPORT. The tokens and lines of a printed program, and what the parser makes of them
(30_encoding.md R105–R118). -/

namespace Sys2Proof.Text

/-! ## Register lists -/

theorem mapM_map_of_forall {α β γ ε : Type} {f : β → Except ε γ} {g : α → β} {k : α → γ}
    {l : List α} (h : ∀ a ∈ l, f (g a) = .ok (k a)) : (l.map g).mapM f = .ok (l.map k) := by
  induction l with
  | nil => rfl
  | cons a l ih =>
    obtain ⟨ha, hl⟩ := List.forall_mem_cons.mp h
    rw [List.map_cons, List.mapM_cons, ha, ih hl]
    rfl

/-- A mask names one to four lanes (41_operand_codec.md R153). -/
theorem lanes_length {mask : Nat} (h1 : 1 ≤ mask) (h15 : mask ≤ 15) :
    1 ≤ (lanes mask).length ∧ (lanes mask).length ≤ 4 := by
  interval_cases mask <;> decide

/-- A register of a list: a 32-bit or half register the text can spell, `se` off, printed without an
underscore (R110, R114). -/
structure ListRegister (op : Operand) : Prop where
  se : op.se = false
  spellable : Spellable op
  noUnderscore : ∀ c ∈ printOperand op, decide (c = '_') = false

theorem noUnderscore_of_isDigit {c : Char} (h : isDigit c = true) : decide (c = '_') = false := by
  rw [decide_eq_false_iff_not]
  rintro rfl
  cases h

theorem listRegister_r32 {n : Nat} (h : n < 2 ^ 31) : ListRegister (.r32 n) :=
  ⟨rfl, h, List.forall_mem_cons.mpr
    ⟨rfl, fun _ hc => noUnderscore_of_isDigit (isDigit_of_mem_printNat hc)⟩⟩

theorem listRegister_halfOperand {raw : Nat} (h : raw < 2 ^ 31) :
    ListRegister (halfOperand raw) := by
  have hdigits : ∀ n, ∀ c ∈ printNat n, decide (c = '_') = false := fun n _ hc =>
    noUnderscore_of_isDigit (isDigit_of_mem_printNat hc)
  obtain ⟨n, hn, hop⟩ | ⟨n, hn, hop⟩ := halfOperand_cases raw
  all_goals
    have hlt : n < 2 ^ 31 := by omega
    rw [hop]
    refine ⟨rfl, hlt, List.forall_mem_cons.mpr ⟨rfl, fun c hc => ?_⟩⟩
    obtain hc | hc := List.mem_append.mp hc
    · exact hdigits n c hc
    · obtain rfl := List.mem_singleton.mp hc
      rfl

/-- The first register of an encodable list, and those after it, are registers of a list. -/
theorem registerAfter_spec {op : Operand} (h : op.isRegList = true) :
    isListRegister op = true ∧ registerAfter op 0 = op ∧
      ∀ k ≤ 4, ListRegister (registerAfter op k) := by
  obtain ⟨kind, se⟩ := op
  obtain rfl : se = false := (isRegList_iff.mp h).1
  cases kind with
  | r32 n =>
    have hn : n < 128 := of_decide_eq_true h
    exact ⟨rfl, rfl, fun k hk => listRegister_r32 (by omega)⟩
  | r16l n =>
    have hn : n < 128 := of_decide_eq_true h
    exact ⟨rfl, halfOperand_even n, fun k hk => listRegister_halfOperand (by omega)⟩
  | r16h n =>
    have hn : n < 128 := of_decide_eq_true h
    exact ⟨rfl, halfOperand_odd n, fun k hk => listRegister_halfOperand (by omega)⟩
  | imm v | r64 n | u64 n => cases h

/-- A printed register list reads back as its first register (R110, R114). -/
theorem registerListToken_print {mask : Nat} {reg : Operand} (h1 : 1 ≤ mask) (h15 : mask ≤ 15)
    (hreg : reg.isRegList = true) :
    registerListToken mask (printRegisterList mask reg) = .ok reg := by
  obtain ⟨hlist, hfirst, hafter⟩ := registerAfter_spec hreg
  obtain ⟨hpos, hle⟩ := lanes_length h1 h15
  have hrun : ∀ op ∈ registerRun reg (lanes mask).length, ListRegister op := by
    intro op hop
    obtain ⟨k, hk, rfl⟩ := List.mem_map.mp hop
    exact hafter k (by have := List.mem_range.mp hk; omega)
  obtain ⟨p, hp⟩ : ∃ p, (lanes mask).length = p + 1 := ⟨_, (Nat.sub_add_cancel hpos).symm⟩
  have hcons : ∃ rest, registerRun reg (lanes mask).length = reg :: rest := by
    rw [hp, registerRun, List.range_succ_eq_map, List.map_cons, hfirst]
    exact ⟨_, rfl⟩
  obtain ⟨rest, hrest⟩ := hcons
  have hsplit : splitChars (fun c => c = '_') (printRegisterList mask reg) =
      (registerRun reg (lanes mask).length).map printOperand := by
    refine splitChars_joinWith rfl (by simp [hrest]) fun w hw => ?_
    obtain ⟨op, hop, rfl⟩ := List.mem_map.mp hw
    exact (hrun op hop).noUnderscore
  have hparse : ((registerRun reg (lanes mask).length).map printOperand).mapM operandToken =
      .ok ((registerRun reg (lanes mask).length).map id) :=
    mapM_map_of_forall fun op hop => by
      rw [operandToken_printOperand (hrun op hop).spellable, ← (hrun op hop).se]
      rfl
  rw [registerListToken, hsplit, hparse, List.map_id, hrest]
  simp [bind, Except.bind, hlist, ← hrest]
  rfl

theorem IsWord.joinWith {c : Char} (hc : isBreak c = false) {ws : List (List Char)} (hne : ws ≠ [])
    (h : ∀ w ∈ ws, IsWord w) : IsWord (joinWith c ws) := by
  refine ⟨?_, fun d hd => ?_⟩
  · cases ws with
    | nil => exact absurd rfl hne
    | cons w ws => cases ws <;> simp [Text.joinWith, (h w (by simp)).ne_nil]
  · obtain rfl | ⟨w, hw, hd⟩ := mem_joinWith hd
    · exact hc
    · exact (h w hw).clean d hd

theorem printRegisterList_isWord {mask : Nat} (reg : Operand) (h1 : 1 ≤ mask) (h15 : mask ≤ 15) :
    IsWord (printRegisterList mask reg) := by
  obtain ⟨hpos, -⟩ := lanes_length h1 h15
  refine .joinWith rfl ?_ fun w hw => ?_
  · simp only [registerRun, ne_eq, List.map_eq_nil_iff, List.range_eq_nil]
    omega
  · obtain ⟨op, -, rfl⟩ := List.mem_map.mp hw
    exact printOperand_isWord op

/-! ## Formats, masks and signedness -/

theorem mem_all (F : Format) : F ∈ Format.all := by
  cases F <;> decide

theorem formatName_injective {F G : Format} (h : formatName F = formatName G) : F = G := by
  have hnames : (Format.all.map formatName).Nodup := by decide
  exact List.inj_on_of_nodup_map hnames (mem_all F) (mem_all G) h

/-- A format's name finds the format (R112). -/
theorem find_formatName (F : Format) :
    (Format.all.find? fun G => formatName G = formatName F) = some F := by
  cases hG : Format.all.find? fun G => formatName G = formatName F with
  | none =>
    have hF := List.find?_eq_none.mp hG F (mem_all F)
    simp at hF
  | some G =>
    have hname := List.find?_some hG
    rw [formatName_injective (of_decide_eq_true hname)]

theorem code_of_formatOfCode {P : Params} {fc : Nat} {F : Format}
    (h : formatOfCode P fc = some F) : (P.formats.code F).toNat = fc := by
  simpa using List.find?_some h

/-- No format is named like a code (R112). -/
theorem formatName_ne_codeName (F : Format) (fc : Nat) : formatName F ≠ codeName fc := by
  cases F <;> simp [formatName, codeName]

/-- A printed format reads back as its code (R112). -/
theorem formatToken_printFormat {P : Params} {fc : Nat} (h : fc ≤ 15) :
    formatToken P (printFormat P fc) = some fc := by
  cases hF : formatOfCode P fc with
  | some F =>
    simp only [printFormat, hF, formatToken, find_formatName, code_of_formatOfCode hF]
  | none =>
    have hnone : (Format.all.find? fun F => formatName F = codeName fc) = none := by
      rw [List.find?_eq_none]
      intro F _
      simpa using formatName_ne_codeName F fc
    simp only [printFormat, hF, formatToken, hnone]
    interval_cases fc <;> rfl

theorem printFormat_isWord (P : Params) (fc : Nat) : IsWord (printFormat P fc) := by
  unfold printFormat
  split
  · next F _ => cases F <;> exact ⟨by simp [formatName], by simp [formatName, isBreak]⟩
  · have hfmt : IsWord ['f', 'm', 't'] := ⟨by simp, by simp [isBreak]⟩
    exact hfmt.append (printNat_isWord fc).clean

theorem maskToken_print {mask : Nat} (h1 : 1 ≤ mask) (h15 : mask ≤ 15) :
    maskToken ['0', 'x', upperHex mask] = .ok mask := by
  interval_cases mask <;> rfl

theorem mask_isWord {mask : Nat} (h15 : mask ≤ 15) : IsWord ['0', 'x', upperHex mask] := by
  interval_cases mask <;> exact ⟨by simp, by simp [isBreak, upperHex]⟩

/-- The printed sign-extend flag of an offset (R114). -/
def signednessName (se : Bool) : List Char :=
  if se then ['s', 'i', 'g', 'n', 'e', 'd'] else ['u', 'n', 's', 'i', 'g', 'n', 'e', 'd']

theorem signednessToken_print (se : Bool) : signednessToken (signednessName se) = .ok se := by
  cases se <;> rfl

theorem signednessName_isWord (se : Bool) : IsWord (signednessName se) := by
  cases se <;> exact ⟨by simp [signednessName], by simp [signednessName, isBreak]⟩

/-! ## The tokens of an instruction -/

/-- The printed operand tokens of a Load or Store (R114). -/
def transferTokens (P : Params) (fc mask : Nat) (reg base off : Operand) : List (List Char) :=
  [printFormat P fc, ['0', 'x', upperHex mask], printRegisterList mask reg, printOperand base,
    printOperand off, signednessName off.se]

/-- The mnemonic of an instruction (R107, R118). -/
def mnemonic : Instr → List Char
  | .deviceLoad _ _ _ _ _ => loadName
  | .deviceStore _ _ _ _ _ => storeName
  | .movHalf _ _ => movName
  | .movShort _ _ => movName
  | .movLong _ _ => movName
  | .ret _ => retName
  | .stop => stopName
  | .wait => waitName

/-- The printed operand tokens of an instruction (R114). -/
def operandTokens (P : Params) : Instr → List (List Char)
  | .deviceLoad fc mask reg base off => transferTokens P fc mask reg base off
  | .deviceStore fc mask reg base off => transferTokens P fc mask reg base off
  | .movHalf dest src => [printOperand dest, printOperand src]
  | .movShort dest src => [printOperand dest, printOperand src]
  | .movLong dest src => [printOperand dest, printOperand src]
  | .ret reg => [printOperand reg]
  | .stop => []
  | .wait => []

/-- A line of a mnemonic and its operand tokens, `<mnemonic> <op>,<op>,…` (R114). -/
def lineOf (m : List Char) : List (List Char) → List Char
  | [] => m
  | w :: ws => m ++ ' ' :: joinWith ',' (w :: ws)

theorem printInstr_eq (P : Params) (i : Instr) :
    printInstr P i = lineOf (mnemonic i) (operandTokens P i) ++ [';'] := by
  cases i <;> rfl

theorem mnemonic_isWord (i : Instr) : IsWord (mnemonic i) := by
  cases i <;>
    exact ⟨by simp [mnemonic, loadName, storeName, movName, retName, stopName, waitName],
      by simp [mnemonic, loadName, storeName, movName, retName, stopName, waitName, isBreak]⟩

theorem operandTokens_isWord (P : Params) {i : Instr} (h : i.wf = true) :
    ∀ w ∈ operandTokens P i, IsWord w := by
  have htransfer : ∀ fc mask reg base off, transferFieldsWF fc mask reg base off = true →
      ∀ w ∈ transferTokens P fc mask reg base off, IsWord w := by
    intro fc mask reg base off h
    simp only [transferFieldsWF, Bool.and_eq_true, decide_eq_true_eq] at h
    obtain ⟨⟨⟨⟨⟨-, h1⟩, h15⟩, -⟩, -⟩, -⟩ := h
    simp only [transferTokens, List.forall_mem_cons]
    exact ⟨printFormat_isWord P fc, mask_isWord h15, printRegisterList_isWord reg h1 h15,
      printOperand_isWord base, printOperand_isWord off, signednessName_isWord off.se, by simp⟩
  cases i with
  | deviceLoad fc mask reg base off | deviceStore fc mask reg base off =>
    exact htransfer fc mask reg base off h
  | movHalf dest src | movShort dest src | movLong dest src =>
    exact List.forall_mem_cons.mpr ⟨printOperand_isWord dest,
      List.forall_mem_singleton.mpr (printOperand_isWord src)⟩
  | ret reg => exact List.forall_mem_singleton.mpr (printOperand_isWord reg)
  | stop | wait => simp [operandTokens]

/-! ## Lines -/

/-- The characters between tokens (R106). -/
def isGap (c : Char) : Bool :=
  c = ',' || c = ' ' || c = '\t'

/-- The characters that end a line (R105). -/
def isLineEnd (c : Char) : Bool :=
  c = ';' || c = '\n'

theorem isBreak_eq (c : Char) : isBreak c = (isGap c || isLineEnd c) := by
  simp only [isBreak, isGap, isLineEnd, Bool.or_assoc]

theorem IsWord.not_isGap {w : List Char} (hw : IsWord w) : ∀ c ∈ w, isGap c = false := fun c hc =>
  (Bool.or_eq_false_iff.mp (isBreak_eq c ▸ hw.clean c hc)).1

theorem IsWord.not_isLineEnd {w : List Char} (hw : IsWord w) : ∀ c ∈ w, isLineEnd c = false :=
  fun c hc => (Bool.or_eq_false_iff.mp (isBreak_eq c ▸ hw.clean c hc)).2

/-- The tokens of a printed line are the mnemonic and the operands (R106). -/
theorem tokens_lineOf {m : List Char} {ws : List (List Char)} (hm : IsWord m)
    (hws : ∀ w ∈ ws, IsWord w) : tokens (lineOf m ws) = m :: ws := by
  have hsplit : splitChars isGap (lineOf m ws) = m :: ws := by
    cases ws with
    | nil => exact splitChars_of_forall hm.not_isGap
    | cons w ws =>
      rw [lineOf, splitChars_append hm.not_isGap rfl,
        splitChars_joinWith rfl (by simp) fun v hv => (hws v hv).not_isGap]
  have hwords : ∀ w ∈ m :: ws, IsWord w := List.forall_mem_cons.mpr ⟨hm, hws⟩
  have htokens : tokens (lineOf m ws) = (m :: ws).filter fun w => !w.isEmpty :=
    congrArg (List.filter fun w : List Char => !w.isEmpty) hsplit
  rw [htokens, List.filter_eq_self]
  intro w hw
  simpa using (hwords w hw).ne_nil

/-- No character of a printed line ends it (R105). -/
theorem not_isLineEnd_of_mem_lineOf {m : List Char} {ws : List (List Char)} (hm : IsWord m)
    (hws : ∀ w ∈ ws, IsWord w) : ∀ c ∈ lineOf m ws, isLineEnd c = false := by
  intro c hc
  cases ws with
  | nil => exact hm.not_isLineEnd c hc
  | cons w ws =>
    obtain hc | hc := List.mem_append.mp hc
    · exact hm.not_isLineEnd c hc
    · obtain rfl | hc := List.mem_cons.mp hc
      · rfl
      · obtain rfl | ⟨v, hv, hc⟩ := mem_joinWith hc
        · rfl
        · exact (hws v hv).not_isLineEnd c hc

theorem isBlank_lineOf {m : List Char} (ws : List (List Char)) (hm : IsWord m) :
    isBlank (lineOf m ws) = false := by
  cases m with
  | nil => exact absurd rfl hm.ne_nil
  | cons c cs =>
    have hc := hm.clean c (by simp)
    simp only [isBreak, Bool.or_eq_false_iff, decide_eq_false_iff_not] at hc
    obtain ⟨⟨⟨⟨-, hspace⟩, htab⟩, -⟩, -⟩ := hc
    cases ws <;> simp [isBlank, lineOf, hspace, htab]

/-- A printed line and the empty line after its `;` parse as the line's tokens do (R105, R106). -/
theorem parseLines_printInstr {P : Params} {i : Instr} (h : i.wf = true) (n : Nat)
    (rest : List Char) :
    parseLines P n (splitLines (printInstr P i ++ '\n' :: rest)) = do
      let j ← parseTokens P n (mnemonic i :: operandTokens P i)
      let L ← parseLines P (n + 2) (splitLines rest)
      return j :: L := by
  have hm := mnemonic_isWord i
  have hws := operandTokens_isWord P h
  have hlines : splitLines (printInstr P i ++ '\n' :: rest) =
      lineOf (mnemonic i) (operandTokens P i) :: [] :: splitLines rest := by
    rw [printInstr_eq, List.append_assoc, List.singleton_append]
    exact splitChars_append (sep := isLineEnd) (not_isLineEnd_of_mem_lineOf hm hws) rfl
  rw [hlines, parseLines, isBlank_lineOf _ hm, tokens_lineOf hm hws]
  rfl

end Sys2Proof.Text
end

section
/-! SUPPORT. What each printed line parses to, and the printed program as a whole
(30_encoding.md R107–R118). -/

namespace Sys2Proof.Text

/-! ## Well-formed operands can be spelled -/

theorem spellable_of_isBase {op : Operand} (h : op.isBase = true) : Spellable op := by
  obtain ⟨kind, se⟩ := op
  obtain rfl : se = false := (isBase_iff.mp h).1
  cases kind with
  | r64 n | u64 n =>
    have hn : n < 128 := of_decide_eq_true h
    simp only [Spellable]
    omega
  | imm v | r32 n | r16l n | r16h n => cases h

theorem spellable_of_isOffset {op : Operand} (h : op.isOffset = true) : Spellable op := by
  obtain ⟨f, hf⟩ := isOffset_iff.mp h
  obtain ⟨v, rfl⟩ | ⟨n, se, rfl⟩ := offset_cases_of_encOff hf
  · trivial
  · have hn := (encOff_r32_ok_iff.mp hf).1
    simp only [Spellable]
    omega

theorem spellable_of_encDst {op : Operand} {f : DestFields} (h : encDst op = .ok f) :
    Spellable op := by
  obtain ⟨kind, se⟩ := op
  cases kind with
  | r32 n | r16l n | r16h n =>
    have hn := (check_bind_ok_iff.mp h).1
    simp only [Spellable]
    omega
  | imm v | r64 n | u64 n => cases h

theorem spellable_of_encMovImm {op : Operand} {bound v : Nat} (h : encMovImm op bound = .ok v) :
    Spellable op := by
  obtain ⟨kind, se⟩ := op
  cases kind with
  | imm u => trivial
  | r32 n | r16l n | r16h n | r64 n | u64 n => cases h

/-- A printed operand with `se` off reads back whole (R108). -/
theorem operandToken_of_plain {op : Operand} (hse : op.se = false) (h : Spellable op) :
    operandToken (printOperand op) = .ok op := by
  rw [operandToken_printOperand h, ← hse]

/-! ## Printed lines -/

theorem parseMov_print {form : MovForm} {dest src : Operand} (line : Nat)
    (h : (form.make dest src).wf = true) :
    parseMov line [printOperand dest, printOperand src] = .ok (canonicalMov dest src) := by
  obtain ⟨hplain, d, v, hf⟩ := wf_make_iff.mp h
  obtain ⟨hdest, hsrc⟩ := plain_make_iff.mp hplain
  obtain ⟨-, hd, -, hv⟩ := formFields_ok_iff.mp hf
  simp [parseMov, operandToken_of_plain hdest (spellable_of_encDst hd),
    operandToken_of_plain hsrc (spellable_of_encMovImm hv), onToken, bind, Except.bind, pure,
    Except.pure]

theorem parseTransfer_print {P : Params}
    {make : Nat → Nat → Operand → Operand → Operand → Instr} {fc mask : Nat}
    {reg base off : Operand} (line : Nat) (m : List Char)
    (h : transferFieldsWF fc mask reg base off = true) :
    parseTransfer P make line m (transferTokens P fc mask reg base off) =
      .ok (make fc mask reg base off) := by
  simp only [transferFieldsWF, Bool.and_eq_true, decide_eq_true_eq] at h
  obtain ⟨⟨⟨⟨⟨hfc, h1⟩, h15⟩, hreg⟩, hbase⟩, hoff⟩ := h
  have hb := operandToken_of_plain (isBase_iff.mp hbase).1 (spellable_of_isBase hbase)
  simp [transferTokens, parseTransfer, formatToken_printFormat hfc, maskToken_print h1 h15,
    registerListToken_print h1 h15 hreg, hb, operandToken_printOperand (spellable_of_isOffset hoff),
    signednessToken_print, onToken, bind, Except.bind, pure, Except.pure]

/-- The tokens of a printed line are at most the ten a line may have (R111). -/
theorem operandTokens_length_le (P : Params) (i : Instr) : (operandTokens P i).length ≤ 6 := by
  cases i <;> simp [operandTokens, transferTokens]

/-- The printed line of a well-formed canonical instruction other than Ret parses back to it
(R109–R111, R116). -/
theorem parseTokens_print {P : Params} {i : Instr} (line : Nat) (h : i.wf = true)
    (hcanonical : i.canonical = i) (hret : ∀ r, i ≠ .ret r) :
    parseTokens P line (mnemonic i :: operandTokens P i) = .ok i := by
  have hlen : ¬10 < (mnemonic i :: operandTokens P i).length := by
    have := operandTokens_length_le P i
    rw [List.length_cons]
    omega
  rw [parseTokens, if_neg hlen]
  cases i with
  | deviceLoad fc mask reg base off => exact parseTransfer_print line loadName h
  | deviceStore fc mask reg base off => exact parseTransfer_print line storeName h
  | movHalf dest src =>
    exact (parseMov_print (form := .half) line h).trans (congrArg Except.ok hcanonical)
  | movShort dest src =>
    exact (parseMov_print (form := .short) line h).trans (congrArg Except.ok hcanonical)
  | movLong dest src =>
    exact (parseMov_print (form := .long) line h).trans (congrArg Except.ok hcanonical)
  | ret reg => exact absurd rfl (hret reg)
  | stop => rfl
  | wait => rfl

theorem print_cons (P : Params) (i : Instr) (L : List Instr) :
    print P (i :: L) = printInstr P i ++ '\n' :: print P L := by
  simp [print]

/-- A printed program parses back from any line number on (R105, R116). -/
theorem parseLines_print {P : Params} {L : List Instr} (n : Nat)
    (hL : ∀ i ∈ L, i.wf = true ∧ i.canonical = i ∧ ∀ r, i ≠ .ret r) :
    parseLines P n (splitLines (print P L)) = .ok L := by
  induction L generalizing n with
  | nil => rfl
  | cons i L ih =>
    obtain ⟨⟨hwf, hcanonical, hret⟩, hL⟩ := List.forall_mem_cons.mp hL
    rw [print_cons, parseLines_printInstr hwf, parseTokens_print n hwf hcanonical hret, ih _ hL]
    rfl

/-- Settles O58: every printed line splits into its tokens, and every token parses back to what it
was printed from. -/
theorem printedTextParsesBack : Obligations.PrintedTextParsesBack :=
  fun _ _ _ hL => parseLines_print 0 hL

/-- Settles O60: the printed line of a Ret splits into its two tokens, and the first is no
mnemonic. -/
theorem retPrintsButDoesNotParse : Obligations.RetPrintsButDoesNotParse := by
  intro P n
  refine ⟨rfl, fun hn => ?_⟩
  have hwf : (Instr.ret (.r32 n)).wf = true := decide_eq_true hn
  rw [parse, print_cons, parseLines_printInstr hwf]
  rfl

end Sys2Proof.Text
end

section
/-! SUPPORT. The accessor calls themselves: when each raises, the sum a read is, and every bit after
a write (40_bitfield_accessor.md R130–R135). -/

namespace Sys2Proof

/-! ## The precondition -/

theorem accessorOk_iff {s e : Nat} :
    accessorOk s e = true ↔ s ≤ e ∧ e - s + 1 ≤ 57 ∧ e / 8 - s / 8 + 1 ≤ 7 := by
  simp [accessorOk, and_assoc]

theorem getBits_of_accessorOk (B : Buffer) {s e : Nat} (h : accessorOk s e = true) :
    getBits B s e = .ok (readBits B s e) :=
  if_pos h

theorem getBits_eq_accessorRange_iff {B : Buffer} {s e : Nat} :
    getBits B s e = .error .accessorRange ↔ ¬accessorOk s e = true := by
  by_cases h : accessorOk s e = true <;> simp [getBits, h]

theorem setBits_eq_accessorRange_iff {B : Buffer} {s e v : Nat} :
    setBits B s e v = .error .accessorRange ↔ ¬accessorOk s e = true := by
  by_cases h : accessorOk s e = true
  · rw [setBits, if_neg (by simp [h])]
    split
    · simp [h]
    · split <;> simp [h]
  · simp [setBits, h]

theorem setBits_of_tooWide (B : Buffer) {s e v : Nat} (hok : accessorOk s e = true)
    (hv : 2 ^ (e - s + 1) ≤ v) : setBits B s e v = .error .valueTooWide := by
  rw [setBits, if_neg (by simp [hok]), if_pos hv]

theorem setBits_past_end {B : Buffer} {s e v : Nat} (hok : accessorOk s e = true)
    (hv : v < 2 ^ (e - s + 1)) (hend : B.length ≤ s / 8 ∨ B.length ≤ e / 8) :
    setBits B s e v = .ok B := by
  rw [setBits, if_neg (by simp [hok]), if_neg (by omega), if_pos (by simpa using hend)]

/-! ## Reads -/

/-- A number's low `n` bits, as the sum R131 writes. -/
theorem mod_two_pow_eq_sum_testBit (x n : Nat) :
    x % 2 ^ n = ((List.range n).map fun i => if x.testBit i then 2 ^ i else 0).sum := by
  induction n with
  | zero => simp [Nat.mod_one]
  | succ n ih =>
    rw [List.range_succ, List.map_append, List.sum_append, ← ih, Nat.mod_pow_succ,
      ← Nat.toNat_testBit]
    cases hbit : x.testBit n <;> simp [hbit]

theorem readBits_eq_sum_bitAt (B : Buffer) (s e : Nat) :
    readBits B s e =
      ((List.range (e + 1 - s)).map fun i => if bitAt B (s + i) then 2 ^ i else 0).sum := by
  rw [readBits, mod_two_pow_eq_sum_testBit]
  simp only [Nat.testBit_div_two_pow, bitAt_eq_testBit, Nat.add_comm s]

theorem readBits_append_zeros (B : Buffer) (n s e : Nat) :
    readBits (B ++ zeros n) s e = readBits B s e := by
  simp [readBits, leNat_append]

theorem getBits_append_zeros (B : Buffer) (n s e : Nat) :
    getBits (B ++ zeros n) s e = getBits B s e := by
  rw [getBits, getBits, readBits_append_zeros]

/-- A range wholly past the end reads 0: the buffer's number is below the range's first power. -/
theorem readBits_past_end {B : Buffer} {s : Nat} (e : Nat) (h : 8 * B.length ≤ s) :
    readBits B s e = 0 := by
  have hlt : leNat B < 2 ^ s := calc
    leNat B < (2 ^ 8) ^ B.length := leNat_lt B
    _ = 2 ^ (8 * B.length) := (Nat.pow_mul ..).symm
    _ ≤ 2 ^ s := Nat.pow_le_pow_right (by decide) h
  rw [readBits, Nat.div_eq_of_lt hlt, Nat.zero_mod]

/-! ## Writes -/

section
variable {B : Buffer} {s e v : Nat}

/-- A value that fits a range has no bit past the range's width. -/
theorem testBit_past_width {i : Nat} (hv : v < 2 ^ (e - s + 1)) (hi : e - s < i) :
    v.testBit i = false :=
  Nat.testBit_eq_false_of_lt (Nat.lt_of_lt_of_le hv (Nat.pow_le_pow_right (by decide) hi))

/-- Every bit after a write whose value fits a range inside the buffer (R133). -/
theorem bitAt_orBits_inside (hse : s ≤ e) (hv : v < 2 ^ (e - s + 1)) (he : e / 8 < B.length)
    (i : Nat) : bitAt (orBits B s v) i =
      (bitAt B i || (decide (s ≤ i) && decide (i ≤ e) && v.testBit (i - s))) := by
  rw [bitAt_orBits]
  by_cases hie : i ≤ e
  · have hlen : i < 8 * B.length := by omega
    simp [hie, hlen]
  · by_cases hs : s ≤ i
    · have hpast : e - s < i - s := by omega
      simp [testBit_past_width hv hpast]
    · simp [hs]

/-- A value ORed into a range that holds 0 reads back (R135). -/
theorem readBits_orBits_same (hse : s ≤ e) (hv : v < 2 ^ (e - s + 1)) (he : e / 8 < B.length)
    (hzero : readBits B s e = 0) : readBits (orBits B s v) s e = v := by
  apply Nat.eq_of_testBit_eq
  intro i
  have hold : (decide (i < e + 1 - s) && bitAt B (s + i)) = false := by
    rw [← testBit_readBits, hzero, Nat.zero_testBit]
  rw [testBit_readBits, bitAt_orBits_inside hse hv he]
  by_cases hi : i < e + 1 - s
  · have hie : s + i ≤ e := by omega
    have hbit : bitAt B (s + i) = false := by simpa [hi] using hold
    simp [hi, hie, hbit]
  · have hpast : e - s < i := by omega
    simp [hi, testBit_past_width hv hpast]

/-- A range that does not meet the written one reads as before (R135). -/
theorem readBits_orBits_of_disjoint (hse : s ≤ e) (hv : v < 2 ^ (e - s + 1))
    (he : e / 8 < B.length) {s' e' : Nat} (hdisjoint : e' < s ∨ e < s') :
    readBits (orBits B s v) s' e' = readBits B s' e' := by
  apply readBits_congr
  intro i hlo hhi
  have hout : ¬(s ≤ i ∧ i ≤ e) := by omega
  rw [bitAt_orBits_inside hse hv he, ← Bool.decide_and, decide_eq_false hout, Bool.false_and,
    Bool.or_false]

end

/-! ## The statements -/

/-- Settles O2: the low bits of a number are the sum of its bits, and the bits of the buffer's
number are the buffer's. -/
theorem getBitsSumsTheBitsOfTheRange : Obligations.GetBitsSumsTheBitsOfTheRange := by
  intro B s e hok
  have hwidth : e - s + 1 = e + 1 - s := (Nat.sub_add_comm (accessorOk_iff.mp hok).1).symm
  rw [hwidth]
  exact ⟨_, getBits_of_accessorOk B hok, readBits_lt B s e, readBits_eq_sum_bitAt B s e⟩

/-- Settles O3: appended zeros leave the buffer's number as it is. -/
theorem readsPastTheEndAreZero : Obligations.ReadsPastTheEndAreZero := fun B s e n hok =>
  ⟨getBits_append_zeros B n s e, fun hpast => by
    rw [getBits_of_accessorOk B hok, readBits_past_end e hpast]⟩

/-- Settles O4: the buffer a write inside answers is the OR, and a value that fits has no bit past
the range's end. -/
theorem setBitsOrsTheValueIntoTheRange : Obligations.SetBitsOrsTheValueIntoTheRange :=
  fun B s _ v hok => ⟨setBits_of_tooWide B hok, fun hv he =>
    ⟨_, setBits_inside hok hv he, orBits_length B s v,
      bitAt_orBits_inside (accessorOk_iff.mp hok).1 hv he⟩⟩

/-- Settles O5: a bit at or past `8·len(B)` lies in a byte at or past `len(B)`, which the write's
last test turns away. -/
theorem setBitsPastTheEndChangesNothing : Obligations.SetBitsPastTheEndChangesNothing :=
  fun _ _ _ _ hok hv hend => setBits_past_end hok hv (by omega)

/-- Settles O6: on a zero range the OR is the value itself, and it touches no bit outside. -/
theorem disjointFieldsKeepTheirValues : Obligations.DisjointFieldsKeepTheirValues := by
  intro B s e v hok hv he hget
  have hse : s ≤ e := (accessorOk_iff.mp hok).1
  have hzero : readBits B s e = 0 := Except.ok.inj ((getBits_of_accessorOk B hok).symm.trans hget)
  refine ⟨_, setBits_inside hok hv he, ?_, fun s' e' hdisjoint => ?_⟩
  · rw [getBits_of_accessorOk _ hok, readBits_orBits_same hse hv he hzero]
  · rw [getBits, getBits, readBits_orBits_of_disjoint hse hv he hdisjoint]

/-- Settles O1: the range is tested first by both accessors, and only that test raises the range
assertion. -/
theorem accessorRefusesIllegalRanges : Obligations.AccessorRefusesIllegalRanges := by
  intro B s e v
  rw [← accessorOk_iff, Ne, Ne, getBits_eq_accessorRange_iff, setBits_eq_accessorRange_iff]
  exact ⟨fun h => ⟨h, h⟩, fun h => ⟨not_not_intro h, not_not_intro h⟩⟩

end Sys2Proof
end

section
/-! SUPPORT. The inverse laws of the operand codec (41_operand_codec.md R143, R150): when `compress`
answers a shift and a raw value, and the offset of an immediate offset field. -/

namespace Sys2Proof

/-! ## Offsets -/

/-- A 12-bit field is read as a number between -2048 and 2047 that leaves the field again modulo
4096 (00_scope.md R14). -/
theorem sext_twelve_spec {raw : Nat} (hraw : raw < 4096) :
    (-2048 ≤ sext 12 raw ∧ sext 12 raw ≤ 2047) ∧ (sext 12 raw % 4096).toNat = raw := by
  unfold sext
  split <;> omega

/-- `compress` answers exactly the offset's own shift with the 12-bit raw value that spells the
offset under it (R183). -/
theorem compress_ok_iff {v : Int} {shift raw : Nat} :
    compress v = .ok (shift, raw) ↔
      shift = offsetShift v ∧ raw < 4096 ∧ sext 12 raw * 2 ^ shift = v := by
  constructor
  · intro h
    obtain ⟨-, hraw, hv⟩ := compress_ok h
    refine ⟨?_, hraw, hv⟩
    simp only [compress] at h
    split at h <;> cases h
    rfl
  · rintro ⟨hshift, hraw, hv⟩
    have hquot : v / 2 ^ offsetShift v = sext 12 raw := by
      rw [← hshift, ← hv, Int.mul_ediv_cancel _ (by positivity)]
    obtain ⟨hrange, hmod⟩ := sext_twelve_spec hraw
    simp only [compress]
    rw [hquot, if_pos hrange, hmod, hshift]

/-- Only an immediate field decodes to an immediate offset, and its value is the raw value under the
shift (R142). -/
theorem toInt_of_decOff_imm {op : Operand} {f : OffsetFields} {v : Imm64} (hf : f.Fits)
    (h : decOff f = .ok op) (hop : op.kind = .imm v) :
    f.isImm = 1 ∧ v.toInt = sext 12 f.raw * 2 ^ f.shift := by
  unfold decOff at h
  split at h
  · next hone =>
    obtain ⟨-, h⟩ := check_bind_ok_iff.mp h
    cases h
    cases hop
    exact ⟨hone, imm64_toInt_offset hf.raw hf.shift⟩
  · obtain ⟨-, h⟩ := check_bind_ok_iff.mp h
    obtain ⟨-, h⟩ := check_bind_ok_iff.mp h
    obtain ⟨-, h⟩ := check_bind_ok_iff.mp h
    cases h
    cases hop

/-- An accepted offset field encodes back to itself when an immediate has the canonical shift
(R150). -/
theorem encOff_of_decOff {op : Operand} {f : OffsetFields} (hf : f.Fits)
    (hcanonical : f.isImm = 1 → f.shift = offsetShift (sext 12 f.raw * 2 ^ f.shift))
    (h : decOff f = .ok op) : encOff op = .ok f := by
  refine (encOff_ok_iff_of_decOff hf h).mpr fun v hop => ?_
  obtain ⟨himm, hv⟩ := toInt_of_decOff_imm hf h hop
  rw [hv]
  exact compress_ok_iff.mpr ⟨hcanonical himm, hf.raw, rfl⟩

/-! ## The ALU destination -/

/-- A destination field the decoder accepts has flag 2 or flag 0, so its raw value fits the bits
that flag gives it (R149). -/
theorem fits_of_decDst {op : Operand} {f : DestFields}
    (hraw : f.raw < if f.flag = 2 then 256 else 64) (h : decDst f = .ok op) : f.Fits := by
  unfold decDst at h
  split_ifs at h hraw with htwo hzero
  · exact .inl ⟨htwo, hraw⟩
  · exact .inr ⟨hzero, hraw⟩

theorem se_of_decDst {op : Operand} {f : DestFields} (hf : f.Fits) (h : decDst f = .ok op) :
    op.se = false := by
  obtain ⟨flag, raw⟩ := f
  obtain ⟨rfl, hraw⟩ | ⟨rfl, hraw⟩ := hf
  · exact (isReg128_iff.mp (isReg128_of_decDst hraw h)).1
  · exact (isHalfDest_iff.mp (isHalfDest_of_decDst hraw h)).1

/-! ## The statement -/

/-- Settles O7: each encoder answers exactly the fields that decode to its operand, the offset's
under the canonical shift. -/
theorem operandCodecInverse : Obligations.OperandCodecInverse := by
  refine ⟨fun _ _ => decOff_of_encOff, ?_, ?_, ?_, ?_, ?_, ?_, ?_⟩
  · exact fun _ _ hse h => ((encBase_ok_iff hse).mp h).2.2
  · exact fun _ _ hse h => ((encReg_ok_iff hse).mp h).2.2
  · exact fun _ _ hse h => ((encDst_ok_iff hse).mp h).2
  · intro op f huni hraw h
    have hse := (isBase_iff.mp (isBase_of_decBase hraw h)).1
    exact (encBase_ok_iff hse).mpr ⟨huni, hraw, h⟩
  · intro op f h32 hraw h
    have hse := (isRegList_iff.mp (isRegList_of_decReg hraw h)).1
    exact (encReg_ok_iff hse).mpr ⟨h32, hraw, h⟩
  · intro op f hraw h
    have hf := fits_of_decDst hraw h
    exact (encDst_ok_iff (se_of_decDst hf h)).mpr ⟨hf, h⟩
  · exact fun _ _ himm hsebit hshift hraw => encOff_of_decOff ⟨himm, hsebit, hshift, hraw⟩

end Sys2Proof
end

section
/-! SUPPORT. Load and Store (42_load_store.md): which offsets `compress` takes (R183), and what each
failing check of a word answers (R181). -/

namespace Sys2Proof

/-! ## Offset compression -/

/-- The offsets an instruction can hold are the multiples `q·2^s` of R183. -/
theorem offsetFits_iff {v : Int} :
    offsetFits v = true ↔ ∃ (q : Int) (s : Nat), v = q * 2 ^ s ∧ -2048 ≤ q ∧ q ≤ 2047 ∧ s ≤ 3 := by
  constructor
  · intro h
    obtain ⟨shift, raw, hc⟩ := compress_of_offsetFits h
    obtain ⟨hshift, hraw, hv⟩ := compress_ok hc
    obtain ⟨⟨hlo, hhi⟩, -⟩ := sext_twelve_spec hraw
    exact ⟨sext 12 raw, shift, hv.symm, hlo, hhi, by omega⟩
  · rintro ⟨q, s, rfl, hlo, hhi, hs⟩
    interval_cases s <;> simp [offsetFits, hlo, hhi]

/-- `compress` has one refusal (R183). -/
theorem field_of_compress_error {v : Int} {f : Field} (h : compress v = .error f) :
    f = .offsetRange := by
  simp only [compress] at h
  split at h <;> cases h
  rfl

/-- `compress` answers exactly on the offsets an instruction can hold. -/
theorem compress_eq_error_iff {v : Int} :
    compress v = .error .offsetRange ↔ offsetFits v = false := by
  constructor
  · intro h
    by_contra hfits
    obtain ⟨_, _, hc⟩ := compress_of_offsetFits (Bool.not_eq_false _ ▸ hfits)
    cases h.symm.trans hc
  · intro hfits
    cases hc : compress v with
    | error f => rw [field_of_compress_error hc]
    | ok r =>
      obtain ⟨hshift, hraw, hv⟩ := compress_ok hc
      rw [← hv, offsetFits_sext_mul hraw hshift] at hfits
      cases hfits

theorem offsetShift_zero : offsetShift 0 = 0 :=
  rfl

/-- The shift of a nonzero offset is the largest up to 3 that divides it (R183). -/
theorem le_offsetShift {v : Int} (hv : v ≠ 0) {s : Nat} (hs : s ≤ 3) (h : (2 : Int) ^ s ∣ v) :
    s ≤ offsetShift v := by
  unfold offsetShift
  interval_cases s <;> split_ifs <;> omega

/-- Settles O8: the offsets that fit are those `compress` answers, and its shift is the offset's
own. -/
theorem compressTakesExactlyTheFittingOffsets :
    Obligations.CompressTakesExactlyTheFittingOffsets := by
  intro v
  rw [← offsetFits_iff, Bool.not_eq_true]
  refine ⟨fun hfits => ?_, compress_eq_error_iff.mpr⟩
  obtain ⟨shift, raw, hc⟩ := compress_of_offsetFits hfits
  obtain ⟨hlt, hraw, hv⟩ := compress_ok hc
  obtain ⟨rfl, -, -⟩ := compress_ok_iff.mp hc
  refine ⟨_, raw, hc, Nat.le_of_lt_succ hlt, hraw, hv, ?_, fun hne _ => le_offsetShift hne⟩
  rintro rfl
  exact offsetShift_zero

/-! ## The checks of a word -/

theorem check_false {f : Field} : check false f = .error f :=
  rfl

/-- A failing check answers its own field, whatever follows it. -/
@[simp] theorem check_false_bind {f : Field} {α : Type} {k : Unit → Except Field α} :
    (check false f >>= k) = .error f :=
  rfl

/-- A transfer word is unpacked from its first 8 bytes (30_encoding.md R85). -/
theorem unpackTransfer_take (make : Nat → Nat → Operand → Operand → Operand → Instr) {B : Buffer}
    (h : 8 ≤ B.length) : unpackTransfer make (B.take 8) = unpackTransfer make B := by
  have hread : ∀ s e, e < 64 → readBits (B.take 8) s e = readBits B s e := fun s e he =>
    readBits_take h he
  simp only [unpackTransfer, checkTransferBits, regFieldsOf, baseFieldsOf, offsetFieldsOf,
    formatCodeOf, hread, Nat.reduceLT]

/-- A word with Load's or Store's key is 8 bytes that `unpack_ls` reads (R181, 45_stream_codec.md
R261). -/
theorem unpackAt_transfer {P : Params} {B : Buffer} {c : Nat} (hP : P.valid = true)
    (hin : c + 8 ≤ B.length)
    (hkey : readBits (B.drop c) 0 6 = P.opcLoad.toNat ∨
      readBits (B.drop c) 0 6 = P.opcStore.toNat) :
    ∃ make, unpackAt P B c = atPlace (.offset c)
      ((unpackTransfer make (B.drop c)).map fun i => (⟨i, (B.drop c).take 8⟩, 8)) := by
  have hfits : 8 ≤ (B.drop c).length := by rw [List.length_drop]; omega
  obtain hkey | hkey := hkey
  · have hk : wordKind P (readBits (B.drop c) 0 6) = some .load := hkey ▸ wordKind_key hP .load
    refine ⟨.deviceLoad, ?_⟩
    rw [unpackAt_eq_of_wordLength hin (by simp only [wordLength, hk]) hk, unpackKind,
      unpackTransfer_take _ hfits]
  · have hk : wordKind P (readBits (B.drop c) 0 6) = some .store := hkey ▸ wordKind_key hP .store
    refine ⟨.deviceStore, ?_⟩
    rw [unpackAt_eq_of_wordLength hin (by simp only [wordLength, hk]) hk, unpackKind,
      unpackTransfer_take _ hfits]

section
variable {make : Nat → Nat → Operand → Operand → Operand → Instr} {W : Buffer} {f : Field}

/-- A fixed bit that is wrong refuses the word before its operands are read. -/
theorem unpackTransfer_of_bits_error (h : checkTransferBits W = .error f) :
    unpackTransfer make W = .error f := by
  rw [unpackTransfer, h]
  rfl

/-- Once the fixed bits are right, `unpack_ls` reads the register list, the base and the offset. -/
theorem unpackTransfer_of_bits_ok (h : checkTransferBits W = .ok ()) :
    unpackTransfer make W = do
      let reg ← decReg (regFieldsOf W)
      let base ← decBase (baseFieldsOf W)
      let off ← decOff (offsetFieldsOf W)
      return make (formatCodeOf W) (readBits W 52 55) reg base off := by
  rw [unpackTransfer, h]
  rfl

end

/-- Settles O19: the first check a word fails ends `unpack_ls` with its field, and after the fixed
bits the three operand decoders answer in turn. -/
theorem transferWordsAreCheckedInOrder : Obligations.TransferWordsAreCheckedInOrder := by
  intro P B c hP hin hkey
  obtain ⟨make, hat⟩ := unpackAt_transfer hP hin hkey
  have hfail : ∀ {f}, unpackTransfer make (B.drop c) = .error f →
      unpackAt P B c = .error (.fieldConstraint f (.offset c)) := fun hf => by
    rw [hat, hf]
    rfl
  have hbits : ∀ {f}, checkTransferBits (B.drop c) = .error f →
      unpackAt P B c = .error (.fieldConstraint f (.offset c)) := fun hf =>
    hfail (unpackTransfer_of_bits_error hf)
  refine ⟨fun h26 => hbits (by simp [checkTransferBits, h26]),
    fun h26 h28 => hbits (by simp [checkTransferBits, h26, h28]),
    fun h26 h28 h44 => hbits (by simp [checkTransferBits, h26, h28, h44]),
    fun h26 h28 h44 h50 => hbits (by simp [checkTransferBits, h26, h28, h44, h50]),
    fun h26 h28 h44 h50 h47 => hbits (by simp [checkTransferBits, h26, h28, h44, h50, h47]),
    fun h26 h28 h44 h50 h47 h60 => hbits (by
      simp [checkTransferBits, h26, h28, h44, h50, h47, h60]),
    fun h26 h28 h44 h50 h47 h60 h52 => hbits (by
      simp [checkTransferBits, h26, h28, h44, h50, h47, h60, h52, check_false]),
    fun h26 h28 h44 h50 h47 h60 h52 => ?_⟩
  have hok := checkTransferBits_ok_iff.mpr ⟨h26, h28, h44, h50, h47, h60, h52⟩
  have hrest := unpackTransfer_of_bits_ok (make := make) hok
  refine ⟨fun f hreg => hfail ?_, fun reg hreg => ⟨fun f hbase => hfail ?_, fun base hbase =>
    ⟨fun f hoff => hfail ?_, fun off hoff => ?_⟩⟩⟩
  · rw [hrest, hreg]
    rfl
  · rw [hrest, hreg, hbase]
    rfl
  · rw [hrest, hreg, hbase, hoff]
    rfl
  · rw [hat, unpackTransfer_ok_iff.mpr ⟨hok, reg, base, off, hreg, hbase, hoff, rfl⟩]
    exact ⟨_, rfl⟩

end Sys2Proof
end

section
/-! SUPPORT. Mov and Ret words (43_move.md, 44_ret_stop_wait.md): the form a 32-bit Mov packs in
(43 R214), and which reserved bits refuse a word (43 R213, 41_operand_codec.md R149, 44 R241). -/

namespace Sys2Proof

/-! ## The form of a packed Mov -/

/-- A packed Mov is a word of the form its operands ask for, whatever form it was decoded from (43
R212, R214). -/
theorem movWord_of_pack {P : Params} {form : MovForm} {dest src : Operand} {W : Buffer}
    (h : pack P (form.make dest src) = .ok W) : MovWord (movFormOf dest src) W := by
  rw [pack_ok_iff, canonical_make, encode_make, movWord_ok_iff] at h
  exact h.1

/-- Settles O14: a long Mov of such operands is well formed, hence packs, and the form of its word
is the one the immediate asks for. -/
theorem movPacksLongFromTwoToTheSixteen : Obligations.MovPacksLongFromTwoToTheSixteen := by
  intro P n v hn h0 hv
  have hwf : (Instr.movLong (.r32 n) (.imm v)).wf = true := by
    simpa [Instr.wf, Operand.isReg128, Operand.isImmBelow, hn, h0] using hv
  obtain ⟨W, hW⟩ := exists_pack (P := P) hwf
  have hform : movFormOf (.r32 n) (.imm v) = if 2 ^ 16 ≤ v.toInt then .long else .short := rfl
  have hword := movWord_of_pack (form := .long) hW
  refine ⟨W, hW, hW, ?_⟩
  rw [hword.length, hword.long, hform]
  split <;> exact ⟨rfl, rfl⟩

/-! ## Reserved bits -/

/-- A word of a known length and kind, inside the buffer, is refused at its offset with the field
its unpacker names (45_stream_codec.md R261 step 4). -/
theorem unpackAt_error_of_unpackKind {P : Params} {B : Buffer} {c n : Nat} {kind : WordKind}
    {f : Field} (hin : c + n ≤ B.length) (hlen : wordLength P (B.drop c) c = .ok n)
    (hk : wordKind P (readBits (B.drop c) 0 6) = some kind)
    (h : unpackKind P ((B.drop c).take n) kind = .error f) :
    unpackAt P B c = .error (.fieldConstraint f (.offset c)) := by
  rw [unpackAt_eq_of_wordLength hin hlen hk, h]
  rfl

/-- Two checks under one field name are one check of both conditions. -/
theorem check_bind_check_bind {a b : Bool} {f : Field} {α : Type} {k : Unit → Except Field α} :
    (check a f >>= fun _ => check b f >>= k) = (check (a && b) f >>= k) := by
  cases a <;> rfl

/-- `unpack_mov` on a word with a form's flags: its unused bits, then its destination, then its
immediate (43 R213). -/
theorem unpackMov_eq {form : MovForm} {W : Buffer} (hflag : readBits W 7 8 = form.flag)
    (hlong : readBits W 15 15 = form.longFlag) :
    unpackMov W = do
      check (form.gaps.all fun g => readBits W g.1 g.2 = 0) .movUnused
      let dest ← decDst (movDestOf form W)
      return form.make dest (.imm (BitVec.ofNat 64 (movImmOf form W))) := by
  cases form <;>
    simp [unpackMov, hflag, hlong, check_bind_check_bind, MovForm.flag, MovForm.longFlag,
      MovForm.gaps, movDestOf, MovForm.destHigh, movImmOf, MovForm.immEnd, MovForm.make]

/-- The low bit of the raw destination stands in bits 9–14 in every form (30_encoding.md R86–R88),
and a 32-bit destination needs it 0 (41 R149). -/
theorem decDst_movDestOf_odd {form : MovForm} {W : Buffer} (hform : form.flag = 2)
    (hodd : readBits W 9 14 % 2 = 1) : decDst (movDestOf form W) = .error .movDestLsb := by
  have hraw : (movDestOf form W).raw % 2 ≠ 0 := by
    simp only [movDestOf]
    omega
  simp only [decDst, show (movDestOf form W).flag = 2 from hform, if_true, hraw, decide_false,
    check_false_bind]

/-- An unused bit of a Mov word that is set refuses the word before its destination is read. -/
theorem unpackMov_error_unused {form : MovForm} {W : Buffer} (hflag : readBits W 7 8 = form.flag)
    (hlong : readBits W 15 15 = form.longFlag) (hgap : ∃ g ∈ form.gaps, readBits W g.1 g.2 ≠ 0) :
    unpackMov W = .error .movUnused := by
  have hall : (form.gaps.all fun g => decide (readBits W g.1 g.2 = 0)) = false := by
    simpa using hgap
  rw [unpackMov_eq hflag hlong, hall, check_false_bind]

/-- With its unused bits 0, a 32-bit Mov word is refused for an odd raw destination. -/
theorem unpackMov_error_lsb {form : MovForm} {W : Buffer} (hform : form.flag = 2)
    (hflag : readBits W 7 8 = form.flag) (hlong : readBits W 15 15 = form.longFlag)
    (hgaps : ∀ g ∈ form.gaps, readBits W g.1 g.2 = 0) (hodd : readBits W 9 14 % 2 = 1) :
    unpackMov W = .error .movDestLsb := by
  have hall : (form.gaps.all fun g => decide (readBits W g.1 g.2 = 0)) = true := by
    simpa using hgaps
  rw [unpackMov_eq hflag hlong, hall, check_true_bind, decDst_movDestOf_odd hform hodd]
  rfl

/-- A Mov word is unpacked from the bytes of its form (30 R86–R88). -/
theorem unpackMov_take {form : MovForm} {B : Buffer} (hflag : readBits B 7 8 = form.flag)
    (hlong : readBits B 15 15 = form.longFlag) (h : form.length ≤ B.length) :
    unpackMov (B.take form.length) = unpackMov B := by
  have hread : ∀ s e, e < 8 * form.length →
      readBits (B.take form.length) s e = readBits B s e := fun s e he => readBits_take h he
  cases form <;>
  · simp only [MovForm.length, Nat.reduceMul] at hread
    simp [unpackMov, MovForm.length, MovForm.flag, MovForm.longFlag, hread, hflag, hlong]

/-- A Mov word with a form's flags, all there, is refused at its offset with the field `unpack_mov`
names (45 R261). -/
theorem unpackAt_mov_error {P : Params} {B : Buffer} {c : Nat} {form : MovForm} {f : Field}
    (hkey : readBits (B.drop c) 0 6 = movKey) (hflag : readBits (B.drop c) 7 8 = form.flag)
    (hlong : readBits (B.drop c) 15 15 = form.longFlag) (hin : c + form.length ≤ B.length)
    (h : unpackMov (B.drop c) = .error f) :
    unpackAt P B c = .error (.fieldConstraint f (.offset c)) := by
  have hk : wordKind P (readBits (B.drop c) 0 6) = some .mov := by
    rw [hkey]
    rfl
  have hlen : wordLength P (B.drop c) c = .ok form.length := by
    rw [wordLength_mov_ok_iff hk, hflag, hlong]
    cases form <;> decide
  have hfits : form.length ≤ (B.drop c).length := by
    rw [List.length_drop]
    omega
  exact unpackAt_error_of_unpackKind hin hlen hk ((unpackMov_take hflag hlong hfits).trans h)

/-- A 32-bit Mov word is refused first for an unused bit that is set (R213), then for an odd raw
destination (R149). -/
theorem unpackAt_mov_reserved {P : Params} {B : Buffer} {c : Nat} {form : MovForm}
    (hform : form.flag = 2) (hkey : readBits (B.drop c) 0 6 = movKey)
    (hflag : readBits (B.drop c) 7 8 = form.flag)
    (hlong : readBits (B.drop c) 15 15 = form.longFlag) (hin : c + form.length ≤ B.length) :
    ((∃ g ∈ form.gaps, readBits (B.drop c) g.1 g.2 ≠ 0) →
        unpackAt P B c = .error (.fieldConstraint .movUnused (.offset c))) ∧
      ((∀ g ∈ form.gaps, readBits (B.drop c) g.1 g.2 = 0) → readBits (B.drop c) 9 14 % 2 = 1 →
        unpackAt P B c = .error (.fieldConstraint .movDestLsb (.offset c))) :=
  ⟨fun hgap => unpackAt_mov_error hkey hflag hlong hin (unpackMov_error_unused hflag hlong hgap),
    fun hgaps hodd => unpackAt_mov_error hkey hflag hlong hin
      (unpackMov_error_lsb hform hflag hlong hgaps hodd)⟩

/-- The reserved bits of a Ret word are refused (44 R241). -/
theorem unpackRet_error {W : Buffer} (h : readBits W 7 8 ≠ 0) :
    unpackRet W = .error .retReserved := by
  rw [unpackRet, decide_eq_false h, check_false_bind]

/-- Settles O18: each form's unpacker checks its unused bits first and the low bit of its
destination next, and Ret's checks its reserved bits. -/
theorem reservedMovAndRetBitsAreRefused : Obligations.ReservedMovAndRetBitsAreRefused := by
  intro P B c hP
  dsimp only
  refine ⟨fun hkey hflag hlong hin => ?_, fun hkey hflag hlong hin => ?_, fun hkey hin hbits => ?_⟩
  · simpa [MovForm.gaps] using
      unpackAt_mov_reserved (P := P) (form := .short) rfl hkey hflag hlong hin
  · simpa [MovForm.gaps] using
      unpackAt_mov_reserved (P := P) (form := .long) rfl hkey hflag hlong hin
  · have hk : wordKind P (readBits (B.drop c) 0 6) = some .ret := hkey ▸ wordKind_key hP .ret
    have hlen : wordLength P (B.drop c) c = .ok 2 := by simp only [wordLength, hk]
    have hread : readBits ((B.drop c).take 2) 7 8 = readBits (B.drop c) 7 8 :=
      readBits_take (by rw [List.length_drop]; omega) (by decide)
    exact unpackAt_error_of_unpackKind hin hlen hk (unpackRet_error (hread ▸ hbits))

end Sys2Proof
end

section
/-! SUPPORT. Every packer answers with a word of its form's length or a field violation
(45_stream_codec.md R263, 60_exceptions.md R361, R366). -/

namespace Sys2Proof

/-! ## Lengths of packed words -/

/-- A word the encoder gives has the length of its instruction's form (30_encoding.md R81). -/
theorem length_of_encode {P : Params} {i : Instr} {W : Buffer} (h : encode P i = .ok W) :
    W.length = i.length := by
  have hlaw : Laws.EncodedLength.Statement i := by
    cases i with
    | deviceLoad => exact Laws.EncodedLength.deviceLoad ..
    | deviceStore => exact Laws.EncodedLength.deviceStore ..
    | movHalf => exact Laws.EncodedLength.movHalf ..
    | movShort => exact Laws.EncodedLength.movShort ..
    | movLong => exact Laws.EncodedLength.movLong ..
    | ret => exact Laws.EncodedLength.ret ..
    | stop => exact Laws.EncodedLength.stop
    | wait => exact Laws.EncodedLength.wait
  exact hlaw.2 P W h

/-- A packed word has the length of the canonical form (43_move.md R214). -/
theorem length_of_pack {P : Params} {i : Instr} {W : Buffer} (h : pack P i = .ok W) :
    W.length = i.canonical.length :=
  length_of_encode (pack_ok_iff.mp h)

/-! ## What a packer can refuse with -/

/-- The two answers of a packer call: a word, or a field violation of that call (45 R263). -/
def WordOrViolation (r : Except Err Buffer) : Prop :=
  (∃ W, r = .ok W) ∨ ∃ f, r = .error (.fieldConstraint f .word)

theorem packTransfer_wordOrViolation {key fc mask : Nat} {reg base off : Operand}
    (hkey : key < 128) : WordOrViolation (packTransfer key fc mask reg base off) := by
  unfold packTransfer
  split
  · exact .inr ⟨_, rfl⟩
  · next r b o henc =>
    obtain ⟨hfc, hargs⟩ := check_bind_ok_iff.mp henc
    obtain ⟨hmask, hargs⟩ := check_bind_ok_iff.mp hargs
    obtain ⟨_, hr, hargs⟩ := except_bind_ok_iff.mp hargs
    obtain ⟨_, hb, hargs⟩ := except_bind_ok_iff.mp hargs
    obtain ⟨_, ho, hargs⟩ := except_bind_ok_iff.mp hargs
    cases hargs
    obtain ⟨W, hW⟩ := exists_packFields_transfer (transferFit_of_enc hkey hfc hmask hr hb ho)
    rw [← packTransfer_of_enc hkey hfc hmask hr hb ho, packTransfer, henc] at hW
    exact .inl ⟨W, hW⟩

theorem formWord_wordOrViolation (form : MovForm) (dest src : Operand) :
    WordOrViolation (movWord (formFields form dest src)) := by
  cases h : formFields form dest src with
  | error f => exact .inr ⟨f, rfl⟩
  | ok r =>
    obtain ⟨form', d, v⟩ := r
    obtain rfl := formFields_form h
    exact .inl (h ▸ exists_movWord h)

theorem packMov_wordOrViolation (dest src : Operand) : WordOrViolation (packMov dest src) := by
  unfold packMov
  cases h : movFields dest src with
  | error f => exact .inr ⟨f, rfl⟩
  | ok r =>
    obtain ⟨form, d, v⟩ := r
    have hform := (movFields_ok_iff.mp h).2
    exact .inl (hform ▸ exists_movWord hform)

theorem packRet_wordOrViolation (P : Params) (reg : Operand) :
    WordOrViolation (packRet P reg) := by
  unfold packRet
  split
  · next n _ =>
    split
    · next hn =>
      obtain ⟨W, hW, -⟩ := packFields_readsAs (retWrites_tile P n) (retWrites_value_lt hn)
      exact .inl ⟨W, hW⟩
    · exact .inr ⟨_, rfl⟩
  · exact .inr ⟨_, rfl⟩

/-- The encoder raises no `InternalAssertion` (60 R366). -/
theorem encode_wordOrViolation (P : Params) (i : Instr) : WordOrViolation (encode P i) := by
  cases i with
  | deviceLoad => exact packTransfer_wordOrViolation P.opcLoad.isLt
  | deviceStore => exact packTransfer_wordOrViolation P.opcStore.isLt
  | movHalf dest src => exact formWord_wordOrViolation .half dest src
  | movShort dest src => exact formWord_wordOrViolation .short dest src
  | movLong dest src => exact formWord_wordOrViolation .long dest src
  | ret reg => exact packRet_wordOrViolation P reg
  | stop => exact .inl (exists_packFields_word16 (v := stopWord) (by decide))
  | wait => exact .inl (exists_packFields_word16 P.waitWord.isLt)

/-- Nor does the packer, which differs from the encoder on a Mov alone (43_move.md R214). -/
theorem pack_wordOrViolation (P : Params) (i : Instr) : WordOrViolation (pack P i) := by
  cases i with
  | movHalf dest src | movShort dest src | movLong dest src =>
    exact packMov_wordOrViolation dest src
  | deviceLoad => exact encode_wordOrViolation P (.deviceLoad ..)
  | deviceStore => exact encode_wordOrViolation P (.deviceStore ..)
  | ret reg => exact encode_wordOrViolation P (.ret reg)
  | stop => exact encode_wordOrViolation P .stop
  | wait => exact encode_wordOrViolation P .wait

/-- Settles O13: a packer's fields fit its layout as soon as its checks have passed, so that neither
the accessor nor the self-check can fail. -/
theorem packersGiveAWordOrAFieldViolation : Obligations.PackersGiveAWordOrAFieldViolation :=
  fun P i =>
    ⟨(pack_wordOrViolation P i).imp_left fun ⟨W, h⟩ => ⟨W, h, length_of_pack h⟩,
      (encode_wordOrViolation P i).imp_left fun ⟨W, h⟩ => ⟨W, h, length_of_encode h⟩⟩

end Sys2Proof
end

section
/-! SUPPORT. The instructions of a decoded buffer lie end to end, and the two laws between
`assemble` and `disassemble` (45_stream_codec.md R262, R263, R266). -/

namespace Sys2Proof

/-! ## What a stream covers -/

section
variable {P : Params} {B : Buffer} {c : Nat} {out : List (Nat × Decoded)}

/-- The spans of a stream, joined, are the bytes from its start to the end of the buffer (R262). -/
theorem Stream.flatMap_span (h : Stream P B c out) :
    (out.flatMap fun e => e.2.span) = B.drop c := by
  induction h with
  | done hend => exact (List.drop_eq_nil_of_le hend).symm
  | word hd rest ih =>
    obtain ⟨rfl, -, after, hdrop⟩ := unpackAt_ok_iff_decodes.mp hd
    rw [List.flatMap_cons, ih, ← List.drop_drop, hdrop, List.drop_left]

/-- Each entry of a stream stands where the spans before it end, and is what the decode step gives
there (R262, 10_state.md R34). -/
theorem Stream.entry (h : Stream P B c out) {k : Nat} {e : Nat × Decoded} (he : out[k]? = some e) :
    e.1 = c + ((out.take k).map fun e' => e'.2.span.length).sum ∧
      unpackAt P B e.1 = .ok (e.2, e.2.span.length) := by
  induction h generalizing k with
  | done hend => simp at he
  | word hd rest ih =>
    obtain ⟨rfl, -, -⟩ := unpackAt_ok_iff_decodes.mp hd
    cases k with
    | zero =>
      cases he
      exact ⟨rfl, hd⟩
    | succ k =>
      obtain ⟨hoffset, hstep⟩ := ih he
      refine ⟨?_, hstep⟩
      rw [hoffset, List.take_succ_cons, List.map_cons, List.sum_cons, Nat.add_assoc]

end

/-- Settles O21: the whole decode is the stream from offset 0. -/
theorem disassemblyCoversTheBuffer : Obligations.DisassemblyCoversTheBuffer := by
  intro P B out h
  have hstream := disassemble_ok_iff.mp h
  refine ⟨hstream.flatMap_span, fun k e he => ?_⟩
  simpa only [Nat.zero_add] using hstream.entry he

section
variable {P : Params} {B : Buffer} {out : List (Nat × Decoded)}

/-- Each entry of a decoded buffer is what the decode step gives at its offset (R262). -/
theorem unpackAt_of_mem_disassemble (h : disassemble P B = .ok out) {e : Nat × Decoded}
    (he : e ∈ out) : unpackAt P B e.1 = .ok (e.2, e.2.span.length) := by
  obtain ⟨k, hk⟩ := List.mem_iff_getElem?.mp he
  exact ((disassemblyCoversTheBuffer P B out h).2 k e hk).2

/-! ## Assembling what was decoded -/

/-- Items assemble to their spans joined exactly when each packs to its span: packed words as long
as the spans cannot shift against them (R263). -/
theorem assembleFrom_spans_iff {k : Nat}
    (hlen : ∀ e ∈ out, e.2.span.length = e.2.instr.canonical.length) :
    assembleFrom P k (out.map fun e => e.2.instr) = .ok (out.flatMap fun e => e.2.span) ↔
      ∀ e ∈ out, pack P e.2.instr = .ok e.2.span := by
  induction out generalizing k with
  | nil => simp [assembleFrom]
  | cons e out ih =>
    obtain ⟨hhead, htail⟩ := List.forall_mem_cons.mp hlen
    rw [List.map_cons, List.flatMap_cons, assembleFrom_cons_ok_iff, List.forall_mem_cons]
    constructor
    · rintro ⟨O, B', hO, hB', hsplit⟩
      obtain ⟨rfl, rfl⟩ := List.append_inj hsplit (hhead.trans (length_of_pack hO).symm)
      exact ⟨hO, (ih htail).mp hB'⟩
    · rintro ⟨hpack, hrest⟩
      exact ⟨_, _, hpack, (ih htail).mpr hrest, rfl⟩

/-- A buffer decoded to instructions in the packer's form is their assembly exactly when each packs
to its own span (R266). -/
theorem assemble_of_disassemble_iff (h : disassemble P B = .ok out)
    (hform : ∀ e ∈ out, e.2.instr.canonical = e.2.instr) :
    assemble P (out.map fun e => e.2.instr) = .ok B ↔
      ∀ e ∈ out, pack P e.2.instr = .ok e.2.span := by
  have hlen : ∀ e ∈ out, e.2.span.length = e.2.instr.canonical.length := fun e he => by
    rw [hform e he]
    exact length_of_unpackAt (unpackAt_of_mem_disassemble h he)
  have hcover := (disassemblyCoversTheBuffer P B out h).1
  conv_lhs => rw [← hcover]
  exact assembleFrom_spans_iff hlen

end

/-- Settles O23: every canonical word packs back to itself, and the words are the whole buffer. -/
theorem assembleOfDisassemble : Obligations.AssembleOfDisassemble := by
  intro P B out hP h hcanonical
  refine (assemble_of_disassemble_iff h fun e he => ?_).mpr fun e he => ?_
  · exact (Decoded.canonical_iff.mp (hcanonical e he)).1
  · exact (packOfDecode P B e.1 _ e.2 hP (unpackAt_of_mem_disassemble h he)).1 (hcanonical e he)

/-! ## Decoding what was assembled -/

/-- Well-formed instructions assemble (R263). -/
theorem exists_assembleFrom {P : Params} {k : Nat} {L : List Instr}
    (hL : ∀ i ∈ L, i.wf = true) : ∃ B, assembleFrom P k L = .ok B := by
  induction L generalizing k with
  | nil => exact ⟨[], rfl⟩
  | cons i L ih =>
    obtain ⟨hi, hrest⟩ := List.forall_mem_cons.mp hL
    obtain ⟨O, hO⟩ := exists_pack (P := P) hi
    obtain ⟨B, hB⟩ := ih (k := k + 1) hrest
    exact ⟨O ++ B, assembleFrom_cons_ok_iff.mpr ⟨O, B, hO, hB, rfl⟩⟩

/-- Settles O22: the list assembles, its buffer decodes to the list, and since the list assembles to
that buffer each item packs to its span. -/
theorem disassembleOfAssemble : Obligations.DisassembleOfAssemble := by
  intro P L hP hL
  obtain ⟨B, hB⟩ : ∃ B, assemble P L = .ok B := exists_assembleFrom fun i hi => (hL i hi).1
  obtain ⟨out, hout, rfl⟩ := disassemble_of_assemble hP hB fun i hi =>
    ⟨((wf_iff_encode (P := P)).mp (hL i hi).1).1, (hL i hi).2⟩
  have hform : ∀ e ∈ out, e.2.instr.canonical = e.2.instr := fun e he =>
    (hL _ (List.mem_map_of_mem he)).2
  have hpack := (assemble_of_disassemble_iff hout hform).mp hB
  refine ⟨B, out, hB, hout, rfl, fun k e he => ⟨hpack e (List.mem_of_getElem? he), ?_⟩⟩
  exact ((disassemblyCoversTheBuffer P B out hout).2 k e he).1

end Sys2Proof
end

section
/-! SUPPORT. `RN32` of a non-negative rational: where its pattern lies, when it
overflows, and that no other pattern is nearer (46_format_converters.md R282). -/

namespace Sys2Proof

/-- The pattern of `RN32(n/d)` (R282). -/
def ratPattern (n d : Nat) : Nat :=
  roundMag fun u => compare (u * d) (n * 2 ^ unitBits)

/-- How far a pattern's magnitude lies from `n/d`, in units of `2^-150 / d`. -/
def ratDist (n d q : Nat) : Nat :=
  ((patternMag q * d : Nat) - (n * 2 ^ unitBits : Nat) : Int).natAbs

theorem roundRat_eq (neg : Bool) (n d : Nat) : roundRat neg n d = signed32 neg (ratPattern n d) :=
  rfl

theorem patternMag_infPattern : patternMag infPattern = 2 ^ 278 := by decide +kernel

/-- Twice the real from which on `RN32` overflows: the greatest finite magnitude and that of `+inf`
added up (R282). -/
theorem patternMag_overflow_midpoint :
    patternMag (infPattern - 1) + patternMag infPattern =
      2 * ((2 ^ 25 - 1) * 2 ^ 103 * 2 ^ unitBits) := by decide +kernel

theorem patternMag_injective : Function.Injective patternMag :=
  (strictMono_nat_of_lt_succ fun p => patternMag_lt p.lt_succ_self).injective

/-- Everything `roundMag` makes of the pattern its search ends at. -/
theorem roundMag_cases {cmp : Nat → Ordering} {p : Nat} (h : floorPattern cmp 31 0 = p) :
    (p = infPattern ∧ roundMag cmp = infPattern) ∨ p ≠ infPattern ∧
      ((cmp ((patternMag p + patternMag (p + 1)) / 2) = .lt ∧ roundMag cmp = p + 1) ∨
        (cmp ((patternMag p + patternMag (p + 1)) / 2) = .gt ∧ roundMag cmp = p) ∨
        (cmp ((patternMag p + patternMag (p + 1)) / 2) = .eq ∧ roundMag cmp % 2 = 0 ∧
          (roundMag cmp = p ∨ roundMag cmp = p + 1))) := by
  unfold roundMag
  rw [h]
  by_cases hp : p = infPattern
  · exact .inl ⟨hp, by simp [hp]⟩
  · refine .inr ⟨hp, ?_⟩
    simp only [if_neg hp]
    cases cmp ((patternMag p + patternMag (p + 1)) / 2)
    case lt => simp
    case gt => simp
    case eq =>
      simp only [reduceCtorEq, false_and, true_and, false_or]
      split <;> omega

/-- The search for `n/d` ends between two neighbours, or at `+inf`. -/
theorem floorPattern_rat (d N : Nat) :
    floorPattern (fun u => compare (u * d) N) 31 0 ≤ infPattern ∧
      patternMag (floorPattern (fun u => compare (u * d) N) 31 0) * d ≤ N ∧
      ∀ q, floorPattern (fun u => compare (u * d) N) 31 0 < q → q ≤ infPattern →
        N < patternMag q * d := by
  have admits : ∀ q, compare (patternMag q * d) N ≠ .gt ↔ patternMag q * d ≤ N := fun q => by
    rw [ne_eq, compare_gt_iff_gt, not_lt]
  obtain ⟨⟨hinf, hle⟩, -, hlast⟩ :=
    floorPattern_spec (cmp := fun u => compare (u * d) N) (bits := 31) (acc := 0)
      (fun a b hab hb => ⟨hab.trans hb.1, (admits a).mpr
        ((Nat.mul_le_mul_right d (patternMag_le hab)).trans ((admits b).mp hb.2))⟩)
      ⟨Nat.zero_le _, (admits 0).mpr (by simp [patternMag])⟩
  refine ⟨hinf, (admits _).mp hle, fun q hq hqinf => ?_⟩
  by_contra hN
  refine hlast q hq ?_ ⟨hqinf, (admits q).mpr (Nat.le_of_not_lt hN)⟩
  rw [infPattern] at hqinf
  omega

section
variable {n d : Nat}

/-- Everything `RN32(n/d)` can be: `+inf` from `2^128` on, and otherwise the nearer of the two
neighbours that enclose `n/d`, the even one at their midpoint. -/
theorem ratPattern_cases :
    (patternMag infPattern * d ≤ n * 2 ^ unitBits ∧ ratPattern n d = infPattern) ∨
      ∃ p < infPattern, patternMag p * d ≤ n * 2 ^ unitBits ∧
        n * 2 ^ unitBits < patternMag (p + 1) * d ∧
        (ratPattern n d = p ∧
            2 * (n * 2 ^ unitBits) ≤ patternMag p * d + patternMag (p + 1) * d ∨
          ratPattern n d = p + 1 ∧
            patternMag p * d + patternMag (p + 1) * d ≤ 2 * (n * 2 ^ unitBits)) ∧
        (patternMag p * d + patternMag (p + 1) * d = 2 * (n * 2 ^ unitBits) →
          ratPattern n d % 2 = 0) := by
  obtain ⟨hinf, hle, hlt⟩ := floorPattern_rat d (n * 2 ^ unitBits)
  have hround := roundMag_cases (cmp := fun u => compare (u * d) (n * 2 ^ unitBits)) rfl
  rw [← ratPattern] at hround
  generalize n * 2 ^ unitBits = N at *
  generalize floorPattern (fun u => compare (u * d) N) 31 0 = p at *
  have hmid : 2 * ((patternMag p + patternMag (p + 1)) / 2 * d) =
      patternMag p * d + patternMag (p + 1) * d := by
    have hp := patternMag_even p
    have hp' := patternMag_even (p + 1)
    rw [← Nat.mul_assoc, ← Nat.add_mul]
    congr 1
    omega
  simp only [compare_lt_iff_lt, compare_gt_iff_gt, compare_eq_iff_eq] at hround
  obtain ⟨rfl, hround⟩ | ⟨hne, hround⟩ := hround
  · exact .inl ⟨hle, hround⟩
  · have hfin : p < infPattern := Nat.lt_of_le_of_ne hinf hne
    refine .inr ⟨p, hfin, hle, hlt (p + 1) (Nat.lt_succ_self p) (Nat.succ_le_of_lt hfin), ?_⟩
    rw [← hmid]
    generalize (patternMag p + patternMag (p + 1)) / 2 * d = mid at *
    omega

theorem ratPattern_le : ratPattern n d ≤ infPattern := by
  obtain ⟨-, hr⟩ | ⟨p, hp, -, -, hr, -⟩ := ratPattern_cases (n := n) (d := d) <;> omega

/-- `RN32(n/d)` is finite exactly below the midpoint of the greatest finite value and `2^128`. -/
theorem ratPattern_lt_iff : ratPattern n d < infPattern ↔ n < (2 ^ 25 - 1) * 2 ^ 103 * d := by
  have hscale : n < (2 ^ 25 - 1) * 2 ^ 103 * d ↔
      n * 2 ^ unitBits < (2 ^ 25 - 1) * 2 ^ 103 * 2 ^ unitBits * d := by
    rw [Nat.mul_right_comm _ (2 ^ unitBits), Nat.mul_lt_mul_right (by positivity)]
  have hsum : patternMag (infPattern - 1) * d + patternMag infPattern * d =
      2 * ((2 ^ 25 - 1) * 2 ^ 103 * 2 ^ unitBits * d) := by
    rw [← Nat.add_mul, patternMag_overflow_midpoint, Nat.mul_assoc]
  have hlast : patternMag (infPattern - 1) * d ≤ patternMag infPattern * d :=
    Nat.mul_le_mul_right d (patternMag_le (Nat.sub_le _ _))
  rw [hscale]
  generalize (2 ^ 25 - 1) * 2 ^ 103 * 2 ^ unitBits * d = O at *
  obtain ⟨hN, hr⟩ | ⟨p, hp, hle, hlt, hr, heven⟩ := ratPattern_cases (n := n) (d := d)
  · omega
  · rcases Nat.lt_or_ge (p + 1) infPattern with hp' | hp'
    · have := Nat.mul_le_mul_right d (patternMag_le (Nat.le_sub_one_of_lt hp'))
      omega
    · obtain rfl : p = infPattern - 1 := by omega
      have hodd : (infPattern - 1) % 2 = 1 := rfl
      rw [Nat.sub_add_cancel (Nat.le_of_lt_succ (by decide))] at *
      omega

/-- No pattern is nearer to a real below `2^128` than the chosen one, and a tie is even. -/
theorem ratPattern_nearest (hd : 0 < d) (h : n * 2 ^ unitBits < patternMag infPattern * d)
    (q : Nat) :
    ratDist n d (ratPattern n d) ≤ ratDist n d q ∧
      (ratDist n d (ratPattern n d) = ratDist n d q → q ≠ ratPattern n d →
        ratPattern n d % 2 = 0) := by
  obtain ⟨hN, -⟩ | ⟨p, -, hle, hlt, hnear, heven⟩ := ratPattern_cases (n := n) (d := d)
  · exact absurd h (Nat.not_lt.mpr hN)
  · have hq : patternMag q * d < patternMag p * d ∨ q = p ∨ q = p + 1 ∨
        patternMag (p + 1) * d < patternMag q * d := by
      have hpos : q < p ∨ q = p ∨ q = p + 1 ∨ p + 1 < q := by omega
      exact hpos.imp (fun h => Nat.mul_lt_mul_of_pos_right (patternMag_lt h) hd) <| Or.imp_right <|
        Or.imp_right fun h => Nat.mul_lt_mul_of_pos_right (patternMag_lt h) hd
    unfold ratDist
    generalize n * 2 ^ unitBits = N at *
    obtain ⟨hr, hmid⟩ | ⟨hr, hmid⟩ := hnear <;> rw [hr] at heven ⊢
    · rcases hq with hq | rfl | rfl | hq <;> omega
    · rcases hq with hq | rfl | rfl | hq <;> omega

end

/-- Settles O50: a real below the overflow midpoint is below `2^128`, where the choice is a
nearest one. -/
theorem roundingIsNearestEven : Obligations.RoundingIsNearestEven := by
  intro n d hd
  have hfinite := ratPattern_lt_iff (n := n) (d := d)
  refine ⟨fun h => ?_, fun h => ⟨hfinite.mpr h, fun q _ => ratPattern_nearest hd ?_ q⟩⟩
  · exact Nat.le_antisymm ratPattern_le (Nat.le_of_not_lt fun hlt =>
      Nat.not_lt.mpr h (hfinite.mp hlt))
  · rw [patternMag_infPattern, unitBits]
    omega

end Sys2Proof
end

section
/-! SUPPORT. Reals that are binary32 values, and how far `RN32` moves any other
(46_format_converters.md R282). -/

namespace Sys2Proof

/-- A finite pattern and a sign, read back (R282). -/
theorem f32Val_signed32 (neg : Bool) {p : Nat} (hp : p < infPattern) :
    f32Val (signed32 neg p) = .fin neg (patternMag p) := by
  rw [infPattern] at hp
  have hnat : (signed32 neg p).toNat = if neg then 2 ^ 31 + p else p := by
    rw [signed32, BitVec.toNat_ofNat]
    exact Nat.mod_eq_of_lt (by split <;> omega)
  have hmag : (signed32 neg p).toNat % 2 ^ 31 = p := by
    rw [hnat]
    split <;> omega
  have hneg : 2 ^ 31 ≤ (signed32 neg p).toNat ↔ neg = true := by
    rw [hnat]
    cases neg
    · simpa using (by omega : p < 2147483648)
    · simp
  unfold f32Val
  simp only [hmag, hneg, Bool.decide_eq_true]
  rw [infPattern, if_neg (by omega), if_neg (by omega)]

/-- A mantissa with its leading bit is a normal value in every exponent in range. -/
theorem exists_patternMag_of_normal {m k : Nat} (hlow : 2 ^ 23 ≤ m) (hm : m < 2 ^ 24) (hk : 1 ≤ k)
    (hlt : m * 2 ^ k < 2 ^ 278) : ∃ q < infPattern, patternMag q = m * 2 ^ k := by
  have hk' : k < 255 := by
    have hpow : 2 ^ (23 + k) < 2 ^ 278 := by
      rw [Nat.pow_add]
      exact (Nat.mul_le_mul_right _ hlow).trans_lt hlt
    have := (Nat.pow_lt_pow_iff_right (by decide)).mp hpow
    omega
  have hexp : (2 ^ 23 * k + (m - 2 ^ 23)) / 2 ^ 23 = k := by omega
  have hmant : 2 ^ 23 + (2 ^ 23 * k + (m - 2 ^ 23)) % 2 ^ 23 = m := by omega
  refine ⟨2 ^ 23 * k + (m - 2 ^ 23), by rw [infPattern]; omega, ?_⟩
  rw [patternMag, hexp, hmant, if_neg (by omega)]

/-- A mantissa of 24 bits above the unit is a binary32 value: its leading zeros move into the
exponent while there is one, and what is left is normal or subnormal. -/
theorem exists_patternMag_of_lt {m k : Nat} (hm : m < 2 ^ 24) (hk : 1 ≤ k)
    (hlt : m * 2 ^ k < 2 ^ 278) : ∃ q < infPattern, patternMag q = m * 2 ^ k := by
  induction k, hk using Nat.le_induction generalizing m with
  | base =>
    rcases Nat.lt_or_ge m (2 ^ 23) with hlow | hlow
    · refine ⟨m, by rw [infPattern]; omega, ?_⟩
      rw [patternMag, if_pos (by omega)]
      omega
    · exact exists_patternMag_of_normal hlow hm le_rfl hlt
  | succ k hk ih =>
    rcases Nat.lt_or_ge m (2 ^ 23) with hlow | hlow
    · have hshift : 2 * m * 2 ^ k = m * 2 ^ (k + 1) := by ring
      rw [← hshift] at hlt ⊢
      exact ih (by omega) hlt
    · exact exists_patternMag_of_normal hlow hm (by omega) hlt

/-- A mantissa of at most `2^24` above the unit is a binary32 value. -/
theorem exists_patternMag {m k : Nat} (hm : m ≤ 2 ^ 24) (hk : 1 ≤ k) (hlt : m * 2 ^ k < 2 ^ 278) :
    ∃ q < infPattern, patternMag q = m * 2 ^ k := by
  rcases Nat.lt_or_eq_of_le hm with hm | rfl
  · exact exists_patternMag_of_lt hm hk hlt
  · have hcarry : 2 ^ 24 * 2 ^ k = 2 ^ 23 * 2 ^ (k + 1) := by ring
    rw [hcarry] at hlt ⊢
    exact exists_patternMag_of_lt (by decide) (by omega) hlt

/-- Magnitudes from `2^(23+k)` on are whole multiples of `2^k`. -/
theorem two_pow_dvd_patternMag {q k : Nat} (h : 2 ^ (23 + k) ≤ patternMag q) :
    2 ^ k ∣ patternMag q := by
  unfold patternMag at h ⊢
  split at h
  · next hq =>
    have hlt : 2 ^ (23 + k) < 2 ^ 24 := by omega
    obtain rfl : k = 0 := by
      have := (Nat.pow_lt_pow_iff_right (by decide)).mp hlt
      omega
    exact one_dvd _
  · next hq =>
    have hlt : 2 ^ (23 + k) < 2 ^ (24 + q / 2 ^ 23) := by
      rw [Nat.pow_add 2 24]
      exact h.trans_lt (Nat.mul_lt_mul_of_pos_right (by omega) (by positivity))
    have hk : k ≤ q / 2 ^ 23 := by
      have := (Nat.pow_lt_pow_iff_right (by decide)).mp hlt
      omega
    rw [if_neg hq]
    exact (Nat.pow_dvd_pow 2 hk).mul_left _

section
variable {n d : Nat}

theorem f32Val_roundRat (neg : Bool) (h : n < (2 ^ 25 - 1) * 2 ^ 103 * d) :
    f32Val (roundRat neg n d) = .fin neg (patternMag (ratPattern n d)) :=
  f32Val_signed32 neg (ratPattern_lt_iff.mpr h)

/-- `RN32` keeps a real that is a finite binary32 value. -/
theorem ratPattern_of_exact {q : Nat} (hd : 0 < d) (hq : q < infPattern)
    (h : patternMag q * d = n * 2 ^ unitBits) : ratPattern n d = q := by
  have hbelow : n * 2 ^ unitBits < patternMag infPattern * d := by
    rw [← h]
    exact Nat.mul_lt_mul_of_pos_right (patternMag_lt hq) hd
  have hdist := (ratPattern_nearest hd hbelow q).1
  have hmul : patternMag (ratPattern n d) * d = patternMag q * d := by
    unfold ratDist at hdist
    omega
  exact patternMag_injective (Nat.eq_of_mul_eq_mul_right hd hmul)

/-- `RN32` keeps a real with a mantissa of 24 bits and an exponent in range. -/
theorem f32Val_roundRat_exact (neg : Bool) {m k : Nat} (hd : 0 < d) (hm : m ≤ 2 ^ 24) (hk : 1 ≤ k)
    (hk' : k ≤ 253) (h : m * 2 ^ k * d = n * 2 ^ unitBits) :
    f32Val (roundRat neg n d) = .fin neg (m * 2 ^ k) := by
  have hlt : m * 2 ^ k < 2 ^ 278 :=
    calc m * 2 ^ k ≤ 2 ^ 24 * 2 ^ k := Nat.mul_le_mul_right _ hm
      _ = 2 ^ (24 + k) := (Nat.pow_add 2 24 k).symm
      _ < 2 ^ 278 := by
        gcongr
        · decide
        · omega
  obtain ⟨q, hq, hmag⟩ := exists_patternMag hm hk hlt
  rw [roundRat_eq, ratPattern_of_exact hd hq (hmag ▸ h), f32Val_signed32 neg hq, hmag]

/-- `RN32` moves a real up to `2^(24+k)` units by at most half of `2^k` units. -/
theorem ratDist_le_half_step {k : Nat} (hd : 0 < d) (hk : 1 ≤ k) (hk' : k ≤ 253)
    (h : n * 2 ^ unitBits ≤ 2 ^ (24 + k) * d) :
    2 * ratDist n d (ratPattern n d) ≤ 2 ^ k * d := by
  have hrange : 2 ^ (24 + k) < 2 ^ 278 := by
    gcongr
    · decide
    · omega
  have hg : 0 < 2 ^ k * d := by positivity
  have hpow : 2 ^ (24 + k) * d = 2 ^ 24 * (2 ^ k * d) := by rw [Nat.pow_add, Nat.mul_assoc]
  have htop : 2 ^ (24 + k) * d < patternMag infPattern * d := by
    rw [patternMag_infPattern]
    exact Nat.mul_lt_mul_of_pos_right hrange hd
  obtain ⟨m, hm, hnear⟩ : ∃ m ≤ 2 ^ 24,
      2 * ((m * (2 ^ k * d) : Nat) - (n * 2 ^ unitBits : Nat) : Int).natAbs ≤ 2 ^ k * d := by
    rw [hpow] at h
    generalize n * 2 ^ unitBits = N at *
    generalize 2 ^ k * d = g at *
    refine ⟨(2 * N + g) / (2 * g), ?_, ?_⟩
    · rw [← Nat.lt_succ_iff, Nat.div_lt_iff_lt_mul (by omega)]
      omega
    · have hdiv := Nat.div_add_mod (2 * N + g) (2 * g)
      have hmod := Nat.mod_lt (2 * N + g) (show 0 < 2 * g by omega)
      have hassoc := Nat.mul_assoc 2 g ((2 * N + g) / (2 * g))
      rw [Nat.mul_comm _ g]
      omega
  obtain ⟨q, -, hq⟩ := exists_patternMag hm hk (by
    calc m * 2 ^ k ≤ 2 ^ 24 * 2 ^ k := Nat.mul_le_mul_right _ hm
      _ = 2 ^ (24 + k) := (Nat.pow_add 2 24 k).symm
      _ < 2 ^ 278 := hrange)
  have hdist := (ratPattern_nearest hd (h.trans_lt htop) q).1
  have hgrid : ratDist n d q =
      ((m * (2 ^ k * d) : Nat) - (n * 2 ^ unitBits : Nat) : Int).natAbs := by
    rw [ratDist, hq, Nat.mul_assoc]
  omega

end
end Sys2Proof
end

section
/-! SUPPORT. Integer and normalized formats: what they load and store, and the round trip of a raw
value through binary32 (46_format_converters.md R283–R288). -/

namespace Sys2Proof

/-! ## Sign extension and integer formats -/

/-- A sign extension lies in the signed range and keeps the bits. -/
theorem sext_spec {bits e : Nat} (hbits : 0 < bits) (he : e < 2 ^ bits) :
    -2 ^ (bits - 1) ≤ sext bits e ∧ sext bits e < 2 ^ (bits - 1) ∧
      sext bits e % 2 ^ bits = e := by
  obtain ⟨b, rfl⟩ := Nat.exists_eq_succ_of_ne_zero (Nat.ne_of_gt hbits)
  have hsext : sext (b + 1) e = if e < 2 ^ b then (e : Int) else e - 2 ^ (b + 1) := rfl
  have hmod : sext (b + 1) e % 2 ^ (b + 1) = e := by
    have hself : (e : Int) % 2 ^ (b + 1) = e := by exact_mod_cast Nat.mod_eq_of_lt he
    rw [hsext]
    split
    · exact hself
    · rw [Int.sub_emod_right, hself]
  refine ⟨?_, ?_, hmod⟩ <;>
  · rw [hsext, Nat.succ_sub_one]
    zify [pow_succ] at he ⊢
    split <;> omega

/-- A narrow element loads as its extension (R283). -/
theorem toInt_loadInt {ext : IntExt} {bits e : Nat} (hbits : 0 < bits) (hlt : bits < 32)
    (he : e < 2 ^ bits) :
    (loadInt ext bits e).toInt = if ext = .sign then sext bits e else e := by
  have hpow : (2 : Int) ^ (bits - 1) ≤ 2 ^ 31 := pow_le_pow_right₀ (by decide) (by omega)
  have hpow' : 2 ^ bits ≤ 2 ^ 31 := Nat.pow_le_pow_right (by decide) (by omega)
  cases ext with
  | sign =>
    obtain ⟨hlo, hhi, -⟩ := sext_spec hbits he
    exact BitVec.toInt_ofInt_eq_self (by decide) (by omega) (by omega)
  | zero =>
    have hofNat : loadInt .zero bits e = BitVec.ofInt 32 e := (BitVec.ofInt_natCast 32 e).symm
    rw [hofNat]
    exact BitVec.toInt_ofInt_eq_self (by decide) (by omega) (by omega)

/-- A 32-bit element is its own extension. -/
theorem toNat_loadInt_word {ext : IntExt} {e : Nat} (he : e < 2 ^ 32) :
    (loadInt ext 32 e).toNat = e := by
  cases ext with
  | sign =>
    have hmod := (sext_spec (bits := 32) (by decide) he).2.2
    rw [loadInt, BitVec.toNat_ofInt, Nat.cast_pow, Nat.cast_ofNat, hmod, Int.toNat_natCast]
  | zero => exact Nat.mod_eq_of_lt he

/-- Settles O51: the extensions of the narrow formats and of the word; a store is its definition. -/
theorem integerFormatsExtendAndTruncate : Obligations.IntegerFormatsExtendAndTruncate :=
  fun _ x _ _ _ => ⟨toInt_loadInt (by decide) (by decide), toInt_loadInt (by decide) (by decide),
    toNat_loadInt_word, rfl, rfl, Nat.mod_eq_of_lt x.isLt⟩

/-! ## The round trip through binary32 -/

/-- The magnitude of `RN32(t / S)`, as a normalized load gives it (R286). -/
def quotientMag (S t : Nat) : Nat :=
  patternMag (ratPattern t S)

/-- The magnitude of `RN32(RN32(t / S) · S)`, as a normalized store then forms it (R287). -/
def productMag (S t : Nat) : Nat :=
  patternMag (ratPattern (quotientMag S t * S) (2 ^ unitBits))

theorem normWidth_bounds : ∀ s ∈ [7, 8, 15, 16], 1 ≤ s ∧ s ≤ 16 := by decide

/-- The powers of two come back exactly. Binary32 is finer just below them than above, so the bound
that serves every other raw value is too weak for them, and these few are evaluated. -/
theorem productMag_two_pow : ∀ s ∈ [7, 8, 15, 16], productMag (2 ^ s - 1) 0 = 0 ∧
    ∀ k ≤ s, productMag (2 ^ s - 1) (2 ^ k) = 2 ^ k * 2 ^ unitBits := by decide +kernel

theorem ratDist_unit (n q : Nat) :
    ratDist n (2 ^ unitBits) q = ((patternMag q : Int) - n).natAbs * 2 ^ unitBits := by
  rw [ratDist]
  push_cast
  rw [← Int.sub_mul, Int.natAbs_mul]
  congr 1

/-- Rounding a magnitude picks a nearest pattern. -/
theorem ratPattern_unit_nearest {n : Nat} (h : n < patternMag infPattern) (q : Nat) :
    ((patternMag (ratPattern n (2 ^ unitBits)) : Int) - n).natAbs ≤
      ((patternMag q : Int) - n).natAbs := by
  have hdist := (ratPattern_nearest (by positivity)
    (Nat.mul_lt_mul_of_pos_right h (show 0 < 2 ^ unitBits by positivity)) q).1
  rw [ratDist_unit, ratDist_unit] at hdist
  exact Nat.le_of_mul_le_mul_right hdist (by positivity)

section
variable {S t a k : Nat}

/-- The quotient's rounding error, scaled back: half a step of binary32 at the raw value. -/
theorem quotientMag_near (hk : k + 1 + a ≤ 16) (hS : S < 2 ^ (k + 1 + a)) (hpos : 0 < S)
    (ht : t * 2 ^ a ≤ S) :
    ((quotientMag S t * S : Nat) - (t * 2 ^ unitBits : Nat) : Int).natAbs < 2 ^ (126 + k) := by
  have hfit : t * 2 ^ unitBits ≤ 2 ^ (24 + (126 - a)) * S := by
    have hsplit : 2 ^ unitBits = 2 ^ a * 2 ^ (24 + (126 - a)) := by
      rw [← Nat.pow_add, unitBits]
      congr 1
      omega
    rw [hsplit, ← Nat.mul_assoc, Nat.mul_comm (2 ^ (24 + (126 - a)))]
    exact Nat.mul_le_mul_right _ ht
  have herr : 2 * ratDist t S (ratPattern t S) ≤ 2 ^ (126 - a) * S :=
    ratDist_le_half_step hpos (by omega) (by omega) hfit
  have hstep : 2 ^ (126 - a) * S < 2 ^ (126 - a) * 2 ^ (k + 1 + a) :=
    Nat.mul_lt_mul_of_pos_left hS (by positivity)
  have hpow : 2 ^ (126 - a) * 2 ^ (k + 1 + a) = 2 * 2 ^ (126 + k) := by
    rw [← Nat.pow_add, ← Nat.pow_succ']
    congr 1
    omega
  rw [quotientMag, ← ratDist]
  omega

/-- The raw value is itself a binary32 value, so the product is rounded no further from it. -/
theorem productMag_near (hk : k ≤ 23) (ht : t ≤ 2 ^ 24)
    (h : ((quotientMag S t * S : Nat) - (t * 2 ^ unitBits : Nat) : Int).natAbs < 2 ^ (126 + k)) :
    ((productMag S t : Int) - (t * 2 ^ unitBits : Nat)).natAbs < 2 ^ (127 + k) := by
  have hpow : 2 ^ (127 + k) = 2 * 2 ^ (126 + k) := by rw [← Nat.pow_succ']; congr 1; omega
  have hk' : 2 ^ (126 + k) ≤ 2 ^ 149 := Nat.pow_le_pow_right (by decide) (by omega)
  obtain ⟨q, -, hq⟩ := exists_patternMag (m := t) (k := unitBits) ht (by decide) (by
    rw [unitBits]
    omega)
  have hnear := ratPattern_unit_nearest (n := quotientMag S t * S) (by
    rw [patternMag_infPattern]
    rw [unitBits] at h
    omega) q
  rw [hq, ← productMag] at hnear
  omega

/-- Between two powers of two a raw value that came back below itself would be off by a whole step
of binary32. -/
theorem productMag_div_of_near (hk : k ≤ 23) (hlow : 2 ^ k < t)
    (h : ((productMag S t : Int) - (t * 2 ^ unitBits : Nat)).natAbs < 2 ^ (127 + k)) :
    productMag S t / 2 ^ unitBits = t := by
  have hstep : 2 ^ (127 + k) ≤ 2 ^ unitBits :=
    Nat.pow_le_pow_right (by decide) (by rw [unitBits]; omega)
  have hscale : 2 ^ k * 2 ^ unitBits + 2 ^ unitBits ≤ t * 2 ^ unitBits := by
    rw [← Nat.succ_mul]
    exact Nat.mul_le_mul_right _ hlow
  have hpow : 2 ^ (23 + (127 + k)) = 2 ^ k * 2 ^ unitBits := by
    rw [← Nat.pow_add, unitBits]
    congr 1
    omega
  have hge : t * 2 ^ unitBits ≤ productMag S t := by
    by_contra hlt
    have hdvd : 2 ^ (127 + k) ∣ productMag S t := two_pow_dvd_patternMag (by
      rw [← productMag]
      omega)
    have hdvd' : 2 ^ (127 + k) ∣ t * 2 ^ unitBits :=
      (Nat.pow_dvd_pow 2 (by rw [unitBits]; omega)).mul_left t
    have := Nat.le_of_dvd (by omega) (Nat.dvd_sub hdvd' hdvd)
    omega
  rw [Nat.div_eq_iff (by positivity)]
  omega

end

/-- Every raw magnitude of a normalized format survives the division and the multiplication by its
scale, up to the magnitude one past the scale. -/
theorem productMag_div {s t : Nat} (hs : s ∈ [7, 8, 15, 16]) (ht : t ≤ 2 ^ s) :
    productMag (2 ^ s - 1) t / 2 ^ unitBits = t := by
  have hs' := normWidth_bounds s hs
  obtain ⟨hzero, hpowers⟩ := productMag_two_pow s hs
  rcases Nat.eq_zero_or_pos t with rfl | hpos
  · rw [hzero, Nat.zero_div]
  obtain ⟨k, hlow, hhigh⟩ : ∃ k, 2 ^ k ≤ t ∧ t < 2 ^ (k + 1) :=
    ⟨t.log2, Nat.log2_self_le hpos.ne', Nat.lt_log2_self⟩
  rcases Nat.eq_or_lt_of_le hlow with rfl | hlow
  · rw [hpowers k ((Nat.pow_le_pow_iff_right (by decide)).mp ht),
      Nat.mul_div_cancel _ (by positivity)]
  have hks : k < s := (Nat.pow_lt_pow_iff_right (by decide)).mp (hlow.trans_le ht)
  have hspare : t * 2 ^ (s - (k + 1)) ≤ 2 ^ s - 1 := by
    have hmul : (t + 1) * 2 ^ (s - (k + 1)) ≤ 2 ^ (k + 1) * 2 ^ (s - (k + 1)) :=
      Nat.mul_le_mul_right _ hhigh
    rw [← Nat.pow_add, Nat.add_sub_cancel' hks, Nat.succ_mul] at hmul
    have := Nat.two_pow_pos (s - (k + 1))
    omega
  have hnear : ((quotientMag (2 ^ s - 1) t * (2 ^ s - 1) : Nat) -
      (t * 2 ^ unitBits : Nat) : Int).natAbs < 2 ^ (126 + k) := by
    have hwidth : k + 1 + (s - (k + 1)) = s := by omega
    have hpos : 1 < 2 ^ s := Nat.one_lt_two_pow (by omega)
    exact quotientMag_near (a := s - (k + 1)) (by omega) (by rw [hwidth]; omega) (by omega) hspare
  exact productMag_div_of_near (by omega) hlow (productMag_near (by omega)
    (ht.trans (Nat.pow_le_pow_right (by decide) (by omega))) hnear)

/-! ## Normalized formats -/

/-- The raw value of a channel's bits, as the load reads them (R286). -/
def NormKind.raw (n : NormKind) (e : Nat) : Int :=
  if n.isSigned then sext n.bits e else e

theorem loadNorm_eq (n : NormKind) (e : Nat) :
    loadNorm n e = roundRat (n.raw e < 0) (n.raw e).natAbs n.scale := rfl

theorem loadNorm_unsigned {n : NormKind} (h : n.isSigned = false) (e : Nat) :
    loadNorm n e = roundRat false e n.scale := by
  have hneg : ¬ (e : Int) < 0 := by omega
  simp [loadNorm_eq, NormKind.raw, h, hneg]

/-- A raw value lies in its channel's range and keeps the channel's bits (R285). -/
theorem raw_spec {n : NormKind} {e : Nat} (hbits : 0 < n.bits) (he : e < 2 ^ n.bits) :
    n.lo ≤ n.raw e ∧ n.raw e ≤ n.hi ∧ n.raw e % 2 ^ n.bits = e := by
  unfold NormKind.lo NormKind.hi NormKind.raw
  cases n.isSigned with
  | true =>
    obtain ⟨hlo, hhi, hmod⟩ := sext_spec hbits he
    exact ⟨hlo, Int.le_sub_one_of_lt hhi, hmod⟩
  | false =>
    have he' : (e : Int) < 2 ^ n.bits := by exact_mod_cast he
    exact ⟨Int.natCast_nonneg e, Int.le_sub_one_of_lt he',
      Int.emod_eq_of_lt (Int.natCast_nonneg e) he'⟩

section
variable {S T : Nat}

theorem f32Val_quotient (neg : Bool) (hS : 0 < S) (hT : T ≤ 2 * S) :
    f32Val (roundRat neg T S) = .fin neg (quotientMag S T) :=
  f32Val_roundRat neg (by omega)

/-- The product of a quotient and its scale stays far below the overflow of `RN32`. -/
theorem f32Val_product (neg : Bool) (hS : 0 < S) (hS' : S < 2 ^ 16) (hT : T ≤ 2 * S) :
    f32Val (roundRat neg (quotientMag S T * S) (2 ^ unitBits)) = .fin neg (productMag S T) := by
  refine f32Val_roundRat neg ?_
  have herr : 2 * ratDist T S (ratPattern T S) ≤ 2 ^ 127 * S :=
    ratDist_le_half_step hS (by decide) (by decide) (by rw [unitBits]; omega)
  rw [ratDist, ← quotientMag] at herr
  rw [unitBits] at herr ⊢
  omega

end

/-- A product whose whole part is the raw magnitude truncates to the raw value (R287). -/
theorem truncVal_eq {n : NormKind} {mag : Nat} {t : Int} (h : mag / 2 ^ unitBits = t.natAbs) :
    truncVal n (.fin (t < 0) mag) = t := by
  simp only [truncVal, h, decide_eq_true_eq]
  split <;> omega

/-- A raw value that the two roundings keep is stored again (R287). -/
theorem storeNorm_loadNorm {n : NormKind} {e s : Nat} (hs : s ∈ [7, 8, 15, 16])
    (hscale : n.scale = 2 ^ s - 1) (hbits : 0 < n.bits) (he : e < 2 ^ n.bits)
    (hn : -2 ^ s ≤ n.lo ∧ n.hi ≤ 2 ^ s) : storeNorm n (loadNorm n e) = e := by
  obtain ⟨hlo, hhi, hmod⟩ := raw_spec hbits he
  obtain ⟨hone, hsixteen⟩ := normWidth_bounds s hs
  have hbelow : 2 ^ s ≤ 2 ^ 16 := Nat.pow_le_pow_right (by decide) hsixteen
  have habove : 2 ^ 1 ≤ 2 ^ s := Nat.pow_le_pow_right (by decide) hone
  have habs : (n.raw e).natAbs ≤ 2 ^ s := by
    zify
    exact abs_le.mpr ⟨hn.1.trans hlo, hhi.trans hn.2⟩
  have hload :
      f32Val (loadNorm n e) = .fin (n.raw e < 0) (quotientMag n.scale (n.raw e).natAbs) := by
    rw [loadNorm_eq]
    exact f32Val_quotient _ (by omega) (by omega)
  have htrunc := truncVal_eq (n := n) (productMag_div hs habs)
  rw [← hscale] at htrunc
  unfold storeNorm
  simp only [hload]
  rw [f32Val_product _ (by omega) (by omega) (by omega), htrunc, min_eq_right hhi,
    max_eq_right hlo, hmod, Int.toNat_natCast]

/-- Settles O49: each format's scale is one less than a power of two that bounds its raw values. -/
theorem normsSurviveLoadThenStore : Obligations.NormsSurviveLoadThenStore := by
  intro n hn e he
  simp only [List.mem_cons, List.not_mem_nil, or_false] at hn
  obtain rfl | rfl | rfl | rfl := hn
  · exact storeNorm_loadNorm (s := 8) (by decide) rfl (by decide) he (by decide)
  · exact storeNorm_loadNorm (s := 7) (by decide) rfl (by decide) he (by decide)
  · exact storeNorm_loadNorm (s := 16) (by decide) rfl (by decide) he (by decide)
  · exact storeNorm_loadNorm (s := 15) (by decide) rfl (by decide) he (by decide)

/-- Settles O48: the ends of the raw range, by evaluation. -/
theorem normBoundaryValues : Obligations.NormBoundaryValues := by
  unfold Obligations.NormBoundaryValues
  decide +kernel

end Sys2Proof
end

section
/-! SUPPORT. Packed words: a store writes one channel and keeps the others, and the float channels
load exactly (46_format_converters.md R289–R297, R302, R303). -/

namespace Sys2Proof

/-! ## Channels of a word -/

/-- A bit of a word after a channel was replaced (R291). -/
theorem testBit_setChannel (w lo width f i : Nat) :
    (setChannel w lo width f).testBit i =
      if lo ≤ i ∧ i < lo + width then f.testBit (i - lo) else w.testBit i := by
  have hlow : w % 2 ^ lo < 2 ^ lo := Nat.mod_lt _ (Nat.two_pow_pos _)
  have hmid : 2 ^ lo * (f % 2 ^ width) + w % 2 ^ lo < 2 ^ (lo + width) := by
    have hf : 2 ^ lo * (f % 2 ^ width + 1) ≤ 2 ^ lo * 2 ^ width :=
      Nat.mul_le_mul_left _ (Nat.mod_lt _ (Nat.two_pow_pos _))
    rw [Nat.mul_succ] at hf
    rw [Nat.pow_add]
    omega
  rw [setChannel, Nat.add_assoc, Nat.mul_comm, Nat.mul_comm (f % _),
    Nat.testBit_two_pow_mul_add _ hmid, Nat.testBit_two_pow_mul_add _ hlow,
    Nat.testBit_div_two_pow, Nat.testBit_mod_two_pow, Nat.testBit_mod_two_pow]
  rcases Nat.lt_or_ge i lo with hlo | hlo
  · simp [hlo, Nat.lt_add_right width hlo]
  · rcases Nat.lt_or_ge i (lo + width) with hhi | hhi
    · have hin : i - lo < width := by omega
      simp [hlo, hhi, hin]
    · simp [Nat.not_lt.mpr hhi, Nat.sub_add_cancel hhi]

theorem setChannel_lt {w lo width n : Nat} (f : Nat) (hw : w < 2 ^ n) (hin : lo + width ≤ n) :
    setChannel w lo width f < 2 ^ n := by
  refine Nat.lt_pow_two_of_testBit _ fun i hi => ?_
  rw [testBit_setChannel, if_neg (by omega)]
  exact Nat.testBit_lt_two_pow (hw.trans_le (Nat.pow_le_pow_right (by decide) hi))

/-- The replaced channel holds the value written (R291). -/
theorem channelBits_setChannel_same (w lo : Nat) {width f : Nat} (hf : f < 2 ^ width) :
    channelBits (setChannel w lo width f) lo width = f := by
  rw [← Nat.mod_eq_of_lt hf]
  refine Nat.eq_of_testBit_eq fun i => ?_
  rw [channelBits, Nat.testBit_mod_two_pow, Nat.testBit_div_two_pow, testBit_setChannel,
    Nat.testBit_mod_two_pow]
  by_cases hi : i < width
  · rw [if_pos (by omega)]
    simp [hi]
  · simp [hi]

/-- A channel that does not meet the replaced one is kept (R291). -/
theorem channelBits_setChannel_disjoint (w : Nat) {lo width lo' width' : Nat} (f : Nat)
    (h : lo + width ≤ lo' ∨ lo' + width' ≤ lo) :
    channelBits (setChannel w lo width f) lo' width' = channelBits w lo' width' := by
  refine Nat.eq_of_testBit_eq fun i => ?_
  simp only [channelBits, Nat.testBit_mod_two_pow, Nat.testBit_div_two_pow, testBit_setChannel]
  by_cases hi : i < width'
  · rw [if_neg (by omega)]
  · simp [hi]

/-! ## RGB10A2 -/

/-- A normalized store fits its channel (R287). -/
theorem storeNorm_lt (n : NormKind) (x : Word32) : storeNorm n x < 2 ^ n.bits := by
  have hpos : (0 : Int) < 2 ^ n.bits := by positivity
  have hpow : ((2 : Int) ^ n.bits).toNat = 2 ^ n.bits := by norm_cast
  rw [← hpow]
  exact (Int.toNat_lt_toNat hpos).mpr (Int.emod_lt_of_pos _ hpos)

/-- Settles O52: both channel kinds are unsigned, so the load is the rounded quotient. -/
theorem rgb10a2LoadsItsChannels : Obligations.Rgb10a2LoadsItsChannels := by
  intro P w j
  refine ⟨fun hj => ?_, loadNorm_unsigned rfl _⟩
  have hchannel : rgb10a2Channel j = ⟨10, false, 1023⟩ := if_neg (by omega)
  have hload : loadElement P .rgb10a2 w j =
    loadNorm (rgb10a2Channel j) (channelBits w (10 * j) (rgb10a2Channel j).bits) := rfl
  rw [hload, hchannel]
  exact loadNorm_unsigned rfl _

/-- Settles O53: the channels do not meet and end at bit 32. -/
theorem rgb10a2StoreWritesOneChannel : Obligations.Rgb10a2StoreWritesOneChannel := by
  intro x j old hj hold
  have hwidth : ∀ i, (rgb10a2Channel i).bits = if i = 3 then 2 else 10 := fun i => by
    unfold rgb10a2Channel
    split <;> rfl
  refine ⟨setChannel_lt _ hold ?_, channelBits_setChannel_same _ _ (storeNorm_lt _ _),
    fun i hi hne => channelBits_setChannel_disjoint _ _ ?_⟩
  · rw [hwidth]
    split <;> omega
  · rw [hwidth, hwidth]
    split <;> split <;> omega

/-! ## RG11B10F -/

/-- Settles O55: the channels do not meet, end at bit 32, and are as wide as the encodings. -/
theorem rg11b10fStoreWritesOneChannel : Obligations.Rg11b10fStoreWritesOneChannel := by
  intro x j old hj hold
  have hwidth : ∀ i, minifloatMantissa i + 5 = if i = 2 then 10 else 11 := fun i => by
    unfold minifloatMantissa
    split <;> rfl
  refine ⟨setChannel_lt _ hold ?_, channelBits_setChannel_same _ _ ?_,
    fun i hi hne => channelBits_setChannel_disjoint _ _ ?_⟩
  · rw [hwidth]
    split <;> omega
  · rw [hwidth]
    split
    · exact (Config.mfEnc5 x).isLt
    · exact (Config.mfEnc6 x).isLt
  · rw [hwidth, hwidth]
    split <;> split <;> omega

section
variable {M f : Nat}

/-- A channel with exponent 0 loads exactly (R293). -/
theorem loadMinifloat_subnormal (hM : M ≤ 24) (h : f / 2 ^ M = 0) :
    f32Val (loadMinifloat M f) = .fin false (f % 2 ^ M * 2 ^ (136 - M)) := by
  have hm : f % 2 ^ M ≤ 2 ^ 24 :=
    (Nat.mod_lt _ (Nat.two_pow_pos _)).le.trans (Nat.pow_le_pow_right (by decide) hM)
  have hscale : 2 ^ (136 - M) * 2 ^ (M + 14) = 2 ^ unitBits := by
    rw [← Nat.pow_add, unitBits]
    congr 1
    omega
  simp only [loadMinifloat, h]
  exact f32Val_roundRat_exact false (by positivity) hm (by omega) (by omega)
    (by rw [Nat.mul_assoc, hscale])

/-- The rounding a normal channel stands for (R293). -/
theorem loadMinifloat_eq_roundRat (h : 0 < f / 2 ^ M) (h' : f / 2 ^ M < 31) :
    loadMinifloat M f =
      roundRat false ((2 ^ M + f % 2 ^ M) * 2 ^ (f / 2 ^ M)) (2 ^ (M + 15)) := by
  simp only [loadMinifloat, if_neg h'.ne, if_neg h.ne']

/-- A normal channel loads exactly (R293). -/
theorem loadMinifloat_normal (hM : M < 24) (h : 0 < f / 2 ^ M) (h' : f / 2 ^ M < 31) :
    f32Val (loadMinifloat M f) =
      .fin false ((2 ^ M + f % 2 ^ M) * 2 ^ (f / 2 ^ M + 135 - M)) := by
  have hk : 1 ≤ f / 2 ^ M + 135 - M ∧ f / 2 ^ M + 135 - M ≤ 253 := by omega
  have hscale : 2 ^ (f / 2 ^ M + 135 - M) * 2 ^ (M + 15) = 2 ^ (f / 2 ^ M) * 2 ^ unitBits := by
    rw [← Nat.pow_add, ← Nat.pow_add, unitBits]
    congr 1
    omega
  have hm : 2 ^ M + f % 2 ^ M ≤ 2 ^ 24 := by
    have hmant := Nat.mod_lt f (Nat.two_pow_pos M)
    have hpow : 2 ^ (M + 1) ≤ 2 ^ 24 := Nat.pow_le_pow_right (by decide) hM
    rw [Nat.pow_succ] at hpow
    clear hscale
    omega
  rw [loadMinifloat_eq_roundRat h h']
  exact f32Val_roundRat_exact false (by positivity) hm hk.1 hk.2
    (by rw [Nat.mul_assoc, hscale, Nat.mul_assoc])

/-- Exponent 31 loads as `+inf` or the quiet NaN (R293). -/
theorem loadMinifloat_special (h : f / 2 ^ M = 31) :
    loadMinifloat M f = if f % 2 ^ M = 0 then 0x7F800000 else 0x7FC00000 := by
  simp [loadMinifloat, h, infPattern, qnan]

end

/-- The exponent of a minifloat channel of a word (R292). -/
theorem channelBits_exponent (w lo M : Nat) :
    channelBits w lo (M + 5) / 2 ^ M = w / 2 ^ (lo + M) % 2 ^ 5 := by
  rw [channelBits, Nat.pow_add, Nat.mod_mul_right_div_self, Nat.div_div_eq_div_mul, ← Nat.pow_add]

/-- The mantissa of a minifloat channel of a word (R292). -/
theorem channelBits_mantissa (w lo M : Nat) :
    channelBits w lo (M + 5) % 2 ^ M = w / 2 ^ lo % 2 ^ M := by
  rw [channelBits, Nat.pow_add, Nat.mod_mul_right_mod]

/-! ## RGB9E5 -/

/-- An RGB9E5 load is exact (R297). -/
theorem f32Val_loadRgb9e5 (w j : Nat) :
    f32Val (loadRgb9e5 w j) =
      .fin false (channelBits w (9 * j) 9 * 2 ^ (126 + channelBits w 27 5)) := by
  have hm : channelBits w (9 * j) 9 < 2 ^ 9 := Nat.mod_lt _ (by decide)
  have hE : channelBits w 27 5 < 2 ^ 5 := Nat.mod_lt _ (by decide)
  refine f32Val_roundRat_exact false (by decide) (by omega) (by omega) (by omega) ?_
  rw [unitBits]
  ring

/-- Settles O54: the channel's field splits into exponent and mantissa. -/
theorem floatChannelLoadsAreExact : Obligations.FloatChannelLoadsAreExact := by
  refine ⟨fun P w j _ => ?_, fun P w j _ => f32Val_loadRgb9e5 w j⟩
  have hM : minifloatMantissa j < 24 := by
    unfold minifloatMantissa
    split <;> decide
  have hload : loadElement P .rg11b10f w j = loadMinifloat (minifloatMantissa j)
    (channelBits w (11 * j) (minifloatMantissa j + 5)) := rfl
  rw [hload]
  intro M E m
  have hE : channelBits w (11 * j) (minifloatMantissa j + 5) / 2 ^ minifloatMantissa j = E :=
    channelBits_exponent w (11 * j) (minifloatMantissa j)
  have hm : channelBits w (11 * j) (minifloatMantissa j + 5) % 2 ^ minifloatMantissa j = m :=
    channelBits_mantissa w (11 * j) (minifloatMantissa j)
  rw [← hE, ← hm]
  exact ⟨loadMinifloat_subnormal hM.le, loadMinifloat_normal hM, loadMinifloat_special⟩

/-! ## SRGBA8 -/

/-- Settles O57: the end points by evaluation, the same for the three colour channels. -/
theorem srgbAlphaBypassesGamma : Obligations.SrgbAlphaBypassesGamma :=
  ⟨fun _ _ _ _ => ⟨rfl, rfl⟩, by decide +kernel⟩

end Sys2Proof
end

section
/-! SUPPORT. RGB9E5: the shared exponent fits its field, every mantissa fits its channel, and the
rounding to a mantissa moves a channel by at most half a step (46_format_converters.md
R296–R300). -/

namespace Sys2Proof

/-! ## The shared exponent -/

/-- The preliminary exponent leaves room for the greatest channel (R298). -/
theorem lt_two_pow_exponent9e5 (maxc : Nat) : maxc < 2 ^ (135 + exponent9e5 maxc) := by
  unfold exponent9e5
  split
  · next h => rw [h]; positivity
  · calc maxc < 2 ^ (maxc.log2 + 1) := Nat.lt_log2_self
      _ ≤ _ := Nat.pow_le_pow_right (by decide) (by rw [unitBits]; omega)

/-- `MAXV` is below `2^16`, so the preliminary exponent fits 5 bits (R298). -/
theorem exponent9e5_le {maxc : Nat} (h : maxc ≤ 65408 * 2 ^ unitBits) : exponent9e5 maxc ≤ 31 := by
  unfold exponent9e5
  split
  · exact Nat.zero_le _
  · next hne =>
    have hlog : maxc.log2 < 166 := (Nat.log2_lt hne).mpr (by rw [unitBits] at h; omega)
    rw [unitBits]
    omega

theorem quantize9e5_eq (c E : Nat) :
    quantize9e5 c E = (c + 2 ^ (125 + E)) / (2 * 2 ^ (125 + E)) := by
  rw [quantize9e5, unitBits, ← Nat.pow_succ']
  congr 2
  omega

theorem quantize9e5_mono {c c' : Nat} (h : c ≤ c') (E : Nat) :
    quantize9e5 c E ≤ quantize9e5 c' E :=
  Nat.div_le_div_right (Nat.add_le_add_right h _)

/-- Under an exponent that leaves room for the channel its mantissa is at most `2^9`, which is one
too many for its field (R298). -/
theorem quantize9e5_le {c E : Nat} (h : c < 2 ^ (135 + E)) : quantize9e5 c E ≤ 512 := by
  have hpow : 2 ^ (135 + E) = 2 ^ 10 * 2 ^ (125 + E) := by rw [← Nat.pow_add]; congr 1; omega
  rw [quantize9e5_eq, ← Nat.lt_succ_iff, Nat.div_lt_iff_lt_mul (by positivity)]
  omega

/-- Under the shared exponent every mantissa fits its field: the bump halves one of `2^9` (R298). -/
theorem quantize9e5_sharedExponent_lt {c maxc : Nat} (h : c ≤ maxc) :
    quantize9e5 c (sharedExponent maxc) < 512 := by
  have hmax := lt_two_pow_exponent9e5 maxc
  refine (quantize9e5_mono h _).trans_lt ?_
  unfold sharedExponent
  split
  · have hpow : 2 ^ (135 + exponent9e5 maxc) = 2 ^ 9 * 2 ^ (125 + (exponent9e5 maxc + 1)) := by
      rw [← Nat.pow_add]
      congr 1
      omega
    rw [quantize9e5_eq, Nat.div_lt_iff_lt_mul (by positivity)]
    omega
  · next hne => exact Nat.lt_of_le_of_ne (quantize9e5_le hmax) hne

/-- No channel up to `MAXV` bumps the greatest exponent (R298). -/
theorem sharedExponent_lt {maxc : Nat} (h : maxc ≤ 65408 * 2 ^ unitBits) :
    sharedExponent maxc < 32 := by
  have hle := exponent9e5_le h
  unfold sharedExponent
  split
  · next hbump =>
    have hne : exponent9e5 maxc ≠ 31 := by
      intro htop
      have hsmall : quantize9e5 maxc 31 < 512 := by
        rw [quantize9e5_eq, Nat.div_lt_iff_lt_mul (by positivity)]
        rw [unitBits] at h
        omega
      rw [htop] at hbump
      omega
    omega
  · omega

/-! ## A channel's way through the word -/

/-- A mantissa is the nearest multiple of its exponent's step (R300). -/
theorem quantize9e5_near (c E : Nat) :
    2 * ((quantize9e5 c E * 2 ^ (126 + E) : Nat) - (c : Int)).natAbs ≤ 2 ^ (126 + E) := by
  have hpow : 2 ^ (126 + E) = 2 * 2 ^ (125 + E) := by rw [← Nat.pow_succ']; congr 1; omega
  have hpos : 0 < 2 ^ (125 + E) := by positivity
  rw [quantize9e5_eq, hpow]
  generalize 2 ^ (125 + E) = half at *
  have hdiv := Nat.div_add_mod' (c + half) (2 * half)
  have hmod := Nat.mod_lt (c + half) (show 0 < 2 * half by omega)
  omega

theorem clamp9e5_eq {x : Word32} {m : Nat} (hx : f32Val x = .fin false m)
    (hm : m ≤ 65408 * 2 ^ unitBits) : clamp9e5 x = m := by
  simp [clamp9e5, hx, hm]

/-- A channel that holds a value's mantissa loads within half a step of the value (R300). -/
theorem loadRgb9e5_near {w j c : Nat}
    (hc : channelBits w (9 * j) 9 = quantize9e5 c (channelBits w 27 5)) :
    ∃ v, f32Val (loadRgb9e5 w j) = .fin false v ∧
      2 * ((v : Int) - (c : Int)).natAbs ≤ 2 ^ (126 + channelBits w 27 5) :=
  ⟨_, f32Val_loadRgb9e5 w j, hc ▸ quantize9e5_near c _⟩

/-- The fields of a packed RGB9E5 word read back (R296). -/
theorem channelBits_rgb9e5 {q0 q1 q2 E : Nat} (h0 : q0 < 512) (h1 : q1 < 512) (h2 : q2 < 512)
    (hE : E < 32) :
    let w := q0 + q1 * 2 ^ 9 + q2 * 2 ^ 18 + E * 2 ^ 27
    w / 2 ^ 27 = E ∧ channelBits w 27 5 = E ∧ channelBits w (9 * 0) 9 = q0 ∧
      channelBits w (9 * 1) 9 = q1 ∧ channelBits w (9 * 2) 9 = q2 := by
  simp only [channelBits]
  omega

section
variable {r g b : Word32} {mr mg mb : Nat} (hr : f32Val r = .fin false mr)
  (hg : f32Val g = .fin false mg) (hb : f32Val b = .fin false mb)
  (hmr : mr ≤ 65408 * 2 ^ unitBits) (hmg : mg ≤ 65408 * 2 ^ unitBits)
  (hmb : mb ≤ 65408 * 2 ^ unitBits)
include hr hg hb hmr hmg hmb

/-- The encoded word holds an exponent of 5 bits and each channel's mantissa under it (R298). -/
theorem enc9e5_fields :
    enc9e5 r g b / 2 ^ 27 = channelBits (enc9e5 r g b) 27 5 ∧
      channelBits (enc9e5 r g b) (9 * 0) 9 =
        quantize9e5 mr (channelBits (enc9e5 r g b) 27 5) ∧
      channelBits (enc9e5 r g b) (9 * 1) 9 =
        quantize9e5 mg (channelBits (enc9e5 r g b) 27 5) ∧
      channelBits (enc9e5 r g b) (9 * 2) 9 =
        quantize9e5 mb (channelBits (enc9e5 r g b) 27 5) := by
  have hE := sharedExponent_lt (max_le hmr (max_le hmg hmb))
  obtain ⟨hexp, hfield, hqr, hqg, hqb⟩ := channelBits_rgb9e5
    (quantize9e5_sharedExponent_lt (le_max_left mr (max mg mb)))
    (quantize9e5_sharedExponent_lt ((le_max_left mg mb).trans (le_max_right mr _)))
    (quantize9e5_sharedExponent_lt ((le_max_right mg mb).trans (le_max_right mr _))) hE
  simp only [enc9e5, clamp9e5_eq hr hmr, clamp9e5_eq hg hmg, clamp9e5_eq hb hmb]
  rw [hexp, hfield]
  exact ⟨rfl, hqr, hqg, hqb⟩

end

/-- Settles O56: the fields hold the exponent and the mantissas, each nearest to its channel. -/
theorem rgb9e5QuantizesWithinHalfAStep : Obligations.Rgb9e5QuantizesWithinHalfAStep := by
  intro P r g b mr mg mb hr hg hb hmr hmg hmb w E near
  obtain ⟨hE, hqr, hqg, hqb⟩ := enc9e5_fields hr hg hb hmr hmg hmb
  change E = channelBits w 27 5 at hE
  have hnear : ∀ j c, channelBits w (9 * j) 9 = quantize9e5 c (channelBits w 27 5) → near j c :=
    fun j c hc => by
      obtain ⟨v, hv, hdist⟩ := loadRgb9e5_near hc
      exact ⟨v, hv, by rwa [hE]⟩
  refine ⟨?_, hnear 0 mr hqr, hnear 1 mg hqg, hnear 2 mb hqb⟩
  rw [hE]
  exact Nat.mod_lt _ (by decide)

end Sys2Proof
end

section
/-! SUPPORT. What each instruction that goes on leaves behind, by its kind, and the step loop around
it: fetching, the entry check, and the steps as `run` (47_reference_execution.md R330–R339). -/

namespace Sys2Proof.Machine

/-! ## The instructions by kind -/

/-- `mk` is one of the three Mov forms (43_move.md R211). -/
def IsMov (mk : Operand → Operand → Instr) : Prop :=
  mk = .movHalf ∨ mk = .movShort ∨ mk = .movLong

/-- The three forms have one meaning (47 R334). -/
theorem exec_mov {mk : Operand → Operand → Instr} (hmk : IsMov mk) (dest src : Operand)
    (s : State) : exec (mk dest src) s = toOutcome (moveOp s dest src) := by
  rcases hmk with rfl | rfl | rfl <;> rfl

/-- A Mov that goes on sets one register, the destination's, and advances (47 R334). -/
theorem exec_mov_next {mk : Operand → Operand → Instr} (hmk : IsMov mk) {dest src : Operand}
    {s t : State} (h : exec (mk dest src) s = .next t) :
    ∃ n w, destIndex dest = some n ∧ n < s.x.length ∧ t = advance (setRegister s n w) := by
  rw [exec_mov hmk, toOutcome_eq_next] at h
  exact moveOp_ok h

/-- A Load goes on exactly when its checks hold, and then moves its lanes and advances (47 R336). -/
theorem exec_deviceLoad_next_iff {s t : State} {fc mask : Nat} {reg base off : Operand} :
    exec (.deviceLoad fc mask reg base off) s = .next t ↔
      ∃ tr, resolveTransfer s false fc mask reg off = .ok tr ∧
        t = advance (loadLanes tr (rankedLanes mask) s) :=
  toOutcome_eq_next.trans loadOp_ok_iff

/-- A Store goes on exactly when its checks hold, and then moves its lanes and advances (47 R337). -/
theorem exec_deviceStore_next_iff {s t : State} {fc mask : Nat} {reg base off : Operand} :
    exec (.deviceStore fc mask reg base off) s = .next t ↔
      ∃ tr, resolveTransfer s true fc mask reg off = .ok tr ∧
        t = advance (storeLanes tr (rankedLanes mask) s) :=
  toOutcome_eq_next.trans storeOp_ok_iff

/-- Settles O46. -/
theorem retAndStopEndExecution : Obligations.RetAndStopEndExecution :=
  fun _ _ => ⟨rfl, rfl⟩

/-- Settles O47. -/
theorem waitOnlyAdvances : Obligations.WaitOnlyAdvances :=
  fun _ => rfl

/-- Settles O35: every meaning but Ret's and Stop's ends with the cursor's advance. -/
theorem onlyRetAndStopHalt : Obligations.OnlyRetAndStopHalt := by
  intro i s t h
  cases i with
  | deviceLoad fc mask reg base off =>
    obtain ⟨tr, -, rfl⟩ := exec_deviceLoad_next_iff.mp h
    obtain ⟨-, -, -, -, hk, hhalted, -⟩ := loadLanes_fields tr (rankedLanes mask) s
    simp [hk, hhalted]
  | deviceStore fc mask reg base off =>
    obtain ⟨tr, -, rfl⟩ := exec_deviceStore_next_iff.mp h
    obtain ⟨-, -, -, -, hk, hhalted, -⟩ := storeLanes_fields tr (rankedLanes mask) s
    simp [hk, hhalted]
  | movHalf dest src | movShort dest src | movLong dest src =>
    obtain ⟨n, w, -, -, rfl⟩ := exec_mov_next (by simp [IsMov]) h
    simp
  | ret | stop =>
    cases h
    simp
  | wait =>
    cases h
    simp

/-- Settles O36: a Mov and a Load set registers only, a Store's lanes write the data buffer only. -/
theorem onlyStoreWritesMemory : Obligations.OnlyStoreWritesMemory := by
  intro i s t h
  cases i with
  | deviceLoad fc mask reg base off =>
    obtain ⟨tr, -, rfl⟩ := exec_deviceLoad_next_iff.mp h
    obtain ⟨-, -, -, hmem, -⟩ := loadLanes_fields tr (rankedLanes mask) s
    simp [hmem]
  | deviceStore fc mask reg base off =>
    obtain ⟨tr, -, rfl⟩ := exec_deviceStore_next_iff.mp h
    obtain ⟨-, -, -, hx, -⟩ := storeLanes_fields tr (rankedLanes mask) s
    simp [hx]
  | movHalf dest src | movShort dest src | movLong dest src =>
    obtain ⟨n, w, -, -, rfl⟩ := exec_mov_next (by simp [IsMov]) h
    simp
  | ret | stop | wait =>
    cases h
    simp

/-! ## Fetching -/

/-- The entry check looks at `x[0]` before the first instruction only (47 R331). -/
theorem entryOk_iff {s : State} : entryOk s = true ↔ (s.k = 0 → s.x[0]? = some (some 0)) := by
  simp only [entryOk, Bool.or_eq_true, decide_eq_true_eq]
  exact Decidable.imp_iff_not_or.symm

theorem programList_list {s : State} {L : List Instr} (h : s.program = .list L) :
    programList s = .ok L := by
  simp only [programList, h]

/-- The list of a byte program is the instructions of its whole decode (45_stream_codec.md R262). -/
theorem programList_code {s : State} {B : Buffer} {out : List (Nat × Decoded)}
    (h : s.program = .code B) (hout : disassemble s.params B = .ok out) :
    programList s = .ok (out.map fun e => e.2.instr) := by
  simp only [programList, h, hout]

theorem programList_error {s : State} {B : Buffer} {e : Err} (h : s.program = .code B)
    (he : disassemble s.params B = .error e) : programList s = .error (.decode e) := by
  simp only [programList, h, he]

/-- A running machine's step is `exec` of the instruction at the cursor (47 R332). -/
theorem step_eq_exec {s : State} {L : List Instr} {i : Instr} (hrun : s.halted = false)
    (hL : programList s = .ok L) (hentry : s.k = 0 → s.x[0]? = some (some 0))
    (hi : L[s.k]? = some i) : step s = exec i s := by
  have hfetch : fetch s = .ok i := fetch_ok_iff.mpr ⟨L, hL, entryOk_iff.mpr hentry, hi⟩
  simp [step, hrun, hfetch]

/-- A running machine that cannot fetch stops with the fetch's fault (47 R332). -/
theorem step_eq_fault {s : State} {f : Fault} (hrun : s.halted = false)
    (hf : fetch s = .error f) : step s = .fault f := by
  simp [step, hrun, hf]

/-- A nonzero or valueless `x[0]` fails the entry check (47 R331, log 10). -/
theorem step_zeroRegister {s : State} {L : List Instr} (hrun : s.halted = false)
    (hL : programList s = .ok L) (hk : s.k = 0) (hx : s.x[0]? ≠ some (some 0)) :
    step s = .fault .zeroRegister := by
  have hentry : ¬entryOk s = true := fun h => hx (entryOk_iff.mp h hk)
  exact step_eq_fault hrun (by simp [fetch, hL, hentry])

/-- A cursor at or past the end of the list fetches nothing (47 R332). -/
theorem step_endOfProgram {s : State} {L : List Instr} (hrun : s.halted = false)
    (hL : programList s = .ok L) (hentry : s.k = 0 → s.x[0]? = some (some 0))
    (hk : L.length ≤ s.k) : step s = .fault .endOfProgram :=
  step_eq_fault hrun
    (by simp [fetch, hL, entryOk_iff.mpr hentry, List.getElem?_eq_none hk])

/-- Settles O29. -/
theorem haltedMachinesStay : Obligations.HaltedMachinesStay :=
  fun _ h => step_next_iff.mpr (.inl ⟨h, rfl⟩)

/-- Settles O28: the three ways a fetch fails, in their order. -/
theorem stepFaultsBeforeRunning : Obligations.StepFaultsBeforeRunning := by
  intro s hrun
  refine ⟨fun B e hB he => step_eq_fault hrun ?_, fun L hL => step_zeroRegister hrun hL,
    fun L hL => step_endOfProgram hrun hL⟩
  simp [fetch, programList_error hB he]

/-- Settles O27. -/
theorem stepRunsTheListedInstruction : Obligations.StepRunsTheListedInstruction :=
  fun _ _ _ hrun hL hentry hi => step_eq_exec hrun (programList_list hL) hentry hi

/-- Settles O26: the entry at the cursor is a decode step of the buffer, and its instruction is the
list's item there. -/
theorem stepRunsTheDecodedInstruction : Obligations.StepRunsTheDecodedInstruction := by
  intro s B out c d hrun hB hout hentry hd
  have hat : unpackAt s.params B c = .ok (d, d.span.length) :=
    unpackAt_of_mem_disassemble hout (List.mem_of_getElem? hd)
  obtain ⟨hwf, -⟩ := decodedInstructionsAreWellFormed _ _ _ _ _ hat
  exact ⟨hat, hwf, step_eq_exec hrun (programList_code hB hout) hentry (by simp [hd])⟩

/-! ## The steps as `run` -/

section
variable {M : Host.Core} {s t : M.State}

theorem run_of_next (h : M.step s = .next t) (n : Nat) : M.run (n + 1) s = M.run n t := by
  simp only [Host.Core.run, h]

theorem run_of_fault {f : M.Fault} (h : M.step s = .fault f) (n : Nat) :
    M.run (n + 1) s = .fault f := by
  simp only [Host.Core.run, h]

theorem run_of_refused {r : M.Refusal} (h : M.step s = .refused r) (n : Nat) :
    M.run (n + 1) s = .refused r := by
  simp only [Host.Core.run, h]

/-- Any number of steps stay in a state whose step changes nothing. -/
theorem run_of_step_self (h : M.step s = .next s) (n : Nat) : M.run n s = .next s := by
  induction n with
  | zero => rfl
  | succ n ih => exact (run_of_next h n).trans ih

end

/-- An instruction that goes on to a running machine advanced the cursor (47 R332, R338). -/
theorem k_of_exec_running {i : Instr} {s t : State} (h : exec i s = .next t)
    (ht : t.halted = false) : t.k = s.k + 1 := by
  obtain ⟨hstop, hgo⟩ := onlyRetAndStopHalt i s t h
  exact (hgo fun hi => by simp [(hstop hi).2] at ht).1

/-- The loop of `run` from a cursor that stands before `rest` is one step more than `rest` is long
(47 R332). -/
theorem runFrom_eq_core_run {s : State} {L rest : List Instr} (hrun : s.halted = false)
    (hL : s.program = .list L) (hentry : s.k = 0 → s.x[0]? = some (some 0))
    (hrest : L.drop s.k = rest) : runFrom rest s = core.run (rest.length + 1) s := by
  induction rest generalizing s with
  | nil =>
    have hend : L.length ≤ s.k := List.drop_eq_nil_iff.mp hrest
    have hstep := step_endOfProgram hrun (programList_list hL) hentry hend
    exact (run_of_fault (M := core) hstep _).symm
  | cons i rest ih =>
    have hi : L[s.k]? = some i := by rw [← List.head?_drop, hrest, List.head?_cons]
    have hstep : step s = exec i s := step_eq_exec hrun (programList_list hL) hentry hi
    rw [runFrom]
    cases hexec : exec i s with
    | fault f => exact (run_of_fault (M := core) (hstep.trans hexec) _).symm
    | refused r => exact (run_of_refused (M := core) (hstep.trans hexec) _).symm
    | next t =>
      refine Eq.trans ?_ (run_of_next (M := core) (hstep.trans hexec) _).symm
      change (if t.halted = true then Host.Outcome.next t else runFrom rest t) = _
      split
      · next ht => exact (run_of_step_self (M := core) (haltedMachinesStay t ht) _).symm
      · next ht =>
        have hk := k_of_exec_running hexec (Bool.eq_false_of_not_eq_true ht)
        have hprogram : t.program = .list L := (effect_of_exec hexec).sameFixed.program.trans hL
        have hdrop : L.drop t.k = rest := by rw [hk, ← List.tail_drop, hrest, List.tail_cons]
        exact ih (Bool.eq_false_of_not_eq_true ht) hprogram (by omega) hdrop

/-- Settles O30: the entry check passes and the steps are the loop, or the first step is its
fault. -/
theorem stepsAgreeWithRun : Obligations.StepsAgreeWithRun := by
  intro L s
  let start : State := { s with program := .list L, k := 0, halted := false }
  by_cases hx : start.x[0]? = some (some 0)
  · rw [run, if_pos hx]
    exact (runFrom_eq_core_run (s := start) rfl rfl (fun _ => hx) rfl).symm
  · have hstep : step start = .fault .zeroRegister := step_zeroRegister rfl rfl rfl hx
    rw [run, if_neg hx]
    exact run_of_fault (M := core) (s := start) hstep L.length

end Sys2Proof.Machine
end

section
/-! SUPPORT. Mov: the value each destination kind takes, the faults of its registers, and its frame
(47_reference_execution.md R333, R334). -/

namespace Sys2Proof.Machine

/-! ## Faulting reads -/

theorem readRegister_of_length_le {s : State} {i : Nat} (h : s.x.length ≤ i) :
    readRegister s i = .error .registerIndex := by
  simp [readRegister, List.getElem?_eq_none h]

theorem readRegister_of_undefined {s : State} {i : Nat} (h : s.x[i]? = some none) :
    readRegister s i = .error .undefinedRegister := by
  simp [readRegister, h]

theorem writeRegister_of_length_le {s : State} {i : Nat} (v : Word32) (h : s.x.length ≤ i) :
    writeRegister s i v = .error .registerIndex := by
  simp [writeRegister, checkRegister, Nat.not_lt.mpr h, bind, Except.bind]

/-- The fault of a sequence's first part is the fault of the sequence. -/
theorem except_bind_error {ε α β : Type} {x : Except ε α} {e : ε} (h : x = .error e)
    (f : α → Except ε β) : (x >>= f) = .error e := by
  rw [h]
  rfl

/-- A sequence whose first part answers goes on with its answer. -/
theorem except_bind_ok {ε α β : Type} {x : Except ε α} {a : α} (h : x = .ok a)
    (f : α → Except ε β) : (x >>= f) = f a := by
  rw [h]
  rfl

/-- A register source of any width faults as its register's read does (R333). -/
theorem readSource_error {s : State} {src : Operand} {n : Nat} {f : Fault}
    (hsrc : src.kind = .r32 n ∨ src.kind = .r16l n ∨ src.kind = .r16h n)
    (h : readRegister s n = .error f) : readSource s src = .error f := by
  unfold readSource
  rcases hsrc with hk | hk | hk
  · rw [hk]
    exact h
  · rw [hk]
    exact except_bind_error h _
  · rw [hk]
    exact except_bind_error h _

/-- A half destination faults as its register's read does, because it keeps the other half (R333). -/
theorem writeDest_half_error {s : State} {dest : Operand} {n : Nat} {f : Fault} (v : Word32)
    (hdest : dest.kind = .r16l n ∨ dest.kind = .r16h n) (h : readRegister s n = .error f) :
    writeDest s dest v = .error f := by
  unfold writeDest
  rcases hdest with hk | hk
  · rw [hk]
    exact except_bind_error h _
  · rw [hk]
    exact except_bind_error h _

/-! ## Writing a destination -/

/-- Masking off the bits below `n` shifts them out and back. -/
theorem and_allOnes_shiftLeft {w : Nat} (x : BitVec w) (n : Nat) :
    x &&& BitVec.allOnes w <<< n = (x >>> n) <<< n := by
  ext i hi
  rw [BitVec.getElem_and, BitVec.getElem_shiftLeft, BitVec.getElem_shiftLeft]
  by_cases h : i < n
  · simp [h]
  · simp [h, hi, BitVec.getLsbD_eq_getElem, Nat.add_sub_cancel' (Nat.not_lt.mp h)]

/-- The high half of a word, in place. -/
theorem toNat_and_highMask (x : Word32) : (x &&& 0xFFFF0000).toNat = x.toNat / 2 ^ 16 * 2 ^ 16 := by
  have hmask : (0xFFFF0000 : Word32) = BitVec.allOnes 32 <<< 16 := by decide
  have hlt := x.isLt
  rw [hmask, and_allOnes_shiftLeft, BitVec.toNat_shiftLeft, BitVec.toNat_ushiftRight,
    Nat.shiftLeft_eq, Nat.shiftRight_eq_div_pow]
  omega

/-- The low half of a word. -/
theorem toNat_and_lowMask (x : Word32) : (x &&& 0x0000FFFF).toNat = x.toNat % 2 ^ 16 :=
  Nat.and_two_pow_sub_one_eq_mod x.toNat 16

/-- A high and a low half joined by OR. -/
theorem or_eq_ofNat_halves {x y : Word32} {hi lo : Nat} (hx : x.toNat = hi * 2 ^ 16)
    (hy : y.toNat = lo) (hlo : lo < 2 ^ 16) : x ||| y = BitVec.ofNat 32 (hi * 2 ^ 16 + lo) := by
  have hor : (x ||| y).toNat = hi * 2 ^ 16 + lo := by
    rw [BitVec.toNat_or, hx, hy, Nat.mul_comm, Nat.two_pow_add_eq_or_of_lt hlo]
  rw [← hor, BitVec.ofNat_toNat, BitVec.setWidth_eq]

/-- A low half write keeps the high half (R334). -/
theorem mergeLow_eq (old v : Word32) :
    mergeLow old v = BitVec.ofNat 32 (old.toNat / 2 ^ 16 * 2 ^ 16 + v.toNat % 2 ^ 16) :=
  or_eq_ofNat_halves (toNat_and_highMask old) (toNat_and_lowMask v) (Nat.mod_lt _ (by decide))

/-- A high half write keeps the low half (R334). -/
theorem mergeHigh_eq (old v : Word32) :
    mergeHigh old v = BitVec.ofNat 32 (v.toNat % 2 ^ 16 * 2 ^ 16 + old.toNat % 2 ^ 16) := by
  have hhigh : ((v &&& 0x0000FFFF) <<< 16).toNat = v.toNat % 2 ^ 16 * 2 ^ 16 := by
    rw [BitVec.toNat_shiftLeft, toNat_and_lowMask, Nat.shiftLeft_eq]
    omega
  rw [mergeHigh, BitVec.or_comm]
  exact or_eq_ofNat_halves hhigh (toNat_and_lowMask old) (Nat.mod_lt _ (by decide))

/-! ## The statements -/

/-- A Mov whose source has a value does what the write of its destination does (R334). -/
theorem moveOp_of_source {s : State} {dest src : Operand} {v : Word32} (h : SourceIs s src v) :
    moveOp s dest src = (writeDest s dest v >>= fun t => .ok (advance t)) :=
  except_bind_ok (readSource_ok_iff.mpr h) _

theorem exec_mov_of_writeDest {mk : Operand → Operand → Instr} (hmk : IsMov mk) {s t : State}
    {dest src : Operand} {v : Word32} (hsrc : SourceIs s src v) (h : writeDest s dest v = .ok t) :
    exec (mk dest src) s = .next (advance t) := by
  rw [exec_mov hmk, toOutcome_eq_next, moveOp_of_source hsrc, except_bind_ok h]

theorem exec_mov_dest_fault {mk : Operand → Operand → Instr} (hmk : IsMov mk) {s : State}
    {dest src : Operand} {v : Word32} {f : Fault} (hsrc : SourceIs s src v)
    (h : writeDest s dest v = .error f) : exec (mk dest src) s = .fault f := by
  rw [exec_mov hmk, toOutcome_eq_fault, moveOp_of_source hsrc, except_bind_error h]

theorem exec_mov_source_fault {mk : Operand → Operand → Instr} (hmk : IsMov mk) {s : State}
    (dest : Operand) {src : Operand} {f : Fault} (h : readSource s src = .error f) :
    exec (mk dest src) s = .fault f := by
  rw [exec_mov hmk, toOutcome_eq_fault]
  exact except_bind_error h _

/-- Settles O37: one destination kind at a time, the halves as numbers. -/
theorem movWritesItsDestination : Obligations.MovWritesItsDestination := by
  intro s mk dest src n v hmk hsrc
  refine ⟨fun hdest hn => ?_, fun old hdest hold => ?_, fun old hdest hold => ?_⟩
  · refine exec_mov_of_writeDest (t := setRegister s n v) hmk hsrc ?_
    rw [writeDest, hdest]
    exact writeRegister_ok_iff.mpr ⟨hn, rfl⟩
  · rw [← mergeLow_eq]
    refine exec_mov_of_writeDest (t := setRegister s n (mergeLow old v)) hmk hsrc ?_
    rw [writeDest, hdest]
    exact except_bind_ok (readRegister_ok_iff.mpr hold) _
  · rw [← mergeHigh_eq]
    refine exec_mov_of_writeDest (t := setRegister s n (mergeHigh old v)) hmk hsrc ?_
    rw [writeDest, hdest]
    exact except_bind_ok (readRegister_ok_iff.mpr hold) _

/-- Settles O38: the source's read, then the destination's check or, for a half, its read. -/
theorem movFaultsOnItsRegisters : Obligations.MovFaultsOnItsRegisters := by
  intro s mk dest src n v hmk
  refine ⟨fun hkind => ⟨fun hn => ?_, fun hx => ?_⟩, fun hsrc hdest hn => ?_,
    fun hsrc hdest hx => ?_⟩
  · exact exec_mov_source_fault hmk dest (readSource_error hkind (readRegister_of_length_le hn))
  · exact exec_mov_source_fault hmk dest (readSource_error hkind (readRegister_of_undefined hx))
  · refine exec_mov_dest_fault hmk hsrc ?_
    rcases hdest with hfull | hhalf
    · rw [writeDest, hfull]
      exact writeRegister_of_length_le v hn
    · exact writeDest_half_error v hhalf (readRegister_of_length_le hn)
  · exact exec_mov_dest_fault hmk hsrc (writeDest_half_error v hdest (readRegister_of_undefined hx))

/-- Settles O39: the one register a Mov sets is the destination's. -/
theorem movFrame : Obligations.MovFrame := by
  intro s t mk dest src hmk h
  obtain ⟨n, w, hdest, -, rfl⟩ := exec_mov_next hmk h
  refine ⟨fun r hr => ?_, fun a => rfl, rfl, rfl, rfl, rfl, rfl⟩
  have hne : n ≠ r := fun hnr => hr (hdest.trans (congrArg some hnr))
  rw [advance_x, setRegister_x, List.getElem?_set_ne hne]

end Sys2Proof.Machine
end

section
/-! SUPPORT. Load and the checks of a transfer: the fault of each check in its order, the registers
a Load fills, and the frames of Load and Store (47_reference_execution.md R335–R337). -/

namespace Sys2Proof.Machine

/-! ## The checks in their order (R335) -/

theorem transferFormat_ok {s : State} {fc : Nat} {F : Format}
    (h : formatOfCode s.params fc = some F) : transferFormat s fc = .ok F := by
  simp only [transferFormat, h]

theorem transferFirst_ok {reg : Operand} {n : Nat} (h : reg.kind = .r32 n) :
    transferFirst reg = .ok n := by
  simp only [transferFirst, h]

theorem require_ok {b : Bool} (h : b = true) (f : Fault) : require b f = .ok () := by
  simp [require, h]

theorem require_error {b : Bool} (h : b = false) (f : Fault) : require b f = .error f := by
  simp [require, h]

theorem elementInRange_iff {s : State} {F : Format} {idx : Int} :
    elementInRange s F idx = true ↔ 0 ≤ idx ∧ (idx + 1) * F.size ≤ s.mem.size := by
  simp [elementInRange]

section
variable {s : State} {isStore : Bool} {fc mask : Nat} {reg off : Operand}

/-- Step 1. -/
theorem resolveTransfer_unknownFormat (h : formatOfCode s.params fc = none) :
    resolveTransfer s isStore fc mask reg off = .error .unknownFormat :=
  except_bind_error (by simp only [transferFormat, h]) _

variable {F : Format} (hF : formatOfCode s.params fc = some F)
include hF

/-- Step 2. -/
theorem resolveTransfer_noChannel (h : ∃ j ∈ lanes mask, F.hasChannel j = false) :
    resolveTransfer s isStore fc mask reg off = .error .noChannel := by
  have hall : (lanes mask).all F.hasChannel = false := by simpa using h
  exact (except_bind_ok (transferFormat_ok hF) _).trans
    (except_bind_error (require_error hall _) _)

variable (hch : ∀ j ∈ lanes mask, F.hasChannel j = true)
include hch

/-- Step 3. -/
theorem resolveTransfer_halfList (h : ∀ n, reg.kind ≠ .r32 n) :
    resolveTransfer s isStore fc mask reg off = .error .halfList := by
  have hfirst : transferFirst reg = .error .halfList := by
    unfold transferFirst
    split
    · next n hn => exact absurd hn (h n)
    · rfl
  exact (except_bind_ok (transferFormat_ok hF) _).trans <|
    (except_bind_ok (require_ok (List.all_eq_true.mpr hch) _) _).trans (except_bind_error hfirst _)

variable {n : Nat} (hreg : reg.kind = .r32 n)
include hreg

/-- Step 4. -/
theorem resolveTransfer_offset_error {f : Fault} (h : resolveOffset s off = .error f) :
    resolveTransfer s isStore fc mask reg off = .error f :=
  (except_bind_ok (transferFormat_ok hF) _).trans <|
    (except_bind_ok (require_ok (List.all_eq_true.mpr hch) _) _).trans <|
    (except_bind_ok (transferFirst_ok hreg) _).trans (except_bind_error h _)

variable {o : Int} (ho : OffsetIs s off o)
include ho

/-- Step 5. -/
theorem resolveTransfer_elementRange
    (h : ∃ j ∈ lanes mask, elementIndex F o j < 0 ∨
      (s.mem.size : Int) < (elementIndex F o j + 1) * F.size) :
    resolveTransfer s isStore fc mask reg off = .error .elementRange := by
  obtain ⟨j, hj, hout⟩ := h
  have hall : ((lanes mask).all fun j => elementInRange s F (elementIndex F o j)) = false := by
    refine List.all_eq_false.mpr ⟨j, hj, fun hin => ?_⟩
    obtain ⟨hlow, hhigh⟩ := elementInRange_iff.mp hin
    omega
  exact (except_bind_ok (transferFormat_ok hF) _).trans <|
    (except_bind_ok (require_ok (List.all_eq_true.mpr hch) _) _).trans <|
    (except_bind_ok (transferFirst_ok hreg) _).trans <|
    (except_bind_ok (resolveOffset_ok_iff.mpr ho) _).trans <|
    except_bind_error (require_error hall _) _

omit hch in
/-- Step 6. -/
theorem resolveTransfer_registers_error {f : Fault} (hin : LanesInRange s F o mask)
    (h : checkTransferRegisters s isStore n (lanes mask).length = .error f) :
    resolveTransfer s isStore fc mask reg off = .error f := by
  have hch : (lanes mask).all F.hasChannel = true :=
    List.all_eq_true.mpr fun j hj => (hin j hj).1
  have hall : ((lanes mask).all fun j => elementInRange s F (elementIndex F o j)) = true :=
    List.all_eq_true.mpr fun j hj => elementInRange_iff.mpr (hin j hj).2
  exact (except_bind_ok (transferFormat_ok hF) _).trans <|
    (except_bind_ok (require_ok hch _) _).trans <|
    (except_bind_ok (transferFirst_ok hreg) _).trans <|
    (except_bind_ok (resolveOffset_ok_iff.mpr ho) _).trans <|
    (except_bind_ok (require_ok hall _) _).trans (except_bind_error h _)

end

/-- A register offset faults as its register's read does (R335 step 4). -/
theorem resolveOffset_error {s : State} {off : Operand} {m : Nat} {f : Fault}
    (hoff : off.kind = .r32 m) (h : readRegister s m = .error f) :
    resolveOffset s off = .error f := by
  rw [resolveOffset, hoff]
  exact except_bind_error h _

/-- Step 6 answers with the fault of the first register that fails (log 20). -/
theorem checkTransferRegisters_error {s : State} {isStore : Bool} {n p k : Nat} {f : Fault}
    (hk : k < p) (hbefore : ∀ k' < k, checkTransferRegister s isStore (n + k') = .ok ())
    (h : checkTransferRegister s isStore (n + k) = .error f) :
    checkTransferRegisters s isStore n p = .error f := by
  induction k generalizing n p with
  | zero =>
    obtain ⟨p, rfl⟩ := Nat.exists_eq_succ_of_ne_zero hk.ne'
    exact except_bind_error h _
  | succ k ih =>
    obtain ⟨p, rfl⟩ := Nat.exists_eq_succ_of_ne_zero (Nat.ne_zero_of_lt hk)
    refine (except_bind_ok (hbefore 0 (Nat.succ_pos k)) _).trans
      (ih (Nat.lt_of_succ_lt_succ hk) (fun k' hk' => ?_) ?_)
    · rw [Nat.add_right_comm]
      exact hbefore (k' + 1) (Nat.succ_lt_succ hk')
    · rwa [Nat.add_right_comm]

/-- A Load's list with any register past the file: the first one is the file's length (R335). -/
theorem checkTransferRegisters_load_error {s : State} {n p k : Nat} (hk : k < p)
    (h : s.x.length ≤ n + k) :
    checkTransferRegisters s false n p = .error .registerIndex := by
  refine checkTransferRegisters_error (k := s.x.length - n) (by omega) (fun k' hk' => ?_) ?_
  · exact checkTransferRegister_ok_iff.mpr ⟨by omega, by simp⟩
  · have hout : ¬ n + (s.x.length - n) < s.x.length := by omega
    simp [checkTransferRegister, checkRegister, hout]

/-- A Store's register faults as its read does (R335 step 6). -/
theorem checkTransferRegister_store_error {s : State} {i : Nat} {f : Fault}
    (h : readRegister s i = .error f) : checkTransferRegister s true i = .error f := by
  rw [checkTransferRegister, if_pos rfl]
  exact except_bind_error h _

/-- A Store's list whose registers before `k` hold values, where register `k` does not read. -/
theorem checkTransferRegisters_store_error {s : State} {n p k : Nat} {f : Fault} (hk : k < p)
    (hbefore : ∀ k' < k, ∃ w, s.x[n + k']? = some (some w))
    (h : readRegister s (n + k) = .error f) :
    checkTransferRegisters s true n p = .error f := by
  refine checkTransferRegisters_error hk (fun k' hk' => ?_) (checkTransferRegister_store_error h)
  obtain ⟨w, hw⟩ := hbefore k' hk'
  exact checkTransferRegister_ok_iff.mpr
    ⟨lt_of_readRegister (readRegister_ok_iff.mpr hw), fun _ => ⟨w, hw⟩⟩

section
variable {s : State} {fc mask : Nat} {reg off : Operand} {f : Fault}

theorem exec_deviceLoad_fault (base : Operand)
    (h : resolveTransfer s false fc mask reg off = .error f) :
    exec (.deviceLoad fc mask reg base off) s = .fault f :=
  toOutcome_eq_fault.mpr (except_bind_error h _)

theorem exec_deviceStore_fault (base : Operand)
    (h : resolveTransfer s true fc mask reg off = .error f) :
    exec (.deviceStore fc mask reg base off) s = .fault f :=
  toOutcome_eq_fault.mpr (except_bind_error h _)

/-- A check that fails for both transfers is the fault of either. -/
theorem exec_transfer_fault {base : Operand} {i : Instr}
    (hi : i = .deviceLoad fc mask reg base off ∨ i = .deviceStore fc mask reg base off)
    (h : ∀ isStore, resolveTransfer s isStore fc mask reg off = .error f) :
    exec i s = .fault f := by
  rcases hi with rfl | rfl
  · exact exec_deviceLoad_fault base (h false)
  · exact exec_deviceStore_fault base (h true)

end

/-- Settles O45: one lemma per check, each after the checks before it pass. -/
theorem transferFaultsInOrder : Obligations.TransferFaultsInOrder := by
  intro s fc mask reg base off i hi
  refine ⟨fun hF => exec_transfer_fault hi fun _ => resolveTransfer_unknownFormat hF,
    fun F hF => ⟨fun h => exec_transfer_fault hi fun _ => resolveTransfer_noChannel hF h,
    fun hch => ⟨fun h => exec_transfer_fault hi fun _ => resolveTransfer_halfList hF hch h,
    fun n hreg => ⟨fun m hoff => ⟨fun hm => ?_, fun hm => ?_⟩, fun o ho => ⟨fun h => ?_,
    fun hin k hk => ⟨?_, ?_⟩⟩⟩⟩⟩⟩
  · have hread := resolveOffset_error hoff (readRegister_of_length_le hm)
    exact exec_transfer_fault hi fun _ => resolveTransfer_offset_error hF hch hreg hread
  · have hread := resolveOffset_error hoff (readRegister_of_undefined hm)
    exact exec_transfer_fault hi fun _ => resolveTransfer_offset_error hF hch hreg hread
  · exact exec_transfer_fault hi fun _ => resolveTransfer_elementRange hF hch hreg ho h
  · rintro rfl hlen
    exact exec_deviceLoad_fault base (resolveTransfer_registers_error hF hreg ho hin
      (checkTransferRegisters_load_error hk hlen))
  · rintro rfl hbefore
    have hfault : ∀ f, readRegister s (n + k) = .error f →
        exec (.deviceStore fc mask reg base off) s = .fault f := fun f hread =>
      exec_deviceStore_fault base (resolveTransfer_registers_error hF hreg ho hin
        (checkTransferRegisters_store_error hk hbefore hread))
    exact ⟨fun hlen => hfault _ (readRegister_of_length_le hlen),
      fun hx => hfault _ (readRegister_of_undefined hx)⟩

/-! ## Lanes of a mask (41_operand_codec.md R153) -/

theorem mem_rankedLanes_iff {mask j k : Nat} :
    (j, k) ∈ rankedLanes mask ↔ (lanes mask)[k]? = some j :=
  List.mem_zipIdx_iff_getElem?

theorem lane_lt_four {mask j : Nat} (h : j ∈ lanes mask) : j < 4 := by
  have hj : j ∈ List.range 4 := List.mem_of_mem_filter h
  exact List.mem_range.mp hj

/-- No two lanes have the same rank. -/
theorem rankedLanes_pairwise_rank (mask : Nat) :
    (rankedLanes mask).Pairwise fun l l' => l.2 ≠ l'.2 := by
  rw [← List.pairwise_map (f := Prod.snd) (R := (· ≠ ·)), rankedLanes, List.zipIdx_map_snd]
  exact List.nodup_range'

/-- No two lanes have the same bit position. -/
theorem rankedLanes_pairwise_position (mask : Nat) :
    (rankedLanes mask).Pairwise fun l l' => l.1 ≠ l'.1 := by
  rw [← List.pairwise_map (f := Prod.fst) (R := (· ≠ ·)), rankedLanes, List.zipIdx_map_fst]
  exact List.Nodup.filter _ (by decide)

/-! ## Load (R336) -/

/-- Lanes of distinct ranks each leave their element's conversion in their register. -/
theorem loadLanes_register (tr : Transfer) {ls : List (Nat × Nat)} {s : State} {l : Nat × Nat}
    (hl : l ∈ ls) (hranks : ls.Pairwise fun l l' => l.2 ≠ l'.2)
    (hreg : tr.first + l.2 < s.x.length) :
    (loadLanes tr ls s).x[tr.first + l.2]? =
      some (some (loadElement s.params tr.format (readElement s.mem tr l.1) l.1)) := by
  induction ls generalizing s with
  | nil => cases hl
  | cons head rest ih =>
    obtain ⟨hhead, hrest⟩ := List.pairwise_cons.mp hranks
    change (loadLanes tr rest (loadLane tr s head)).x[tr.first + l.2]? = _
    rcases List.mem_cons.mp hl with rfl | hl
    · rw [loadLanes_outside tr rest _ _ fun l' hl' h => hhead l' hl' (Nat.add_left_cancel h)]
      simp [loadLane, hreg]
    · exact ih (s := loadLane tr s head) hl hrest (by simpa [loadLane] using hreg)

/-- No lane of a mask has its register outside the list `n .. n+p-1`. -/
theorem loadLanes_outside_list (tr : Transfer) (mask : Nat) (s : State) {r : Nat}
    (h : r < tr.first ∨ tr.first + (lanes mask).length ≤ r) :
    (loadLanes tr (rankedLanes mask) s).x[r]? = s.x[r]? :=
  loadLanes_outside tr _ s r fun _ hl => by
    have := (rank_lt hl).2
    omega

/-- Settles O40: the checks pass, each lane fills its own register, and no lane any other. -/
theorem loadMovesTheLanesOfTheMask : Obligations.LoadMovesTheLanesOfTheMask := by
  intro s fc mask n reg base off F o hF hin hreg ho hregs
  let tr : Transfer := ⟨F, n, o⟩
  have hresolve : resolveTransfer s false fc mask reg off = .ok tr :=
    resolveTransfer_ok_iff.mpr ⟨hF, hin, hreg, ho, fun k hk => ⟨hregs k hk, by simp⟩⟩
  obtain ⟨hparams, hprogram, hu, hmem, hk, hhalted, -⟩ := loadLanes_fields tr (rankedLanes mask) s
  refine ⟨_, exec_deviceLoad_next_iff.mpr ⟨tr, hresolve, rfl⟩, fun j k hjk => ?_,
    fun r hr => loadLanes_outside_list tr mask s hr, hmem, hu, hparams, hprogram,
    congrArg (· + 1) hk, hhalted⟩
  have hlane := mem_rankedLanes_iff.mpr hjk
  exact loadLanes_register tr hlane (rankedLanes_pairwise_rank mask) (hregs k (rank_lt hlane).2)

/-- Settles O41: the list is the transfer's. -/
theorem loadFrame : Obligations.LoadFrame := by
  intro s t fc mask reg base off h
  obtain ⟨tr, hresolve, rfl⟩ := exec_deviceLoad_next_iff.mp h
  obtain ⟨-, -, hreg, -⟩ := resolveTransfer_ok_iff.mp hresolve
  obtain ⟨hparams, hprogram, hu, hmem, -, hhalted, -⟩ := loadLanes_fields tr (rankedLanes mask) s
  exact ⟨tr.first, hreg, fun r hr => loadLanes_outside_list tr mask s hr,
    fun a => congrArg (readByte · a) hmem, congrArg Memory.size hmem, hu, hparams, hprogram,
    hhalted⟩

end Sys2Proof.Machine
end

section
/-! SUPPORT. Store: a converted element fits its bytes, each lane writes its own element, and the
lanes of a packed format apply their conversions to one element in turn
(46_format_converters.md R281, 47_reference_execution.md R335, R337, R342). -/

namespace Sys2Proof

/-! ## Stored elements fit their bytes -/

theorem storeSrgba8_lt (x : Word32) (j : Nat) : storeSrgba8 x j < 2 ^ 8 := by
  unfold storeSrgba8
  split
  · exact storeNorm_lt u8norm x
  · split
    · decide
    · split <;> decide
    · exact storeNorm_lt u8norm _

theorem clamp9e5_le (x : Word32) : clamp9e5 x ≤ 65408 * 2 ^ unitBits := by
  unfold clamp9e5
  split
  · exact Nat.zero_le _
  · split
    · exact Nat.zero_le _
    · exact Nat.le_refl _
  · split
    · exact Nat.zero_le _
    · exact Nat.min_le_left _ _

/-- The exponent and the three mantissas of an RGB9E5 word fit their fields (R296, R298). -/
theorem enc9e5_lt (r g b : Word32) : enc9e5 r g b < 2 ^ 32 := by
  have hE := sharedExponent_lt (max_le (clamp9e5_le r) (max_le (clamp9e5_le g) (clamp9e5_le b)))
  have hr := quantize9e5_sharedExponent_lt
    (le_max_left (clamp9e5 r) (max (clamp9e5 g) (clamp9e5 b)))
  have hg := quantize9e5_sharedExponent_lt
    ((le_max_left (clamp9e5 g) (clamp9e5 b)).trans (le_max_right (clamp9e5 r) _))
  have hb := quantize9e5_sharedExponent_lt
    ((le_max_right (clamp9e5 g) (clamp9e5 b)).trans (le_max_right (clamp9e5 r) _))
  simp only [enc9e5]
  omega

/-- A store conversion of a channel of the format gives an element of the format's size (R280). -/
theorem storeElement_lt {F : Format} {j old : Nat} (x : Word32) (hj : j < 4)
    (hch : F.hasChannel j = true) (hold : old < 256 ^ F.size) :
    storeElement F x j old < 256 ^ F.size := by
  cases F with
  | i8 => exact Nat.mod_lt _ (by decide)
  | i16 => exact Nat.mod_lt _ (by decide)
  | i32 => exact Nat.mod_lt _ (by decide)
  | u8norm => exact storeNorm_lt _ x
  | s8norm => exact storeNorm_lt _ x
  | u16norm => exact storeNorm_lt _ x
  | s16norm => exact storeNorm_lt _ x
  | srgba8 => exact storeSrgba8_lt x j
  | rgb10a2 => exact (rgb10a2StoreWritesOneChannel x j old hj hold).1
  | rg11b10f => exact (rg11b10fStoreWritesOneChannel x j old (of_decide_eq_true hch) hold).1
  | rgb9e5 => exact enc9e5_lt _ _ _

end Sys2Proof

namespace Sys2Proof.Machine

/-! ## Elements of a transfer -/

theorem memRead_lt (m : Memory) (a n : Nat) : memRead m a n < 256 ^ n := by
  induction n generalizing a with
  | zero => exact Nat.one_pos
  | succ n ih =>
    have hbyte := (readByte m a).isLt
    have hrest := ih (a + 1)
    rw [memRead, Nat.pow_succ]
    omega

/-- A lane names a channel of the transfer's format and an element inside a buffer of this length
(R335 steps 2 and 5). -/
structure LaneFits (tr : Transfer) (size : Nat) (l : Nat × Nat) : Prop where
  position : l.1 < 4
  channel : tr.format.hasChannel l.1 = true
  inside : elementAddress tr.format tr.offset l.1 + tr.format.size ≤ size

/-- The elements of two lane positions share no byte. -/
def ElementsApart (tr : Transfer) (j j' : Nat) : Prop :=
  elementAddress tr.format tr.offset j + tr.format.size ≤ elementAddress tr.format tr.offset j' ∨
    elementAddress tr.format tr.offset j' + tr.format.size ≤ elementAddress tr.format tr.offset j

theorem laneFits_of_lanesInRange {s : State} {tr : Transfer} {mask : Nat}
    (h : LanesInRange s tr.format tr.offset mask) :
    ∀ l ∈ rankedLanes mask, LaneFits tr s.mem.size l := by
  intro l hl
  have hlane := (rank_lt hl).1
  obtain ⟨hch, hlow, hhigh⟩ := h l.1 hlane
  exact ⟨lane_lt_four hlane, hch, elementAddress_le hlow hhigh⟩

/-- Every lane of a packed format has the one element (46 R281). -/
theorem elementAddress_packed {F : Format} (h : F.packed = true) (o : Int) (j : Nat) :
    elementAddress F o j = elementAddress F o 0 := by
  simp [elementAddress, elementIndex, h]

/-- The elements of a per-lane format follow one another. -/
theorem elementAddress_add_size_le {F : Format} (h : F.packed = false) {o : Int} {j j' : Nat}
    (hlow : 0 ≤ elementIndex F o j) (hlt : j < j') :
    elementAddress F o j + F.size ≤ elementAddress F o j' := by
  simp only [elementIndex, h, elementAddress] at hlow ⊢
  have hstep : (o + j + 1) * (F.size : Int) ≤ (o + j') * F.size :=
    Int.mul_le_mul_of_nonneg_right (by omega) (by omega)
  have hpos : 0 ≤ (o + j) * (F.size : Int) := Int.mul_nonneg hlow (by omega)
  rw [Int.add_mul, Int.one_mul] at hstep
  simp only [Bool.false_eq_true, if_false]
  omega

theorem elementsApart_of_lanesInRange {s : State} {tr : Transfer} {mask : Nat}
    (hper : tr.format.packed = false) (h : LanesInRange s tr.format tr.offset mask) :
    (rankedLanes mask).Pairwise fun l l' => ElementsApart tr l.1 l'.1 := by
  refine (rankedLanes_pairwise_position mask).imp_of_mem fun hl hl' hne => ?_
  obtain ⟨-, hlow, -⟩ := h _ (rank_lt hl).1
  obtain ⟨-, hlow', -⟩ := h _ (rank_lt hl').1
  rcases Nat.lt_or_gt_of_ne hne with hlt | hlt
  · exact .inl (elementAddress_add_size_le hper hlow hlt)
  · exact .inr (elementAddress_add_size_le hper hlow' hlt)

/-! ## The lanes of a Store (R337) -/

section
variable {s : State} {tr : Transfer} (hwf : s.mem.wf = true)
include hwf

/-- One lane leaves its conversion in its element. -/
theorem readElement_storeLane {l : Nat × Nat} (hfit : LaneFits tr s.mem.size l) :
    readElement (storeLane tr s l).mem tr l.1 =
      storeElement tr.format (regValue s (tr.first + l.2)) l.1 (readElement s.mem tr l.1) :=
  (memRead_memWrite _ _ _ hwf hfit.inside).trans
    (Nat.mod_eq_of_lt (storeElement_lt _ hfit.position hfit.channel (memRead_lt _ _ _)))

variable {ls : List (Nat × Nat)} (hfit : ∀ l ∈ ls, LaneFits tr s.mem.size l)
include hfit

/-- Lanes leave an element they share no byte with. -/
theorem readElement_storeLanes_apart {j : Nat} (hj : ∀ l ∈ ls, ElementsApart tr j l.1) :
    readElement (storeLanes tr ls s).mem tr j = readElement s.mem tr j := by
  refine memRead_congr _ _ fun b hlow hhigh => ?_
  refine storeLanes_outside tr ls b hwf (fun l hl => (hfit l hl).inside) fun l hl => ?_
  rcases hj l hl with hbelow | habove
  · exact .inl (by omega)
  · exact .inr (by omega)

/-- Lanes with separate elements each leave their conversion in their own. -/
theorem readElement_storeLanes_perLane {l : Nat × Nat} (hl : l ∈ ls)
    (hapart : ls.Pairwise fun l l' => ElementsApart tr l.1 l'.1) :
    readElement (storeLanes tr ls s).mem tr l.1 =
      storeElement tr.format (regValue s (tr.first + l.2)) l.1 (readElement s.mem tr l.1) := by
  induction ls generalizing s with
  | nil => cases hl
  | cons head rest ih =>
    obtain ⟨hhead, hrest⟩ := List.pairwise_cons.mp hapart
    have hwf' : (storeLane tr s head).mem.wf = true := memWrite_wf _ _ _ hwf
    have hfit' : ∀ l ∈ rest, LaneFits tr (storeLane tr s head).mem.size l := fun l hl => by
      simpa [storeLane] using hfit l (List.mem_cons_of_mem _ hl)
    change readElement (storeLanes tr rest (storeLane tr s head)).mem tr l.1 = _
    rcases List.mem_cons.mp hl with rfl | hl
    · rw [readElement_storeLanes_apart hwf' hfit' hhead,
        readElement_storeLane hwf (hfit _ List.mem_cons_self)]
    · have hkeep : readElement (storeLane tr s head).mem tr l.1 = readElement s.mem tr l.1 :=
        readElement_storeLanes_apart (ls := [head]) hwf
          (List.forall_mem_singleton.mpr (hfit head List.mem_cons_self))
          (List.forall_mem_singleton.mpr (hhead l hl).symm)
      rw [ih hwf' hfit' hl hrest, hkeep]
      rfl

/-- The lanes of a packed format apply their conversions to the one element in turn. -/
theorem readElement_storeLanes_packed (hpacked : tr.format.packed = true) :
    readElement (storeLanes tr ls s).mem tr 0 =
      ls.foldl (fun e l => storeElement tr.format (regValue s (tr.first + l.2)) l.1 e)
        (readElement s.mem tr 0) := by
  have hshared : ∀ m j, readElement m tr j = readElement m tr 0 := fun m j => by
    rw [readElement, elementAddress_packed hpacked, readElement]
  induction ls generalizing s with
  | nil => rfl
  | cons head rest ih =>
    have hwf' : (storeLane tr s head).mem.wf = true := memWrite_wf _ _ _ hwf
    have hfit' : ∀ l ∈ rest, LaneFits tr (storeLane tr s head).mem.size l := fun l hl => by
      simpa [storeLane] using hfit l (List.mem_cons_of_mem _ hl)
    have hlane := readElement_storeLane hwf (hfit head List.mem_cons_self)
    rw [hshared, hshared s.mem] at hlane
    rw [List.foldl_cons, ← hlane]
    exact ih hwf' hfit'

end

/-! ## The statements -/

/-- Settles O42: the checks pass; elements of a per-lane format do not meet, and those of a packed
one are the same. -/
theorem storeMovesTheLanesOfTheMask : Obligations.StoreMovesTheLanesOfTheMask := by
  intro s fc mask n reg base off F o v hwf hF hin hreg ho hregs
  let tr : Transfer := ⟨F, n, o⟩
  have hresolve : resolveTransfer s true fc mask reg off = .ok tr :=
    resolveTransfer_ok_iff.mpr ⟨hF, hin, hreg, ho, fun k hk =>
      ⟨lt_of_readRegister (readRegister_ok_iff.mpr (hregs k hk)), fun _ => ⟨v k, hregs k hk⟩⟩⟩
  have hfit : ∀ l ∈ rankedLanes mask, LaneFits tr s.mem.size l := laneFits_of_lanesInRange hin
  have hvalue : ∀ l ∈ rankedLanes mask, regValue s (tr.first + l.2) = v l.2 := fun l hl =>
    regValue_of_readRegister (readRegister_ok_iff.mpr (hregs l.2 (rank_lt hl).2))
  obtain ⟨hparams, hprogram, hu, hx, hk, hhalted, hsize⟩ :=
    storeLanes_fields tr (rankedLanes mask) s
  refine ⟨_, exec_deviceStore_next_iff.mpr ⟨tr, hresolve, rfl⟩, fun hper j k hjk => ?_,
    fun hpacked _ => ?_, hx, hu, hparams, hprogram, hsize, storeLanes_wf tr _ hwf,
    congrArg (· + 1) hk, hhalted⟩
  · have hlane := mem_rankedLanes_iff.mpr hjk
    rw [← hvalue _ hlane]
    exact readElement_storeLanes_perLane hwf hfit hlane (elementsApart_of_lanesInRange hper hin)
  · refine (readElement_storeLanes_packed hwf hfit hpacked).trans ?_
    exact List.foldl_ext _ _ _ fun e l hl => by rw [hvalue l hl]

/-- Settles O43: the transfer's format and offset are those the operands name. -/
theorem storeFrame : Obligations.StoreFrame := by
  intro s t fc mask reg base off hwf h
  obtain ⟨tr, hresolve, rfl⟩ := exec_deviceStore_next_iff.mp h
  obtain ⟨hformat, hin, -, hoffset, -⟩ := resolveTransfer_ok_iff.mp hresolve
  obtain ⟨hparams, hprogram, hu, hx, -, hhalted, hsize⟩ :=
    storeLanes_fields tr (rankedLanes mask) s
  refine ⟨fun F o hF ho a ha => ?_, fun r => congrArg (·[r]?) hx, hsize, hu, hparams, hprogram,
    hhalted⟩
  obtain rfl : tr.format = F := Option.some.inj (hformat.symm.trans hF)
  obtain rfl : tr.offset = o := Except.ok.inj ((resolveOffset_ok_iff.mpr hoffset).symm.trans ho)
  exact storeLanes_outside tr _ a hwf (fun l hl => (laneFits_of_lanesInRange hin l hl).inside)
    fun l hl => ha l.1 (rank_lt hl).1

/-- The byte address of lane 0's I32 element (R342). -/
theorem elementAddress_i32_zero (o : Nat) : elementAddress .i32 o 0 = o * 4 := by
  simp only [elementAddress, elementIndex, Format.packed, Format.size, Bool.false_eq_true, if_false]
  omega

/-- Settles O44: mask 1 selects lane 0 alone, whose element is `off`. -/
theorem maskOneStoreWritesOneElement : Obligations.MaskOneStoreWritesOneElement := by
  intro s fc n reg base off o v hwf hF hreg hv ho hend
  have hlanes : lanes 1 = [0] := by decide
  have hin : LanesInRange s .i32 o 1 := by
    simp only [LanesInRange, hlanes, List.mem_singleton, forall_eq, elementIndex, Format.packed,
      Format.size]
    exact ⟨rfl, by omega⟩
  have hvalue : ∀ k < (lanes 1).length, s.x[n + k]? = some (some v) := by simpa [hlanes] using hv
  obtain ⟨t, hexec, hper, -⟩ := storeMovesTheLanesOfTheMask s fc 1 n reg base off .i32 o
    (fun _ => v) hwf hF hin hreg ho hvalue
  obtain ⟨houtside, -⟩ := storeFrame s t fc 1 reg base off hwf hexec
  refine ⟨t, hexec, ?_, fun a ha => ?_⟩
  · have hread := hper rfl 0 0 (by rw [hlanes]; rfl)
    rw [elementAddress_i32_zero] at hread
    exact hread.trans (Nat.mod_eq_of_lt v.isLt)
  · refine houtside .i32 o hF (resolveOffset_ok_iff.mpr ho) a fun j hj => ?_
    obtain rfl : j = 0 := by simpa [hlanes] using hj
    rw [elementAddress_i32_zero]
    exact ha

end Sys2Proof.Machine
end

section
/-! SUPPORT. What the decode step answers when the buffer ends before the word does
(45_stream_codec.md R261, 60_exceptions.md R363). -/

namespace Sys2Proof

/-- R261 step 1: too few bytes are left to hold a length. -/
theorem unpackAt_error_of_lt_two {P : Params} {B : Buffer} {c : Nat} (h : B.length < c + 2) :
    unpackAt P B c = .error (.bufferBounds c none) := by
  have hshort : (B.drop c).length < 2 := by rw [List.length_drop]; omega
  simp only [unpackAt, if_pos hshort]

/-- R261 step 3: the length is known, and the bytes left are fewer. -/
theorem unpackAt_error_of_lt_wordLength {P : Params} {B : Buffer} {c n : Nat}
    (htwo : c + 2 ≤ B.length) (hlen : wordLength P ((B.drop c).take 2) c = .ok n)
    (hcut : B.length < c + n) :
    unpackAt P B c = .error (.bufferBounds c (some n)) := by
  have hlong : ¬(B.drop c).length < 2 := by rw [List.length_drop]; omega
  have hshort : (B.drop c).length < n := by rw [List.length_drop]; omega
  simp only [unpackAt, if_neg hlong, hlen, if_pos hshort]

/-- Settles O16: the checks of R261 steps 1 and 3, each with its context. -/
theorem truncatedWordsExceedTheBuffer : Obligations.TruncatedWordsExceedTheBuffer :=
  fun _ _ _ _ => ⟨unpackAt_error_of_lt_two, unpackAt_error_of_lt_wordLength⟩

end Sys2Proof
end
